-- ==== Sys2Proof/Word.lean ====
section
/-! DEFINITION. The word, byte and handle types of 00_scope.md R9. -/

namespace Sys2Proof

/-- A word is 32 bits, bit 0 the least significant (R9). -/
abbrev Word := BitVec 32

/-- A byte (R9). -/
abbrev Byte := BitVec 8

/-- A byte string; byte 0 is first in stream order (R9, R31). -/
abbrev Bytes := List Byte

/-- A 24-bit number naming one PRP together with its opaque state (R7). -/
abbrev Handle := BitVec 24

end Sys2Proof
end

