-- ==== Sys2Proof/Config.lean ====
section
/-! DEFINITION. The open parameters of the hardware (00_scope.md R6, R7) as plain data, and the free values.

A `Config` is one instance's choice of the OPEN parameters. It stands in `State` because `exec` takes no other argument;
no step changes it (10_state.md R22). Log entries 1, 2 and 11. -/

namespace Sys2Proof

/-- `PAD_RULE`, the padding length rule of FINAL (R6, 92 D9, 90 C2). -/
inductive PadRule where
  /-- The source's formula as written; the default. -/
  | literal
  /-- The formula reduced modulo 64 (FIPS 180-4). -/
  | minimal
  deriving DecidableEq, Repr

/-- The direction of a PRP request (R7, R9). -/
inductive Dir where
  | enc
  | dec
  deriving DecidableEq, Repr

/-- One entry of `PrpTable`: the handle, the block size `PB`, and what the permutation answers, as lists of
(input block, output block). A block that no entry lists is answered by `Config.freePrpByte`, so the answer to every block
is a function of handle, direction and block alone (R7), and nothing more is known of it. DESIGN CHOICE, log entry 2. -/
structure Prp where
  handle : Handle
  pb : Nat
  encAnswers : List (Bytes × Bytes)
  decAnswers : List (Bytes × Bytes)
  deriving DecidableEq, Repr

/-- The parameters of an instance (R6). `pbMax` has the 12 bits of `1 <= PB_MAX <= 4095`. -/
structure Config where
  pbMax : BitVec 12
  padRule : PadRule
  prpTable : List Prp
  deriving DecidableEq, Repr

/-- Free value: byte `i` of the answer of the PRP behind a handle to a block its entry does not list (R7). -/
opaque Config.freePrpByte : Handle → Dir → Bytes → Nat → Byte

/-- Free value: what the n-th read of a write-only register gives (93 U3). Log entry 11. -/
opaque Config.freeRead : Nat → Word

/-- `PB_MAX - 1` of the installed instance, OPEN (R6). -/
opaque Config.installedPbMaxPred : Fin 4095

/-- The `PrpTable` the installed instance is wired to, OPEN (R6). -/
opaque Config.installedPrpTable : List Prp

/-- The configuration of the instance that `State.reset` describes: `PAD_RULE` at the spec's default, the other
parameters open. Log entry 1. -/
def Config.installed : Config where
  pbMax := BitVec.ofNat 12 (Config.installedPbMaxPred.val + 1)
  padRule := .literal
  prpTable := Config.installedPrpTable

end Sys2Proof
end

