-- ==== Sys2Proof/Machine/State.lean ====
section
/-! DEFINITION. The state of one CORE instance (10_state.md), what the host still asks of it and has seen of it, and reset. -/

namespace Sys2Proof.Machine

/-- The causes of the CORE's one exceptional mechanism (60_exceptions.md R121). Raising one is a NEXT state (R124). -/
inductive FaultCode where
  /-- `F_ILLEGAL`: the word is none of the 13 commands. -/
  | illegal
  /-- `F_UNINIT`: a non-INIT command addressed a context whose VALID flag is 0. -/
  | uninit
  /-- `F_PRP`: the handle names no PRP of this instance, or one whose block does not fit. -/
  | prp
  /-- `F_ACC`: the accumulator invariant is broken on entry. -/
  | acc
  /-- `F_PAD`: a non-zero leftover after padding. -/
  | pad
  /-- `F_WINDOW`: the counter window does not fit in the block. -/
  | window
  deriving DecidableEq, Repr

/-- Why a step has no next state because of the machine's own state. No fault of the CORE is one of these (they are next
states, R124). -/
inductive Fault where
  /-- A mode context is VALID and bound to a handle that `PrpTable` does not name. Raised by `CBC.ENCRYPT`, `CBC.DECRYPT`,
  `CTR.CIPHER` and `CTR.CUSTOM`. Safe: 10_state.md R19 (I-P) rules such a state out, and the spec gives it no effect.
  Log entry 7. -/
  | prpPortSilent (handle : Handle)
  deriving DecidableEq, Repr

/-- Why the model gives a transaction no step. -/
inductive Refusal where
  /-- A command without a meaning yet; only exec's arms answer with it. Safe. -/
  | notModelled (mnemonic : String)
  /-- `din` is not exactly `DinLen` bytes long (20_memory.md R43, 93 U14: no step). Raised by every command that would
  otherwise complete. Safe. Log entry 6. -/
  | malformedTransaction (dinLen supplied : Nat)
  deriving DecidableEq, Repr

/-- The hash context, one shared layout for SHA-256 and SHA-224 (R11). -/
structure HashCtx where
  /-- `H[0..8)`. -/
  h : Vector Word 8
  /-- `partial[0..64)`; only the first `npartial` bytes mean anything. -/
  partialBuf : Vector Byte 64
  npartial : BitVec 7
  /-- Full blocks compressed since INIT, modulo 2^32. -/
  blocks : BitVec 32
  deriving DecidableEq, Repr

/-- The CBC context (R17). -/
structure CbcCtx where
  /-- `cbc_prp`. -/
  prp : Handle
  chain : Bytes
  deriving DecidableEq, Repr

/-- The CTR context (R18). -/
structure CtrCtx where
  /-- `ctr_prp`. -/
  prp : Handle
  nonce : Bytes
  counterOffset : BitVec 12
  counterWidth : BitVec 12
  keymat : Bytes
  /-- The number of bytes of `keymat` not yet consumed. -/
  nkeymat : BitVec 12
  deriving DecidableEq, Repr

/-- One request on the PRP port (R27): handle, direction, block. -/
structure PrpRequest where
  handle : Handle
  dir : Dir
  block : Bytes
  deriving DecidableEq, Repr

/-- The registers a host can read by a register read (R15). -/
inductive ReadReg where
  /-- Register 1. -/
  | status
  /-- Register 4. -/
  | cc
  /-- Register 0, write-only: any value (93 U3). -/
  | cmd
  /-- Register 2, write-only: any value (93 U3). -/
  | din
  deriving DecidableEq, Repr

/-- The registers whose writes are ignored (R15). -/
inductive ReadOnlyReg where
  | status
  | dout
  | cc
  deriving DecidableEq, Repr

/-- What the host does (70_reset_and_hazards.md R146, R152). Log entry 3. -/
inductive HostAction where
  /-- A command transaction: the word written to `CMD` with the bytes of `DIN`. -/
  | command (word : Word) (din : Bytes)
  /-- Reset, asserted between two commands (R140). -/
  | reset
  | readReg (r : ReadReg)
  | writeReg (r : ReadOnlyReg) (v : Word)
  deriving DecidableEq, Repr

/-- What the host has observed (R26, R152). -/
inductive Observation where
  | command (dout : Bytes) (cc : BitVec 8)
  | register (r : ReadReg) (v : Word)
  deriving DecidableEq, Repr

/-- The state (R10, R15), with the instance's configuration and the model's record of the host side. -/
structure State where
  /-- The open parameters of the instance (R6); no step changes them (R22). -/
  cfg : Config
  hash : HashCtx
  cbc : CbcCtx
  ctr : CtrCtx
  /-- `HASH_VALID` (R13). -/
  hashValid : Bool
  /-- `CBC_VALID` (R13). -/
  cbcValid : Bool
  /-- `CTR_VALID` (R13). -/
  ctrValid : Bool
  /-- `HALT` (R14). -/
  halt : Bool
  /-- `FCODE` (R14). -/
  fcode : BitVec 8
  /-- `CC`, the completion code of the most recent command (R15, R123). -/
  cc : BitVec 8
  /-- `DIN`: what is left of the input bytes of the command in progress. -/
  din : Bytes
  /-- `DOUT`: the output bytes of the most recent command. -/
  dout : Bytes
  /-- What the host is still going to do, first action first (R152); the model's own field. -/
  pending : List HostAction
  /-- What the host has observed, oldest first (R26); the model's own field. -/
  observed : List Observation
  /-- The PRP request trace, oldest first (R27); the model's own field. -/
  prpTrace : List PrpRequest
  /-- How many free values of `Config.freeRead` are used up; the model's own field. -/
  freeReads : Nat
  deriving DecidableEq, Repr

/-- The hash context after reset: unspecified by R23; zero is a DESIGN CHOICE, log entry 4. -/
def HashCtx.reset : HashCtx where
  h := Vector.replicate 8 0
  partialBuf := Vector.replicate 64 0
  npartial := 0
  blocks := 0

/-- The CBC context after reset: unspecified by R23; DESIGN CHOICE, log entry 4. -/
def CbcCtx.reset : CbcCtx where
  prp := 0
  chain := []

/-- The CTR context after reset: unspecified by R23; DESIGN CHOICE, log entry 4. -/
def CtrCtx.reset : CtrCtx where
  prp := 0
  nonce := []
  counterOffset := 0
  counterWidth := 0
  keymat := []
  nkeymat := 0

/-- A just-reset instance with the configuration `c` (R23, R140), nothing asked of it and nothing seen of it. -/
def State.resetWith (c : Config) : State where
  cfg := c
  hash := HashCtx.reset
  cbc := CbcCtx.reset
  ctr := CtrCtx.reset
  hashValid := false
  cbcValid := false
  ctrValid := false
  halt := false
  fcode := 0
  cc := 0
  din := []
  dout := []
  pending := []
  observed := []
  prpTrace := []
  freeReads := 0

/-- The machine right after reset (R23), in the installed configuration. Log entries 1 and 4. -/
def State.reset : State := State.resetWith Config.installed

end Sys2Proof.Machine
end

