-- ==== Sys2Proof/Machine/Bytes.lean ====
section
/-! DEFINITION. Byte strings and byte order (00_scope.md R9, 20_memory.md R32): big-endian everywhere. -/

namespace Sys2Proof.Machine

/-- `zeros(n)` (R9). -/
def zeros (n : Nat) : Bytes := List.replicate n 0

/-- `XorBytes(s, t)` (R9). -/
def xorBytes (s t : Bytes) : Bytes := List.zipWith (· ^^^ ·) s t

/-- The big-endian value of a byte string: the lowest index is the most significant (R32). -/
def beValue (s : Bytes) : Nat := s.foldl (fun v b => v * 256 + b.toNat) 0

/-- The `n` bytes of `v`, most significant first (R9's `be64` with `n` in place of 8). -/
def beBytes (n v : Nat) : Bytes := (List.range n).map fun i => BitVec.ofNat 8 (v >>> (8 * (n - 1 - i)))

/-- `BE32(s)` of a 4-byte string (R9). -/
def readBe32 (s : Bytes) : Word := BitVec.ofNat 32 (beValue s)

/-- `be32(w)` (R9). -/
def be32 (w : Word) : Bytes := beBytes 4 w.toNat

/-- `be64(v)` (R9). -/
def be64 (v : Nat) : Bytes := beBytes 8 v

/-- `buf[off .. off+len(bs)) <- bs`; every other byte keeps what it holds (R63). -/
def writeAt {B : Nat} (buf : Vector Byte B) (off : Nat) (bs : Bytes) : Vector Byte B :=
  Vector.ofFn fun i => if off ≤ i.val ∧ i.val < off + bs.length then bs.getD (i.val - off) 0 else buf[i]

/-- `buf[0 .. n)` (R9). -/
def firstBytes {B : Nat} (buf : Vector Byte B) (n : Nat) : Bytes := buf.toList.take n

/-- `BeInc(buf, o, w)`: the window `[o, o+w)` read as a big-endian integer, plus one modulo `256^w`; the bytes outside
it stay (43_ctr.md R106). -/
def beInc (buf : Bytes) (o w : Nat) : Bytes :=
  buf.take o ++ beBytes w ((beValue ((buf.drop o).take w) + 1) % 256 ^ w) ++ buf.drop (o + w)

end Sys2Proof.Machine
end

