-- ==== Sys2Proof/Machine/Flags.lean ====
section
/-! DEFINITION. Fault codes, completion codes and the STATUS word (10_state.md R15, 60_exceptions.md R121, R123). The CORE has
no arithmetic condition codes (R14). -/

namespace Sys2Proof.Machine

/-- The code numbers of R121. -/
def FaultCode.code : FaultCode → BitVec 8
  | .illegal => 0x01
  | .uninit => 0x02
  | .prp => 0x03
  | .acc => 0x04
  | .pad => 0x05
  | .window => 0x06

/-- `CC = OK` (R123). -/
def ccOk : BitVec 8 := 0x00

/-- `CC = HALTED` (R123). -/
def ccHalted : BitVec 8 := 0xFF

/-- One bit of a register. -/
def bit (b : Bool) : BitVec 1 := BitVec.ofBool b

/-- The STATUS word (R15): bit 0 HALT, 1 HASH_VALID, 2 CBC_VALID, 3 CTR_VALID, 15:8 FCODE, the reserved bits 0. -/
def State.status (s : State) : Word :=
  (0 : BitVec 16) ++ s.fcode ++ (0 : BitVec 4) ++ bit s.ctrValid ++ bit s.cbcValid ++ bit s.hashValid ++ bit s.halt

end Sys2Proof.Machine
end

