-- ==== Sys2Proof/Machine/Ops.lean ====
section
/-! DEFINITION. The operations the commands share: raising a fault and reset, the common checks (60_exceptions.md R127), the
data streams (00_scope.md R9, 20_memory.md R43), the PRP port (R7), register reads (10_state.md R15). -/

namespace Sys2Proof.Machine

/-- What a command or a step answers. -/
abbrev Out := Host.Outcome State Fault Refusal

/-- `raise Fault(code)` (R124): HALT, FCODE and CC are written, nothing is delivered, no context is touched; what the host
supplied on `din` is dropped (R43). -/
def State.raiseFault (c : FaultCode) (s : State) : State :=
  { s with halt := true, fcode := c.code, cc := c.code, dout := [], din := [] }

/-- Reset between two commands (70 R140): the state of R23. The configuration stays (R22), and so does the host's own side:
what it is going to do, what it has seen, the PRP's trace. There is no other way out of a fault (R129). Log entry 5. -/
def State.takeReset (s : State) : State :=
  { State.resetWith s.cfg with
    pending := s.pending, observed := s.observed, prpTrace := s.prpTrace, freeReads := s.freeReads }

/-- A command refused because `HALT = 1` (R125): only CC changes, no `dout`, the `din` supplied is dropped. -/
def State.refuseHalted (s : State) : State := { s with cc := ccHalted, dout := [], din := [] }

/-- `complete(OK)` (R9, R123). -/
def State.complete (s : State) : State := { s with cc := ccOk }

/-- Common check 1 (R127): a halted CORE refuses every command. A command that runs begins with an empty `dout`. -/
def whenRunning (s : State) (body : State → Out) : Out :=
  if s.halt then .next s.refuseHalted else body { s with dout := [] }

/-- Common check 3 (R127, R126): the unit's VALID flag. -/
def whenValid (valid : Bool) (s : State) (body : State → Out) : Out :=
  if valid then body s else .next (s.raiseFault .uninit)

/-- The transaction must supply exactly `DinLen` bytes; otherwise it has no step (R43, 93 U14). Log entry 6. -/
def withDin (dinLen : Nat) (s : State) (body : State → Out) : Out :=
  if s.din.length = dinLen then body s else .refused (.malformedTransaction dinLen s.din.length)

/-- `DinTake(n)` (R9). -/
def State.dinTake (n : Nat) (s : State) : Bytes × State := (s.din.take n, { s with din := s.din.drop n })

/-- `DoutPut(b)` (R9). -/
def State.doutPut (b : Bytes) (s : State) : State := { s with dout := s.dout ++ b }

/-- The entry of `PrpTable` a handle names, if any. An entry with `PB = 0` is no PRP: `1 <= PB(h)` (R6). -/
def lookupPrp (c : Config) (h : Handle) : Option Prp :=
  c.prpTable.find? fun p => p.handle == h && decide (1 ≤ p.pb)

/-- The PRP an INIT may bind: in `PrpTable`, and its block fits the buffers (R91, R103). -/
def bindablePrp (c : Config) (h : Handle) : Option Prp :=
  (lookupPrp c h).filter fun p => decide (p.pb ≤ c.pbMax.toNat)

/-- The listed answers of one direction. -/
def prpAnswers (p : Prp) : Dir → List (Bytes × Bytes)
  | .enc => p.encAnswers
  | .dec => p.decAnswers

/-- `PrpTable(h).enc(blk)` or `PrpTable(h).dec(blk)`: `PB` bytes, a function of handle, direction and block (R7). -/
def prpAnswer (p : Prp) (d : Dir) (blk : Bytes) : Bytes :=
  match (prpAnswers p d).find? fun e => e.1 == blk && e.2.length == p.pb with
  | some e => e.2
  | none => (List.range p.pb).map (Config.freePrpByte p.handle d blk)

/-- `PRP(h, dir, blk)`: the answer, the request appended to the trace (R9, R27). -/
def prpRequest (p : Prp) (h : Handle) (d : Dir) (blk : Bytes) (s : State) : Bytes × State :=
  (prpAnswer p d blk, { s with prpTrace := s.prpTrace ++ [⟨h, d, blk⟩] })

/-- An INIT's entry check (R91, R103): `F_PRP` unless the handle can be bound. -/
def whenBindable (h : Handle) (s : State) (body : Prp → Out) : Out :=
  match bindablePrp s.cfg h with
  | some p => body p
  | none => .next (s.raiseFault .prp)

/-- The PRP a VALID context is bound to; 10_state.md R19 (I-P) says it is there. Log entry 7. -/
def withBoundPrp (h : Handle) (s : State) (body : Prp → Out) : Out :=
  match lookupPrp s.cfg h with
  | some p => body p
  | none => .fault (.prpPortSilent h)

/-- A host's register read (R15): STATUS and CC as they are, without side effect (R35); a write-only register gives any
value (93 U3, log entry 11). -/
def State.readRegister (r : ReadReg) (s : State) : State :=
  match r with
  | .status => { s with observed := s.observed ++ [.register .status s.status] }
  | .cc => { s with observed := s.observed ++ [.register .cc (s.cc.setWidth 32)] }
  | .cmd => { s with observed := s.observed ++ [.register .cmd (Config.freeRead s.freeReads)], freeReads := s.freeReads + 1 }
  | .din =>
    { s with
      observed := s.observed ++ [.register .din (((Config.freeRead s.freeReads).setWidth 8).setWidth 32)]
      freeReads := s.freeReads + 1 }

/-- A host's write to a read-only register is ignored (R15). -/
def State.writeRegister (_r : ReadOnlyReg) (_v : Word) (s : State) : State := s

/-- What the host receives when a command completes: its `dout` and its `CC` (R26). -/
def State.recordCommand (s : State) : State := { s with observed := s.observed ++ [.command s.dout s.cc] }

/-- An operation on the next state, if there is one. -/
def mapNext (f : State → State) : Out → Out
  | .next s => .next (f s)
  | .fault r => .fault r
  | .refused r => .refused r

end Sys2Proof.Machine
end

