-- ==== Sys2Proof/Machine/Cbc.lean ====
section
/-! DEFINITION. The CBC mode engine (42_cbc.md): it works on whole blocks, one PRP request each, and embeds no accumulator
(90 C6). -/

namespace Sys2Proof.Machine

/-- One block of `CBC.ENCRYPT` (R92). -/
def cbcEncryptBlock (p : Prp) (s : State) : State :=
  let (plain, s) := s.dinTake p.pb
  let tmp := xorBytes plain s.cbc.chain
  let (c, s) := prpRequest p s.cbc.prp .enc tmp s
  let s := s.doutPut c
  { s with cbc := { s.cbc with chain := c } }

/-- One block of `CBC.DECRYPT` (R93): the chain takes the input ciphertext block. -/
def cbcDecryptBlock (p : Prp) (s : State) : State :=
  let (c, s) := s.dinTake p.pb
  let (tmp, s) := prpRequest p s.cbc.prp .dec c s
  let s := s.doutPut (xorBytes tmp s.cbc.chain)
  { s with cbc := { s.cbc with chain := c } }

/-- A loop over `n` blocks, in order. -/
def repeatBlocks (block : State → State) : Nat → State → State
  | 0, s => s
  | n + 1, s => repeatBlocks block n (block s)

/-- The common shape of `CBC.ENCRYPT` and `CBC.DECRYPT` (R92, R93): `DinLen = n_blocks * PB(cbc_prp)`. -/
def cbcBlocks (block : Prp → State → State) (nBlocks : Nat) (s : State) : Out :=
  whenRunning s fun s => whenValid s.cbcValid s fun s => withBoundPrp s.cbc.prp s fun p =>
    withDin (nBlocks * p.pb) s fun s => .next (repeatBlocks (block p) nBlocks s).complete

/-- `CBC.INIT prp=handle` (R91). -/
def execCbcInit (handle : Handle) (s : State) : Out :=
  whenRunning s fun s => whenBindable handle s fun p => withDin p.pb s fun s =>
    let (iv, s) := s.dinTake p.pb
    .next { s with cbc := { prp := handle, chain := iv }, cbcValid := true }.complete

/-- `CBC.ENCRYPT n_blocks` (R92). -/
def execCbcEncrypt (nBlocks : Nat) (s : State) : Out := cbcBlocks cbcEncryptBlock nBlocks s

/-- `CBC.DECRYPT n_blocks` (R93). -/
def execCbcDecrypt (nBlocks : Nat) (s : State) : Out := cbcBlocks cbcDecryptBlock nBlocks s

end Sys2Proof.Machine
end

