-- ==== Sys2Proof/Machine/Accumulator.lean ====
section
/-! DEFINITION. The Block Accumulator (40_accumulator.md): feed mode `AccFeed` and XOR mode `AccXor`. Both answer `none` where
the entry check raises `F_ACC` (R61, R66). -/

namespace Sys2Proof.Machine

/-- What feed mode reads and writes: the buffer, its fill count, and the context of its user (R60, R63). -/
structure Feed (B : Nat) (σ : Type) where
  buf : Vector Byte B
  n : Nat
  ctx : σ

/-- Append `bs` to the buffered bytes and, if that fills the block, process it (phases 1 and 3 of R63). -/
def feedAppend {B : Nat} {σ : Type} (process : σ → Bytes → σ) (bs : Bytes) (f : Feed B σ) : Feed B σ :=
  let buf := writeAt f.buf f.n bs
  let n := f.n + bs.length
  if n = B then ⟨buf, 0, process f.ctx (firstBytes buf B)⟩ else ⟨buf, n, f.ctx⟩

/-- Phase 1 of R63: top up a partial block. Answers the rest of the input. -/
def feedTopUp {B : Nat} {σ : Type} (process : σ → Bytes → σ) (input : Bytes) (f : Feed B σ) : Feed B σ × Bytes :=
  if 0 < f.n then
    let k := min (B - f.n) input.length
    (feedAppend process (input.take k) f, input.drop k)
  else (f, input)

/-- Phase 2 of R63: the next `count` whole blocks straight from the input; the buffer is not touched. -/
def feedBlocks {σ : Type} (B : Nat) (process : σ → Bytes → σ) : Nat → Bytes → σ → σ × Bytes
  | 0, input, c => (c, input)
  | count + 1, input, c => feedBlocks B process count (input.drop B) (process c (input.take B))

/-- Phase 3 of R63: keep the tail. Its last clause (a tail that completes a block) is dead, R69. -/
def feedTail {B : Nat} {σ : Type} (process : σ → Bytes → σ) (input : Bytes) (f : Feed B σ) : Feed B σ :=
  if 0 < input.length then feedAppend process input f else f

/-- `AccFeed(B, partial, npartial, input, process_block)` (R63), `none` for `F_ACC` (R61). -/
def accFeed {B : Nat} {σ : Type} (process : σ → Bytes → σ) (input : Bytes) (f : Feed B σ) : Option (Feed B σ) :=
  if B ≤ f.n then none
  else
    let (f1, rest1) := feedTopUp process input f
    let (ctx2, rest2) := feedBlocks B process (rest1.length / B) rest1 f1.ctx
    some (feedTail process rest2 { f1 with ctx := ctx2 })

/-- What XOR mode reads and writes: the reservoir, its count of unconsumed bytes, and the context of its user (R65). -/
structure Reservoir (σ : Type) where
  keymat : Bytes
  n : Nat
  ctx : σ

/-- The lazy refill of R65: a block is made only when a byte is needed and none is left. -/
def refill {σ : Type} (B : Nat) (makeBlock : σ → Bytes × σ) (r : Reservoir σ) : Reservoir σ :=
  if r.n = 0 then
    let (k, c) := makeBlock r.ctx
    ⟨k, B, c⟩
  else r

/-- The byte loop of R65: the next byte used is `keymat[B - nkeymat]`. -/
def xorBytewise {σ : Type} (B : Nat) (makeBlock : σ → Bytes × σ) : Bytes → Reservoir σ → Bytes × Reservoir σ
  | [], r => ([], r)
  | x :: input, r =>
    let r1 := refill B makeBlock r
    let (out, r2) := xorBytewise B makeBlock input { r1 with n := r1.n - 1 }
    ((x ^^^ r1.keymat.getD (B - r1.n) 0) :: out, r2)

/-- `AccXor(B, keymat, nkeymat, input, make_block)` (R65), `none` for `F_ACC` (R66). -/
def accXor {σ : Type} (B : Nat) (makeBlock : σ → Bytes × σ) (input : Bytes) (r : Reservoir σ) :
    Option (Bytes × Reservoir σ) :=
  if B ≤ r.n then none else some (xorBytewise B makeBlock input r)

end Sys2Proof.Machine
end

