-- ==== Sys2Proof/Machine/Ctr.lean ====
section
/-! DEFINITION. The CTR mode engine (43_ctr.md): a counter confined to a window of the nonce block and a keystream reservoir. -/

namespace Sys2Proof.Machine

/-- `KeystreamBlock()` (R105): encrypt the counter block, then advance it inside the window in force (R106). -/
def keystreamBlock (p : Prp) (s : State) : Bytes × State :=
  let (k, s) := prpRequest p s.ctr.prp .enc s.ctr.nonce s
  let nonce := beInc s.ctr.nonce s.ctr.counterOffset.toNat s.ctr.counterWidth.toNat
  (k, { s with ctr := { s.ctr with nonce := nonce } })

/-- The window check of R104, without wrap (90 C3, 92 D10). -/
def windowFits (pb offset width : Nat) : Bool := decide (offset + width ≤ pb)

/-- `CTR.INIT prp=handle` (R103); `keymat` is not written. -/
def execCtrInit (handle : Handle) (s : State) : Out :=
  whenRunning s fun s => whenBindable handle s fun p => withDin p.pb s fun s =>
    let (n, s) := s.dinTake p.pb
    .next
      { s with
        ctr :=
          { s.ctr with
            prp := handle, nonce := n, counterOffset := 0, counterWidth := BitVec.ofNat 12 p.pb, nkeymat := 0 }
        ctrValid := true }.complete

/-- `CTR.CIPHER n_bytes` (R107): `F_ACC` is raised before any byte is consumed (R66). -/
def execCtrCipher (nBytes : Nat) (s : State) : Out :=
  whenRunning s fun s => whenValid s.ctrValid s fun s => withBoundPrp s.ctr.prp s fun p =>
    match accXor p.pb (keystreamBlock p) s.din (Reservoir.mk s.ctr.keymat s.ctr.nkeymat.toNat s) with
    | none => .next (s.raiseFault .acc)
    | some (out, r) => withDin nBytes s fun _ =>
      let s := (r.ctx.dinTake nBytes).2.doutPut out
      .next { s with ctr := { s.ctr with keymat := r.keymat, nkeymat := BitVec.ofNat 12 r.n } }.complete

/-- `CTR.CUSTOM off=offset, width=width` (R104). -/
def execCtrCustom (offset width : Nat) (s : State) : Out :=
  whenRunning s fun s => whenValid s.ctrValid s fun s => withBoundPrp s.ctr.prp s fun p =>
    if windowFits p.pb offset width then
      withDin 0 s fun s =>
        .next
          { s with
            ctr := { s.ctr with counterOffset := BitVec.ofNat 12 offset, counterWidth := BitVec.ofNat 12 width } }.complete
    else .next (s.raiseFault .window)

/-- `CTR.DISCARD` (R108). -/
def execCtrDiscard (s : State) : Out :=
  whenRunning s fun s => whenValid s.ctrValid s fun s => withDin 0 s fun s =>
    .next { s with ctr := { s.ctr with nkeymat := 0 } }.complete

end Sys2Proof.Machine
end

