-- ==== Sys2Proof/Syntax.lean ====
section
/-! DEFINITION. The 13 commands of 30_encoding.md R52, one constructor each. -/

namespace Sys2Proof

/-- The command set, version 1 (R45, R52), with the operands of R51. Counts and window fields are numbers; that they fit
their fields of the command word is checked by `Instr.wf`. -/
inductive Instr where
  /-- `SHA256.INIT` (R76). -/
  | sha256Init
  /-- `SHA256.UPDATE nbytes` (R78). -/
  | sha256Update (nbytes : Nat)
  /-- `SHA256.FINAL` (R82). -/
  | sha256Final
  /-- `SHA224.INIT` (R77). -/
  | sha224Init
  /-- `SHA224.UPDATE nbytes` (R79). -/
  | sha224Update (nbytes : Nat)
  /-- `SHA224.FINAL` (R83). -/
  | sha224Final
  /-- `CBC.INIT prp=handle` (R91). -/
  | cbcInit (handle : Handle)
  /-- `CBC.ENCRYPT n_blocks` (R92). -/
  | cbcEncrypt (nBlocks : Nat)
  /-- `CBC.DECRYPT n_blocks` (R93). -/
  | cbcDecrypt (nBlocks : Nat)
  /-- `CTR.INIT prp=handle` (R103). -/
  | ctrInit (handle : Handle)
  /-- `CTR.CIPHER n_bytes` (R107). -/
  | ctrCipher (nBytes : Nat)
  /-- `CTR.CUSTOM off=offset, width=width` (R104). -/
  | ctrCustom (offset width : Nat)
  /-- `CTR.DISCARD` (R108). -/
  | ctrDiscard
  deriving DecidableEq, Repr

/-- The two rows of the hash descriptor table (10_state.md R16), selected by the variant bit `V` (R48). -/
inductive Variant where
  | sha256
  | sha224
  deriving DecidableEq, Repr

end Sys2Proof
end

