-- ==== Sys2Proof/Machine/Hash.lean ====
section
/-! DEFINITION. The SHA-256/SHA-224 engine (41_sha256_224.md) and its six commands. The constants, the mixing functions and
the round body are the spec's general-knowledge passages G1 to G4 (PRESUMED, log entry 14). -/

namespace Sys2Proof.Machine

/-- `IV256` (R71). -/
def iv256 : Vector Word 8 :=
  #v[0x6a09e667, 0xbb67ae85, 0x3c6ef372, 0xa54ff53a, 0x510e527f, 0x9b05688c, 0x1f83d9ab, 0x5be0cd19]

/-- `IV224` (R71). -/
def iv224 : Vector Word 8 :=
  #v[0xc1059ed8, 0x367cd507, 0x3070dd17, 0xf70e5939, 0xffc00b31, 0x68581511, 0x64f98fa7, 0xbefa4fa4]

/-- `K[0..64)`, one row of R72 a line. -/
def roundConstants : List Word :=
  [0x428a2f98, 0x71374491, 0xb5c0fbcf, 0xe9b5dba5, 0x3956c25b, 0x59f111f1, 0x923f82a4, 0xab1c5ed5] ++
  [0xd807aa98, 0x12835b01, 0x243185be, 0x550c7dc3, 0x72be5d74, 0x80deb1fe, 0x9bdc06a7, 0xc19bf174] ++
  [0xe49b69c1, 0xefbe4786, 0x0fc19dc6, 0x240ca1cc, 0x2de92c6f, 0x4a7484aa, 0x5cb0a9dc, 0x76f988da] ++
  [0x983e5152, 0xa831c66d, 0xb00327c8, 0xbf597fc7, 0xc6e00bf3, 0xd5a79147, 0x06ca6351, 0x14292967] ++
  [0x27b70a85, 0x2e1b2138, 0x4d2c6dfc, 0x53380d13, 0x650a7354, 0x766a0abb, 0x81c2c92e, 0x92722c85] ++
  [0xa2bfe8a1, 0xa81a664b, 0xc24b8b70, 0xc76c51a3, 0xd192e819, 0xd6990624, 0xf40e3585, 0x106aa070] ++
  [0x19a4c116, 0x1e376c08, 0x2748774c, 0x34b0bcb5, 0x391c0cb3, 0x4ed8aa4a, 0x5b9cca4f, 0x682e6ff3] ++
  [0x748f82ee, 0x78a5636f, 0x84c87814, 0x8cc70208, 0x90befffa, 0xa4506ceb, 0xbef9a3f7, 0xc67178f2]

/-- `ROTR(n, x)` for `0 < n < 32` (R9). -/
def rotr (n : Nat) (x : Word) : Word := (x >>> n) ||| (x <<< (32 - n))

/-- `SHR(n, x)` (R9). -/
def shr (n : Nat) (x : Word) : Word := x >>> n

/-- `Ch` (R73). -/
def ch (x y z : Word) : Word := (x &&& y) ^^^ (~~~x &&& z)

/-- `Maj` (R73). -/
def maj (x y z : Word) : Word := (x &&& y) ^^^ (x &&& z) ^^^ (y &&& z)

/-- `Σ0` (R73). -/
def bigSigma0 (x : Word) : Word := rotr 2 x ^^^ rotr 13 x ^^^ rotr 22 x

/-- `Σ1` (R73). -/
def bigSigma1 (x : Word) : Word := rotr 6 x ^^^ rotr 11 x ^^^ rotr 25 x

/-- `σ0` (R73). -/
def smallSigma0 (x : Word) : Word := rotr 7 x ^^^ rotr 18 x ^^^ shr 3 x

/-- `σ1` (R73). -/
def smallSigma1 (x : Word) : Word := rotr 17 x ^^^ rotr 19 x ^^^ shr 10 x

/-- The next schedule word from the words so far: `t` is their number (R74 step 1, `t >= 16`). -/
def nextScheduleWord (w : List Word) : Word :=
  let t := w.length
  smallSigma1 (w.getD (t - 2) 0) + w.getD (t - 7) 0 + smallSigma0 (w.getD (t - 15) 0) + w.getD (t - 16) 0

/-- The first schedule words followed by `count` more. -/
def extendSchedule : Nat → List Word → List Word
  | 0, w => w
  | count + 1, w => extendSchedule count (w ++ [nextScheduleWord w])

/-- The 16 words of a block, `W[t] = BE32(block[4t .. 4t+4))` (R32 item 1, R74). -/
def blockWords (blk : Bytes) : List Word := (List.range 16).map fun t => readBe32 ((blk.drop (4 * t)).take 4)

/-- `W[0..64)` (R74 step 1). -/
def messageSchedule (blk : Bytes) : List Word := extendSchedule 48 (blockWords blk)

/-- The working variables (R20, R74). -/
structure Work where
  (a b c d e f g h : Word)
  deriving DecidableEq, Repr

/-- One round (R74 step 2). -/
def compressRound (v : Work) (k w : Word) : Work :=
  let t1 := v.h + bigSigma1 v.e + ch v.e v.f v.g + k + w
  let t2 := bigSigma0 v.a + maj v.a v.b v.c
  { a := t1 + t2, b := v.a, c := v.b, d := v.c, e := v.d + t1, f := v.e, g := v.f, h := v.g }

/-- The rounds in order, one for each pair `(K[t], W[t])`. -/
def compressRounds : List (Word × Word) → Work → Work
  | [], v => v
  | (k, w) :: rest, v => compressRounds rest (compressRound v k w)

/-- `Compress(Hin, blk)` (R74). -/
def compress (h : Vector Word 8) (blk : Bytes) : Vector Word 8 :=
  let v := compressRounds (roundConstants.zip (messageSchedule blk))
    { a := h[0], b := h[1], c := h[2], d := h[3], e := h[4], f := h[5], g := h[6], h := h[7] }
  #v[h[0] + v.a, h[1] + v.b, h[2] + v.c, h[3] + v.d, h[4] + v.e, h[5] + v.f, h[6] + v.g, h[7] + v.h]

/-- `HashBlock(ctx, blk)` (R75); `blocks` wraps modulo 2^32 (R89). -/
def hashBlock (c : HashCtx) (blk : Bytes) : HashCtx := { c with h := compress c.h blk, blocks := c.blocks + 1 }

/-- `AccFeed` on a hash context, live or shadow, with `HashBlock` as the callback (R78, R80). -/
def hashFeed (input : Bytes) (c : HashCtx) : Option HashCtx :=
  (accFeed hashBlock input (Feed.mk c.partialBuf c.npartial.toNat c)).map fun f =>
    { f.ctx with partialBuf := f.buf, npartial := BitVec.ofNat 7 f.n }

/-- A row of the hash descriptor table (10_state.md R16), a ROM: sizes in bytes, the initial vector, the entry points. -/
structure HashDescriptor where
  hashsz : Nat
  ctxsz : Nat
  blocksz : Nat
  iv : Vector Word 8
  init : Instr
  update : Nat → Instr
  final : Instr

/-- The hash descriptor table (R16). -/
def hashDescriptor : Variant → HashDescriptor
  | .sha256 =>
    { hashsz := 32, ctxsz := 104, blocksz := 64, iv := iv256,
      init := .sha256Init, update := .sha256Update, final := .sha256Final }
  | .sha224 =>
    { hashsz := 28, ctxsz := 104, blocksz := 64, iv := iv224,
      init := .sha224Init, update := .sha224Update, final := .sha224Final }

/-- `PadZeroes(n)` (R81). -/
def padZeroes (rule : PadRule) (n : Nat) : Nat :=
  match rule with
  | .literal => 64 - (n + 9) % 64
  | .minimal => (64 - (n + 9) % 64) % 64

/-- `digested_bytes` of a context, exact (R80, 92 D8). -/
def digestedBytes (c : HashCtx) : Nat := c.blocks.toNat * 64 + c.npartial.toNat

/-- `be32(H[0]) ++ ... ++ be32(H[7])` (R32 item 3). -/
def digestBytes (h : Vector Word 8) : Bytes := h.toList.flatMap be32

/-- The three padding updates of R80 on the shadow. -/
def padShadow (rule : PadRule) (c : HashCtx) : Option HashCtx :=
  let n := digestedBytes c
  (hashFeed [0x80] c).bind fun c1 =>
  (hashFeed (zeros (padZeroes rule n)) c1).bind fun c2 =>
  hashFeed (be64 (n * 8)) c2

/-- `HashFinalCore()` (R80) on a copy of the context: 32 bytes, or the fault it raises. -/
def hashFinalCore (rule : PadRule) (c : HashCtx) : Except FaultCode Bytes :=
  match padShadow rule c with
  | none => .error .acc
  | some shadow => if shadow.npartial ≠ 0 then .error .pad else .ok (digestBytes shadow.h)

/-- INIT of a variant (R76, R77): the initial vector, empty buffer and counts, `HASH_VALID`. -/
def hashInit (v : Variant) (s : State) : Out :=
  whenRunning s fun s => withDin 0 s fun s =>
    .next
      { s with
        hash := { h := (hashDescriptor v).iv, partialBuf := Vector.replicate 64 0, npartial := 0, blocks := 0 }
        hashValid := true }.complete

/-- UPDATE (R78, R79): `F_ACC` is raised before any byte is consumed (R61). The variant selects nothing (R87). -/
def hashUpdate (nbytes : Nat) (s : State) : Out :=
  whenRunning s fun s => whenValid s.hashValid s fun s =>
    match hashFeed s.din s.hash with
    | none => .next (s.raiseFault .acc)
    | some c => withDin nbytes s fun s => .next { (s.dinTake nbytes).2 with hash := c }.complete

/-- FINAL of a variant (R82, R83): the first `hashsz` bytes of the finalisation of a copy; the live context stays. -/
def hashFinal (v : Variant) (s : State) : Out :=
  whenRunning s fun s => whenValid s.hashValid s fun s =>
    match hashFinalCore s.cfg.padRule s.hash with
    | .error f => .next (s.raiseFault f)
    | .ok d => withDin 0 s fun s => .next (s.doutPut (d.take (hashDescriptor v).hashsz)).complete

/-- `SHA256.INIT` (R76). -/
def execSha256Init (s : State) : Out := hashInit .sha256 s

/-- `SHA256.UPDATE nbytes` (R78). -/
def execSha256Update (nbytes : Nat) (s : State) : Out := hashUpdate nbytes s

/-- `SHA256.FINAL` (R82). -/
def execSha256Final (s : State) : Out := hashFinal .sha256 s

/-- `SHA224.INIT` (R77). -/
def execSha224Init (s : State) : Out := hashInit .sha224 s

/-- `SHA224.UPDATE nbytes` (R79). -/
def execSha224Update (nbytes : Nat) (s : State) : Out := hashUpdate nbytes s

/-- `SHA224.FINAL` (R83). -/
def execSha224Final (s : State) : Out := hashFinal .sha224 s

end Sys2Proof.Machine
end

