-- ==== Sys2Proof/WellFormed.lean ====
section
/-! DEFINITION. Which commands the encoding can express (30_encoding.md R51): counts below 2^24, window fields below 2^12. -/

namespace Sys2Proof

/-- The operand ranges of R51. -/
def Instr.wf : Instr → Bool
  | .sha256Init => true
  | .sha256Update n => decide (n < 2 ^ 24)
  | .sha256Final => true
  | .sha224Init => true
  | .sha224Update n => decide (n < 2 ^ 24)
  | .sha224Final => true
  | .cbcInit _ => true
  | .cbcEncrypt n => decide (n < 2 ^ 24)
  | .cbcDecrypt n => decide (n < 2 ^ 24)
  | .ctrInit _ => true
  | .ctrCipher n => decide (n < 2 ^ 24)
  | .ctrCustom o w => decide (o < 2 ^ 12) && decide (w < 2 ^ 12)
  | .ctrDiscard => true

end Sys2Proof
end

