-- ==== Sys2Proof/Decode.lean ====
section
/-! DEFINITION. The decoder (30_encoding.md R57), total on 32-bit words, the encoder and the opcode table (R52). -/

namespace Sys2Proof

/-- Why a word is illegal (R53). -/
inductive DecodeReject where
  /-- `UNIT` is `0x0` or `0x4` to `0xF`. -/
  | reservedUnit
  /-- The unit has no operation with this `OP`. -/
  | reservedOp
  /-- A must-be-zero `ARG` is not zero. -/
  | argNotZero
  deriving DecidableEq, Repr

/-- `UNIT = cmd[31:28]` (R46). -/
def unitField (w : Word) : BitVec 4 := w.extractLsb' 28 4

/-- `OP = cmd[27:24]` (R46). -/
def opField (w : Word) : BitVec 4 := w.extractLsb' 24 4

/-- `ARG = cmd[23:0]` (R46). -/
def argField (w : Word) : BitVec 24 := w.extractLsb' 0 24

/-- A command without operand: its `ARG` must be 0 (R51, R53). -/
def noOperand (arg : BitVec 24) (i : Instr) : Except DecodeReject Instr :=
  if arg = 0 then .ok i else .error .argNotZero

/-- The hash unit's operations (R48): `V = OP[3]` selects the variant, `FN = OP[2:0]` the function. -/
def decodeHash (op : BitVec 4) (arg : BitVec 24) : Except DecodeReject Instr :=
  let v := op.getLsbD 3
  match (op.extractLsb' 0 3).toNat with
  | 0 => noOperand arg (if v then .sha224Init else .sha256Init)
  | 1 => .ok (if v then .sha224Update arg.toNat else .sha256Update arg.toNat)
  | 2 => noOperand arg (if v then .sha224Final else .sha256Final)
  | _ => .error .reservedOp

/-- The CBC unit's operations (R49). -/
def decodeCbc (op : BitVec 4) (arg : BitVec 24) : Except DecodeReject Instr :=
  match op.toNat with
  | 0 => .ok (.cbcInit arg)
  | 1 => .ok (.cbcEncrypt arg.toNat)
  | 2 => .ok (.cbcDecrypt arg.toNat)
  | _ => .error .reservedOp

/-- The CTR unit's operations (R50); `CTR.CUSTOM` splits `ARG` into two 12-bit fields (R51). -/
def decodeCtr (op : BitVec 4) (arg : BitVec 24) : Except DecodeReject Instr :=
  match op.toNat with
  | 0 => .ok (.ctrInit arg)
  | 1 => .ok (.ctrCipher arg.toNat)
  | 2 => .ok (.ctrCustom (arg.extractLsb' 12 12).toNat (arg.extractLsb' 0 12).toNat)
  | 3 => noOperand arg .ctrDiscard
  | _ => .error .reservedOp

/-- The decoder of R57. -/
def decode (w : Word) : Except DecodeReject Instr :=
  match (unitField w).toNat with
  | 1 => decodeHash (opField w) (argField w)
  | 2 => decodeCbc (opField w) (argField w)
  | 3 => decodeCtr (opField w) (argField w)
  | _ => .error .reservedUnit

/-- Format `C`: `UNIT`, `OP` and `ARG` side by side (R46). -/
def commandWord (unit op : BitVec 4) (arg : BitVec 24) : Word := unit ++ op ++ arg

/-- The word of a command, from the `UNIT`, `OP` and `ARG` columns of R47 to R52. -/
def encode : Instr → Word
  | .sha256Init => commandWord 0x1 0x0 0
  | .sha256Update n => commandWord 0x1 0x1 (BitVec.ofNat 24 n)
  | .sha256Final => commandWord 0x1 0x2 0
  | .sha224Init => commandWord 0x1 0x8 0
  | .sha224Update n => commandWord 0x1 0x9 (BitVec.ofNat 24 n)
  | .sha224Final => commandWord 0x1 0xA 0
  | .cbcInit h => commandWord 0x2 0x0 h
  | .cbcEncrypt n => commandWord 0x2 0x1 (BitVec.ofNat 24 n)
  | .cbcDecrypt n => commandWord 0x2 0x2 (BitVec.ofNat 24 n)
  | .ctrInit h => commandWord 0x3 0x0 h
  | .ctrCipher n => commandWord 0x3 0x1 (BitVec.ofNat 24 n)
  | .ctrCustom o w => commandWord 0x3 0x2 (BitVec.ofNat 12 o ++ BitVec.ofNat 12 w)
  | .ctrDiscard => commandWord 0x3 0x3 0

/-- The instruction the decoder reads from the word `w` of `nbits` bits (all bits above them 0). -/
def decodeTableWord (nbits w : Nat) : Option Instr :=
  if nbits ≤ 32 then (decode (BitVec.ofNat 32 (w % 2 ^ nbits))).toOption else none

/-- The names of the 13 rows of the opcode map (R52). -/
inductive Mnemonic where
  | sha256Init | sha256Update | sha256Final
  | sha224Init | sha224Update | sha224Final
  | cbcInit | cbcEncrypt | cbcDecrypt
  | ctrInit | ctrCipher | ctrCustom | ctrDiscard
  deriving DecidableEq, Repr

/-- The row a command belongs to. -/
def Instr.mnemonic : Instr → Mnemonic
  | .sha256Init => .sha256Init
  | .sha256Update _ => .sha256Update
  | .sha256Final => .sha256Final
  | .sha224Init => .sha224Init
  | .sha224Update _ => .sha224Update
  | .sha224Final => .sha224Final
  | .cbcInit _ => .cbcInit
  | .cbcEncrypt _ => .cbcEncrypt
  | .cbcDecrypt _ => .cbcDecrypt
  | .ctrInit _ => .ctrInit
  | .ctrCipher _ => .ctrCipher
  | .ctrCustom _ _ => .ctrCustom
  | .ctrDiscard => .ctrDiscard

/-- The row's name as R52 spells it (trace syntax of R55). -/
def Mnemonic.name : Mnemonic → String
  | .sha256Init => "SHA256.INIT"
  | .sha256Update => "SHA256.UPDATE"
  | .sha256Final => "SHA256.FINAL"
  | .sha224Init => "SHA224.INIT"
  | .sha224Update => "SHA224.UPDATE"
  | .sha224Final => "SHA224.FINAL"
  | .cbcInit => "CBC.INIT"
  | .cbcEncrypt => "CBC.ENCRYPT"
  | .cbcDecrypt => "CBC.DECRYPT"
  | .ctrInit => "CTR.INIT"
  | .ctrCipher => "CTR.CIPHER"
  | .ctrCustom => "CTR.CUSTOM"
  | .ctrDiscard => "CTR.DISCARD"

/-- One row of the opcode map: a word selects it when `(cmd and mask) = match` (R52). -/
structure OpcodeRow where
  mnemonic : Mnemonic
  pattern : Word
  mask : Word
  deriving DecidableEq, Repr

/-- The opcode map of R52, in its order. -/
def opcodeTable : List OpcodeRow :=
  [⟨.sha256Init, 0x10000000, 0xFFFFFFFF⟩,
   ⟨.sha256Update, 0x11000000, 0xFF000000⟩,
   ⟨.sha256Final, 0x12000000, 0xFFFFFFFF⟩,
   ⟨.sha224Init, 0x18000000, 0xFFFFFFFF⟩,
   ⟨.sha224Update, 0x19000000, 0xFF000000⟩,
   ⟨.sha224Final, 0x1A000000, 0xFFFFFFFF⟩,
   ⟨.cbcInit, 0x20000000, 0xFF000000⟩,
   ⟨.cbcEncrypt, 0x21000000, 0xFF000000⟩,
   ⟨.cbcDecrypt, 0x22000000, 0xFF000000⟩,
   ⟨.ctrInit, 0x30000000, 0xFF000000⟩,
   ⟨.ctrCipher, 0x31000000, 0xFF000000⟩,
   ⟨.ctrCustom, 0x32000000, 0xFF000000⟩,
   ⟨.ctrDiscard, 0x33000000, 0xFFFFFFFF⟩]

/-- The word selects the row (R52). -/
def OpcodeRow.selects (r : OpcodeRow) (w : Word) : Bool := w &&& r.mask == r.pattern

end Sys2Proof
end

