-- ==== Sys2Proof/Machine/Operands.lean ====
section
/-! DEFINITION. The stream lengths of each command (20_memory.md R43), which follow from the command and the state. The
operands of the command word are read by the decoder (30_encoding.md R51). -/

namespace Sys2Proof.Machine

/-- `PB(h)`, 0 where the handle names no PRP (then every command that would use it stops before it takes `din`). -/
def blockSize (c : Config) (h : Handle) : Nat :=
  match lookupPrp c h with
  | some p => p.pb
  | none => 0

/-- `DinLen` (R43). -/
def dinLen (s : State) : Instr → Nat
  | .sha256Init => 0
  | .sha256Update n => n
  | .sha256Final => 0
  | .sha224Init => 0
  | .sha224Update n => n
  | .sha224Final => 0
  | .cbcInit h => blockSize s.cfg h
  | .cbcEncrypt n => n * blockSize s.cfg s.cbc.prp
  | .cbcDecrypt n => n * blockSize s.cfg s.cbc.prp
  | .ctrInit h => blockSize s.cfg h
  | .ctrCipher n => n
  | .ctrCustom _ _ => 0
  | .ctrDiscard => 0

/-- `DoutLen` of a command that completes with `CC = OK` (R43). -/
def doutLen (s : State) : Instr → Nat
  | .sha256Init => 0
  | .sha256Update _ => 0
  | .sha256Final => (hashDescriptor .sha256).hashsz
  | .sha224Init => 0
  | .sha224Update _ => 0
  | .sha224Final => (hashDescriptor .sha224).hashsz
  | .cbcInit _ => 0
  | .cbcEncrypt n => n * blockSize s.cfg s.cbc.prp
  | .cbcDecrypt n => n * blockSize s.cfg s.cbc.prp
  | .ctrInit _ => 0
  | .ctrCipher n => n
  | .ctrCustom _ _ => 0
  | .ctrDiscard => 0

/-- `DinLen` of a command word; an illegal word takes no `din`. -/
def dinLenOfWord (s : State) (w : Word) : Nat :=
  match decode w with
  | .ok i => dinLen s i
  | .error _ => 0

end Sys2Proof.Machine
end

