-- ==== Sys2Proof/Machine/Dispatch.lean ====
section
/-! DEFINITION. One arm for each command of the opcode map (30_encoding.md R52). -/

namespace Sys2Proof.Machine

def exec (i : Instr) (s : State) : Host.Outcome State Fault Refusal :=
  match i with
  | .sha256Init => Sys2Proof.Machine.execSha256Init s
  | .sha256Update nbytes => Sys2Proof.Machine.execSha256Update nbytes s
  | .sha256Final => Sys2Proof.Machine.execSha256Final s
  | .sha224Init => Sys2Proof.Machine.execSha224Init s
  | .sha224Update nbytes => Sys2Proof.Machine.execSha224Update nbytes s
  | .sha224Final => Sys2Proof.Machine.execSha224Final s
  | .cbcInit handle => Sys2Proof.Machine.execCbcInit handle s
  | .cbcEncrypt nBlocks => Sys2Proof.Machine.execCbcEncrypt nBlocks s
  | .cbcDecrypt nBlocks => Sys2Proof.Machine.execCbcDecrypt nBlocks s
  | .ctrInit handle => Sys2Proof.Machine.execCtrInit handle s
  | .ctrCipher nBytes => Sys2Proof.Machine.execCtrCipher nBytes s
  | .ctrCustom offset width => Sys2Proof.Machine.execCtrCustom offset width s
  | .ctrDiscard => Sys2Proof.Machine.execCtrDiscard s

end Sys2Proof.Machine
end

