-- ==== Sys2Proof/Machine/Step.lean ====
section
/-! DEFINITION. One step: the CORE serves the host's next action (70_reset_and_hazards.md R152). There is no program counter
(10_state.md R12): the next command is the first one the host has pending. Log entry 3. -/

namespace Sys2Proof.Machine

/-- A command transaction on the state that holds its `din`: decode, then run; an illegal word faults (R127). -/
def runCommand (w : Word) (s : State) : Out :=
  match decode w with
  | .ok i => exec i s
  | .error _ => whenRunning s fun s => .next (s.raiseFault .illegal)

/-- Serve the host's next action. With none pending the CORE is idle and holds its state (60_exceptions.md R138, log
entry 8). -/
def step (s : State) : Host.Outcome State Fault Refusal :=
  match s.pending with
  | [] => .next s
  | .command w input :: rest => mapNext State.recordCommand (runCommand w { s with pending := rest, din := input })
  | .reset :: rest => .next { s with pending := rest }.takeReset
  | .readReg r :: rest => .next ({ s with pending := rest }.readRegister r)
  | .writeReg r v :: rest => .next ({ s with pending := rest }.writeRegister r v)

/-- The state with the command word `w` as the host's next action, with as many zero bytes of `din` as the command takes.
Log entry 9. -/
def State.withFetchWord (s : State) (nbits w : Nat) : State :=
  let word := BitVec.ofNat 32 (w % 2 ^ nbits)
  { s with pending := .command word (zeros (dinLenOfWord s word)) :: s.pending }

end Sys2Proof.Machine
end

