-- ==== Sys2Proof/Machine/Pseudo.lean ====
section
/-! DEFINITION. The pseudo-commands of 30_encoding.md R56, each expanded to the host actions it stands for. They have no
encoding of their own. -/

namespace Sys2Proof.Machine

/-- One command with its input bytes as a host action. -/
def commandAction (i : Instr) (input : Bytes) : HostAction := .command (encode i) input

/-- The largest count of one command, `2^24 - 1` (R51). -/
def argMax : Nat := 2 ^ 24 - 1

/-- The input cut into consecutive chunks of at most `size` bytes; `count` bounds their number. R51 and R56 leave open where a
stream is cut: that every chunk but the last is full is a DESIGN CHOICE, log entry 15. -/
def chunksOf (size : Nat) : Nat → Bytes → List Bytes
  | 0, _ => []
  | count + 1, m => if m.length ≤ size then [m] else m.take size :: chunksOf size count (m.drop size)

/-- A stream command split into commands of at most `2^24 - 1` units of `unitBytes` bytes each (R51, R56). -/
def splitStream (mk : Nat → Instr) (unitBytes : Nat) (m : Bytes) : List HostAction :=
  (chunksOf (argMax * unitBytes) (m.length / (argMax * unitBytes) + 1) m).map fun c =>
    commandAction (mk (c.length / unitBytes)) c

/-- `SHA256.UPDATE n <- m` for any `n` (R56). -/
def sha256UpdateSplit (m : Bytes) : List HostAction := splitStream .sha256Update 1 m

/-- `SHA224.UPDATE n <- m` for any `n` (R56). -/
def sha224UpdateSplit (m : Bytes) : List HostAction := splitStream .sha224Update 1 m

/-- `CTR.CIPHER n <- m` for any `n` (R56). -/
def ctrCipherSplit (m : Bytes) : List HostAction := splitStream .ctrCipher 1 m

/-- `CBC.ENCRYPT n <- m` for any `n`, with blocks of `pb` bytes (R56). -/
def cbcEncryptSplit (pb : Nat) (m : Bytes) : List HostAction := splitStream .cbcEncrypt pb m

/-- `CBC.DECRYPT n <- m` for any `n`, with blocks of `pb` bytes (R56). -/
def cbcDecryptSplit (pb : Nat) (m : Bytes) : List HostAction := splitStream .cbcDecrypt pb m

/-- `SHA256.DIGEST <- m` (R56). -/
def sha256Digest (m : Bytes) : List HostAction :=
  [commandAction .sha256Init []] ++ sha256UpdateSplit m ++ [commandAction .sha256Final []]

/-- `SHA224.DIGEST <- m` (R56). -/
def sha224Digest (m : Bytes) : List HostAction :=
  [commandAction .sha224Init []] ++ sha224UpdateSplit m ++ [commandAction .sha224Final []]

/-- `CTR.REALIGN off, width` (R56). -/
def ctrRealign (offset width : Nat) : List HostAction :=
  [commandAction (.ctrCustom offset width) [], commandAction .ctrDiscard []]

end Sys2Proof.Machine
end

