-- ==== Sys2Proof/Safety.lean ====
section
/-! DEFINITION. What counts as a safe run and the terms claims use: the invariant (10_state.md R19), transcripts of command
sequences (R26, 70 R152), and the spec's closed forms of what the units compute. -/

namespace Sys2Proof.Machine

/-- A good final state (70 R152). -/
def State.good (s : State) : Prop := s.halt = false

/-! ## The invariant -/

/-- I-H of R19. -/
def HashCtx.Ok (c : HashCtx) : Prop := c.npartial.toNat < 64

/-- I-P of R19 for the CBC context: it is bound to a PRP of this instance, and the chain is one block (R17). -/
def CbcCtx.Ok (cfg : Config) (c : CbcCtx) : Prop :=
  ∃ p, bindablePrp cfg c.prp = some p ∧ c.chain.length = p.pb

/-- I-P and I-T of R19 for the CTR context, with the lengths of R18. -/
def CtrCtx.Ok (cfg : Config) (c : CtrCtx) : Prop :=
  ∃ p, bindablePrp cfg c.prp = some p ∧ c.nonce.length = p.pb ∧ c.nkeymat.toNat < p.pb ∧
    c.counterOffset.toNat + c.counterWidth.toNat ≤ p.pb ∧ (c.nkeymat ≠ 0 → c.keymat.length = p.pb)

/-- The state invariants of R19 (I-H, I-T, I-P, I-F), with what R14, R121 and R123 say of FCODE and CC: while the CORE is not
halted both are 0; a halted one has latched one of the four reachable faults, and CC is that code or HALTED. Between
commands no `din` is left over (R43). -/
structure State.Inv (s : State) : Prop where
  hash : s.hashValid = true → s.hash.Ok
  cbc : s.cbcValid = true → s.cbc.Ok s.cfg
  ctr : s.ctrValid = true → s.ctr.Ok s.cfg
  running : s.halt = false → s.fcode = 0 ∧ s.cc = ccOk
  halted : s.halt = true → (∃ f : FaultCode, f ≠ .acc ∧ f ≠ .pad ∧ s.fcode = f.code) ∧ (s.cc = s.fcode ∨ s.cc = ccHalted)
  drained : s.din = []

/-! ## Units -/

/-- The three units that have a context (R10, R47). -/
inductive CoreUnit where
  | hash
  | cbc
  | ctr
  deriving DecidableEq, Repr

/-- The unit a command belongs to (R47). -/
def unitOf : Instr → CoreUnit
  | .sha256Init => .hash
  | .sha256Update _ => .hash
  | .sha256Final => .hash
  | .sha224Init => .hash
  | .sha224Update _ => .hash
  | .sha224Final => .hash
  | .cbcInit _ => .cbc
  | .cbcEncrypt _ => .cbc
  | .cbcDecrypt _ => .cbc
  | .ctrInit _ => .ctr
  | .ctrCipher _ => .ctr
  | .ctrCustom _ _ => .ctr
  | .ctrDiscard => .ctr

/-- The INIT commands, the only ones that need no VALID flag (R126). -/
def isInit : Instr → Bool
  | .sha256Init => true
  | .sha256Update _ => false
  | .sha256Final => false
  | .sha224Init => true
  | .sha224Update _ => false
  | .sha224Final => false
  | .cbcInit _ => true
  | .cbcEncrypt _ => false
  | .cbcDecrypt _ => false
  | .ctrInit _ => true
  | .ctrCipher _ => false
  | .ctrCustom _ _ => false
  | .ctrDiscard => false

/-- A unit's VALID flag (R13). -/
def State.valid (s : State) : CoreUnit → Bool
  | .hash => s.hashValid
  | .cbc => s.cbcValid
  | .ctr => s.ctrValid

/-! ## Runs -/

/-- What the host received for one command (R26). -/
abbrev Reply := Bytes × BitVec 8

/-- Commands served one after another, each with its `din`: what the host received for each, and the last state. `none` if
one of them has no next state. -/
def transcript : List (Instr × Bytes) → State → Option (List Reply × State)
  | [], s => some ([], s)
  | (i, input) :: rest, s =>
    match exec i { s with din := input } with
    | .next t => (transcript rest t).map fun r => ((t.dout, t.cc) :: r.1, r.2)
    | .fault _ => none
    | .refused _ => none

/-- The `dout` bytes of a transcript, joined. -/
def outputBytes (replies : List Reply) : Bytes := replies.flatMap fun r => r.1

/-! ## The hash unit's closed forms -/

/-- `s[0..B), s[B..2B), ...`: the whole blocks of a byte string (R64). -/
def blocksOf (B : Nat) (s : Bytes) : List Bytes :=
  (List.range (s.length / B)).map fun i => (s.drop (B * i)).take B

/-- The last `len(s) mod B` bytes of a byte string (R64). -/
def tailOf (B : Nat) (s : Bytes) : Bytes := s.drop (B * (s.length / B))

/-- `partial[0..npartial)`, the meaningful part of the buffer (R11). -/
def HashCtx.buffered (c : HashCtx) : Bytes := firstBytes c.partialBuf c.npartial.toNat

/-- What FINAL appends to a message of `n` bytes (R80). -/
def paddingOf (rule : PadRule) (n : Nat) : Bytes := [0x80] ++ zeros (padZeroes rule n) ++ be64 (n * 8)

/-- The 32 bytes FINAL computes from a context: the buffered bytes and the padding compressed into `H` (R80). -/
def digestOf (rule : PadRule) (c : HashCtx) : Bytes :=
  digestBytes ((blocksOf 64 (c.buffered ++ paddingOf rule (digestedBytes c))).foldl compress c.h)

/-- The same context but for stale buffer bytes, which no rule reads (R84, 93 U5). -/
def HashCtx.Same (c d : HashCtx) : Prop :=
  c.h = d.h ∧ c.npartial = d.npartial ∧ c.blocks = d.blocks ∧ c.buffered = d.buffered

/-! ## The CBC unit's closed forms -/

/-- Block `i` of a byte string in blocks of `B` bytes. -/
def blockAt (B : Nat) (s : Bytes) (i : Nat) : Bytes := (s.drop (i * B)).take B

/-- `C_{i-1}`: the chain before block `i`, where `first` is the chain before the command (R92, R93). -/
def chainBefore (first : Bytes) (c : Nat → Bytes) : Nat → Bytes
  | 0 => first
  | i + 1 => c i

/-- `C_i = enc(P_i xor C_{i-1})` (R92). -/
def cbcCipherBlock (p : Prp) (first : Bytes) (plain : Nat → Bytes) : Nat → Bytes
  | 0 => prpAnswer p .enc (xorBytes (plain 0) first)
  | i + 1 => prpAnswer p .enc (xorBytes (plain (i + 1)) (cbcCipherBlock p first plain i))

/-- The first `n` blocks of an indexed family, joined. -/
def joinBlocks (n : Nat) (c : Nat → Bytes) : Bytes := (List.range n).flatMap c

/-! ## The CTR unit's closed forms -/

/-- The window `[o, o+w)` read as one big-endian unsigned integer (R101). -/
def windowValue (buf : Bytes) (o w : Nat) : Nat := beValue ((buf.drop o).take w)

/-- The block with its window replaced by the value `v` (R113). -/
def withWindow (buf : Bytes) (o w v : Nat) : Bytes := buf.take o ++ beBytes w v ++ buf.drop (o + w)

/-- The counter block after `j` increments (R109). -/
def counterAfter (c : CtrCtx) : Nat → Bytes
  | 0 => c.nonce
  | j + 1 => beInc (counterAfter c j) c.counterOffset.toNat c.counterWidth.toNat

/-- Keystream block `j` counted from the current counter block (R105). -/
def keystreamBlockAt (p : Prp) (c : CtrCtx) (j : Nat) : Bytes := prpAnswer p .enc (counterAfter c j)

/-- The bytes of the reservoir not yet consumed, `keymat[PB - nkeymat .. PB)` (R18). -/
def CtrCtx.unconsumed (c : CtrCtx) (pb : Nat) : Bytes := (c.keymat.drop (pb - c.nkeymat.toNat)).take c.nkeymat.toNat

/-- How many keystream blocks `n` bytes take, `ceil(max(0, n - nkeymat) / PB)` (R109). -/
def blocksNeeded (c : CtrCtx) (pb n : Nat) : Nat := (n - c.nkeymat.toNat + pb - 1) / pb

/-- A CTR command that may stand between the two ends of a stream (R110). -/
def isCtrStreamCommand : Instr → Bool
  | .sha256Init => false
  | .sha256Update _ => false
  | .sha256Final => false
  | .sha224Init => false
  | .sha224Update _ => false
  | .sha224Final => false
  | .cbcInit _ => false
  | .cbcEncrypt _ => false
  | .cbcDecrypt _ => false
  | .ctrInit _ => false
  | .ctrCipher _ => true
  | .ctrCustom _ _ => true
  | .ctrDiscard => true

/-! ## What cannot be observed -/

/-- Two states the host cannot tell apart: they differ at most in contexts that are not VALID and in stale buffer bytes
(10_state.md R23, 93 U4, U5). -/
structure State.Indistinguishable (s t : State) : Prop where
  cfg : s.cfg = t.cfg
  hashValid : s.hashValid = t.hashValid
  cbcValid : s.cbcValid = t.cbcValid
  ctrValid : s.ctrValid = t.ctrValid
  halt : s.halt = t.halt
  fcode : s.fcode = t.fcode
  cc : s.cc = t.cc
  din : s.din = t.din
  dout : s.dout = t.dout
  pending : s.pending = t.pending
  observed : s.observed = t.observed
  prpTrace : s.prpTrace = t.prpTrace
  freeReads : s.freeReads = t.freeReads
  hash : s.hashValid = true → s.hash.Same t.hash
  cbc : s.cbcValid = true → s.cbc = t.cbc
  ctr : s.ctrValid = true →
    s.ctr.prp = t.ctr.prp ∧ s.ctr.nonce = t.ctr.nonce ∧ s.ctr.counterOffset = t.ctr.counterOffset ∧
    s.ctr.counterWidth = t.ctr.counterWidth ∧ s.ctr.nkeymat = t.ctr.nkeymat ∧
    s.ctr.unconsumed (blockSize s.cfg s.ctr.prp) = t.ctr.unconsumed (blockSize s.cfg s.ctr.prp)

end Sys2Proof.Machine
end

