-- ==== Sys2Proof/Certificates/Slice0/Obligations.lean ====
section
/-! DEFINITION. The statements about the model, each from a numbered rule of spec/ or derived from one. -/

open Sys2Proof Sys2Proof.Machine

/-! ## Encoding -/

/-- 95_test_vectors.md 3.1: words written out from the encoding of R46 to R52 decode to the command they stand for. -/
def Obligations.DecodesTheSpecWords : Prop :=
  decode 0b00010000000000000000000000000000#32 = .ok .sha256Init ∧
  decode 0b00010001000000000000000000000011#32 = .ok (.sha256Update 3) ∧
  decode 0b00011010000000000000000000000000#32 = .ok .sha224Final ∧
  decode 0b00100000000000000000000000000001#32 = .ok (.cbcInit 1) ∧
  decode 0b00100010000000000000000000000011#32 = .ok (.cbcDecrypt 3) ∧
  decode 0b00110001000000000000000000000110#32 = .ok (.ctrCipher 6) ∧
  decode 0b00110010000000000010000000000010#32 = .ok (.ctrCustom 2 2) ∧
  decode 0b00110010000000001100000000000100#32 = .ok (.ctrCustom 12 4)

/-- R57: `decode(encode(c)) = c` for every command with operands in range. -/
def Obligations.DecodeOfEncodeIsTheCommand : Prop :=
  ∀ i : Instr, i.wf = true → decode (encode i) = .ok i

/-- R57: `encode(decode(w)) = w` for every legal word, and what the decoder gives has operands in range. -/
def Obligations.EncodeOfDecodeIsTheWord : Prop :=
  ∀ (w : Word) (i : Instr), decode w = .ok i → i.wf = true ∧ encode i = w

/-- R52: the 13 rows with their match and mask; they are disjoint, and a word decodes to a command of the row it selects. -/
def Obligations.OpcodeRowsAreDisjointAndSelectTheCommand : Prop :=
  (opcodeTable.map fun r => (r.mnemonic.name, r.pattern, r.mask)) =
    [("SHA256.INIT", 0x10000000, 0xFFFFFFFF), ("SHA256.UPDATE", 0x11000000, 0xFF000000),
      ("SHA256.FINAL", 0x12000000, 0xFFFFFFFF), ("SHA224.INIT", 0x18000000, 0xFFFFFFFF),
      ("SHA224.UPDATE", 0x19000000, 0xFF000000), ("SHA224.FINAL", 0x1A000000, 0xFFFFFFFF),
      ("CBC.INIT", 0x20000000, 0xFF000000), ("CBC.ENCRYPT", 0x21000000, 0xFF000000),
      ("CBC.DECRYPT", 0x22000000, 0xFF000000), ("CTR.INIT", 0x30000000, 0xFF000000),
      ("CTR.CIPHER", 0x31000000, 0xFF000000), ("CTR.CUSTOM", 0x32000000, 0xFF000000),
      ("CTR.DISCARD", 0x33000000, 0xFFFFFFFF)] ∧
  (∀ (w : Word) (r q : OpcodeRow), r ∈ opcodeTable → q ∈ opcodeTable → r.selects w = true → q.selects w = true → r = q) ∧
  (∀ (w : Word) (r : OpcodeRow), r ∈ opcodeTable →
    (r.selects w = true ↔ ∃ i, decode w = .ok i ∧ i.mnemonic = r.mnemonic))

/-- R53: the words that match no row are exactly those of the rule's list; such a word raises F_ILLEGAL, halts the CORE and
changes no context; operand values that are out of range are no encoding errors. -/
def Obligations.ReservedWordsAreIllegalAndFault : Prop :=
  (∀ w : Word, (∃ e, decode w = .error e) ↔ ∀ r ∈ opcodeTable, r.selects w = false) ∧
  (∀ w : Word, (∃ e, decode w = .error e) ↔
    (unitField w = 0 ∨ 4 ≤ (unitField w).toNat) ∨
    (unitField w = 1 ∧ 3 ≤ ((opField w).extractLsb' 0 3).toNat) ∨
    (unitField w = 2 ∧ 3 ≤ (opField w).toNat) ∨
    (unitField w = 3 ∧ 4 ≤ (opField w).toNat) ∨
    (argField w ≠ 0 ∧
      ((unitField w = 1 ∧ (opField w = 0 ∨ opField w = 2 ∨ opField w = 8 ∨ opField w = 10)) ∨
        (unitField w = 3 ∧ opField w = 3)))) ∧
  (∃ e, decode 0x00000000 = .error e) ∧
  (∃ e, decode 0xFFFFFFFF = .error e) ∧
  (∀ a : BitVec 24, (∃ i, decode (commandWord 2 0 a) = .ok i) ∧ (∃ i, decode (commandWord 3 0 a) = .ok i) ∧
    (∃ i, decode (commandWord 3 2 a) = .ok i)) ∧
  (∀ (s : State) (w : Word), s.halt = false → (∃ e, decode w = .error e) →
    runCommand w s = .next { s with halt := true, fcode := 0x01, cc := 0x01, din := [], dout := [] })

/-! ## The step and the fault mechanism -/

/-- A step on a pending command whose word decodes runs that command on the state that holds its `din`, and records what
the host receives (the pending list and the record are the model's own, log entries 3 and 12). -/
def Obligations.StepRunsTheDecodedCommand : Prop :=
  ∀ (s : State) (w : Word) (i : Instr) (input : Bytes) (rest : List HostAction),
    s.pending = .command w input :: rest → decode w = .ok i →
    step s = mapNext State.recordCommand (exec i { s with pending := rest, din := input })

/-- R125: a halted CORE refuses every command word, legal or not, with CC = HALTED; nothing but CC changes; STATUS and CC
stay readable; reset clears HALT and invalidates all three contexts. -/
def Obligations.HaltedCoreRefusesEveryCommand : Prop :=
  ∀ (s : State) (rest : List HostAction), s.halt = true →
    (∀ (w : Word) (input : Bytes), s.pending = .command w input :: rest →
      step s = .next { s with
        pending := rest, cc := 0xFF, din := [], dout := [], observed := s.observed ++ [.command [] 0xFF] }) ∧
    (s.pending = .readReg .status :: rest →
      step s = .next { s with pending := rest, observed := s.observed ++ [.register .status s.status] }) ∧
    (s.pending = .readReg .cc :: rest →
      step s = .next { s with pending := rest, observed := s.observed ++ [.register .cc (s.cc.setWidth 32)] }) ∧
    (s.pending = .reset :: rest → ∃ t, step s = .next t ∧ t.halt = false ∧ t.hashValid = false ∧ t.cbcValid = false ∧
      t.ctrValid = false) ∧
    (∀ t : State, step s = .next t → t.halt = false → s.pending = .reset :: s.pending.tail)

/-- R124: a command word that faults leaves the state before it with HALT, FCODE and CC changed, one code of R121 in both,
an empty `dout` and its `din` dropped; no context is written, nothing is saved, and STATUS shows the VALID flags as before. -/
def Obligations.RaisedFaultWritesOnlyTheFaultRegisters : Prop :=
  ∀ (w : Word) (s t : State), s.halt = false → runCommand w s = .next t → t.halt = true →
    ∃ f : FaultCode, t = { s with halt := true, fcode := f.code, cc := f.code, dout := [], din := [] } ∧
      t.status.getLsbD 0 = true ∧ t.status.extractLsb' 8 8 = f.code ∧ t.status.getLsbD 1 = s.hashValid ∧
      t.status.getLsbD 2 = s.cbcValid ∧ t.status.getLsbD 3 = s.ctrValid

/-- R127: the checks in their order; the first that applies decides. Checks 3 to 5 are on the decoded command. -/
def Obligations.ChecksAreMadeInOrder : Prop :=
  (∀ (s : State) (w : Word),
    (s.halt = true → runCommand w s = .next { s with cc := 0xFF, dout := [], din := [] }) ∧
    (s.halt = false → (∃ e, decode w = .error e) → runCommand w s = .next (s.raiseFault .illegal)) ∧
    (∀ i, s.halt = false → decode w = .ok i → runCommand w s = exec i s)) ∧
  (∀ (i : Instr) (s : State), s.halt = false → isInit i = false → s.valid (unitOf i) = false →
    exec i s = .next (s.raiseFault .uninit)) ∧
  (∀ (h : Handle) (s : State), s.halt = false → bindablePrp s.cfg h = none →
    exec (.cbcInit h) s = .next (s.raiseFault .prp) ∧ exec (.ctrInit h) s = .next (s.raiseFault .prp)) ∧
  (∀ (o w : Nat) (p : Prp) (s : State), s.halt = false → s.ctrValid = true → lookupPrp s.cfg s.ctr.prp = some p →
    p.pb < o + w → exec (.ctrCustom o w) s = .next (s.raiseFault .window)) ∧
  (∀ (n : Nat) (s : State), s.halt = false → s.hashValid = true → 64 ≤ s.hash.npartial.toNat →
    exec (.sha256Update n) s = .next (s.raiseFault .acc) ∧ exec (.sha224Update n) s = .next (s.raiseFault .acc) ∧
    exec .sha256Final s = .next (s.raiseFault .acc) ∧ exec .sha224Final s = .next (s.raiseFault .acc)) ∧
  (∀ (n : Nat) (p : Prp) (s : State), s.halt = false → s.ctrValid = true → lookupPrp s.cfg s.ctr.prp = some p →
    p.pb ≤ s.ctr.nkeymat.toNat → exec (.ctrCipher n) s = .next (s.raiseFault .acc)) ∧
  (∀ (s t : State), s.halt = true → step s = .next t → s.pending ≠ .reset :: s.pending.tail → t.fcode = s.fcode)

/-- R140: what reset does, and that it is the only event that clears HALT and the only one that clears a VALID flag. The
values of the registers that R23 leaves unspecified are the model's (log entry 5) and not stated. -/
def Obligations.OnlyResetClearsHaltAndValidFlags : Prop :=
  (∀ (s : State) (rest : List HostAction), s.pending = .reset :: rest →
    ∃ t, step s = .next t ∧ t.halt = false ∧ t.fcode = 0 ∧ t.hashValid = false ∧ t.cbcValid = false ∧
      t.ctrValid = false ∧ t.cc = 0 ∧ t.status = 0 ∧ t.cfg = s.cfg ∧ t.pending = rest ∧ t.prpTrace = s.prpTrace) ∧
  (∀ s t : State, step s = .next t → s.pending ≠ .reset :: s.pending.tail →
    (s.halt = true → t.halt = true) ∧ (s.hashValid = true → t.hashValid = true) ∧
    (s.cbcValid = true → t.cbcValid = true) ∧ (s.ctrValid = true → t.ctrValid = true))

/-- R23, the values the spec gives. -/
def Obligations.ResetStateHasTheSpecValues : Prop :=
  State.reset.halt = false ∧ State.reset.fcode = 0 ∧ State.reset.hashValid = false ∧ State.reset.cbcValid = false ∧
  State.reset.ctrValid = false ∧ State.reset.cc = 0 ∧ State.reset.status = 0 ∧ State.reset.cfg.padRule = .literal

/-- R15: the fields of STATUS. -/
def Obligations.StatusWordHoldsTheFlags : Prop :=
  ∀ s : State,
    s.status.getLsbD 0 = s.halt ∧ s.status.getLsbD 1 = s.hashValid ∧ s.status.getLsbD 2 = s.cbcValid ∧
    s.status.getLsbD 3 = s.ctrValid ∧ s.status.extractLsb' 4 4 = 0 ∧ s.status.extractLsb' 8 8 = s.fcode ∧
    s.status.extractLsb' 16 16 = 0

/-- R15, R35: reading STATUS or CC changes nothing but what the host has seen, and a write to STATUS, DOUT or CC is
ignored; in every state, halted or not. -/
def Obligations.RegisterAccessHasNoSideEffect : Prop :=
  ∀ (s : State) (rest : List HostAction),
    (s.pending = .readReg .status :: rest →
      step s = .next { s with pending := rest, observed := s.observed ++ [.register .status s.status] }) ∧
    (s.pending = .readReg .cc :: rest →
      step s = .next { s with pending := rest, observed := s.observed ++ [.register .cc (s.cc.setWidth 32)] }) ∧
    (∀ (r : ReadOnlyReg) (v : Word), s.pending = .writeReg r v :: rest → step s = .next { s with pending := rest })

/-! ## The hash unit -/

/-- R76, R77: INIT completes in every running state, whatever the context held; its encoding; F_ILLEGAL for a non-zero ARG. -/
def Obligations.HashInitLoadsTheInitialVector : Prop :=
  (∀ s : State, s.halt = false → s.din = [] →
    exec .sha256Init s = .next { s with
      hash := { h := iv256, partialBuf := Vector.replicate 64 0, npartial := 0, blocks := 0 }
      hashValid := true, dout := [], cc := 0 } ∧
    exec .sha224Init s = .next { s with
      hash := { h := iv224, partialBuf := Vector.replicate 64 0, npartial := 0, blocks := 0 }
      hashValid := true, dout := [], cc := 0 }) ∧
  encode .sha256Init = 0x10000000 ∧ encode .sha224Init = 0x18000000 ∧
  (∀ (a : BitVec 24) (s : State), s.halt = false → a ≠ 0 →
    runCommand (commandWord 1 0 a) s = .next (s.raiseFault .illegal) ∧
    runCommand (commandWord 1 8 a) s = .next (s.raiseFault .illegal))

/-- R78, R79: UPDATE completes and compresses the whole blocks of `partial[0..npartial) ++ din` into `H` in order; `blocks`
grows by their number modulo 2^32; the tail is buffered; nothing else changes. Its encoding and its two faults. -/
def Obligations.HashUpdateCompressesTheWholeBlocks : Prop :=
  ∀ (n : Nat) (up : Nat → Instr), up = Instr.sha256Update ∨ up = Instr.sha224Update →
    (∀ s : State, s.halt = false → s.hashValid = true → s.hash.npartial.toNat < 64 → s.din.length = n →
      ∃ c : HashCtx,
        exec (up n) s = .next { s with hash := c, din := [], dout := [], cc := 0 } ∧
        c.h = (blocksOf 64 (s.hash.buffered ++ s.din)).foldl compress s.hash.h ∧
        c.blocks = s.hash.blocks + BitVec.ofNat 32 ((s.hash.buffered ++ s.din).length / 64) ∧
        c.npartial.toNat = (s.hash.npartial.toNat + n) % 64 ∧
        c.buffered = tailOf 64 (s.hash.buffered ++ s.din) ∧
        (n = 0 → c = s.hash)) ∧
    (∀ s : State, s.halt = false → s.hashValid = false → exec (up n) s = .next (s.raiseFault .uninit)) ∧
    (∀ s : State, s.halt = false → s.hashValid = true → 64 ≤ s.hash.npartial.toNat →
      exec (up n) s = .next (s.raiseFault .acc)) ∧
    encode (.sha256Update n) = 0x11000000#32 ||| (BitVec.ofNat 24 n).setWidth 32 ∧
    encode (.sha224Update n) = 0x19000000#32 ||| (BitVec.ofNat 24 n).setWidth 32

/-- R82, R83 (with R80): FINAL completes, returns the digest of the padded copy (all 32 bytes, or the first 28), and leaves
the live context and everything else as it is. Its faults and encodings. -/
def Obligations.HashFinalReturnsTheDigestOfAPaddedCopy : Prop :=
  (∀ s : State, s.halt = false → s.hashValid = true → s.hash.npartial.toNat < 64 → s.din = [] →
    exec .sha256Final s = .next { s with dout := digestOf s.cfg.padRule s.hash, cc := 0 } ∧
    exec .sha224Final s = .next { s with dout := (digestOf s.cfg.padRule s.hash).take 28, cc := 0 } ∧
    (digestOf s.cfg.padRule s.hash).length = 32) ∧
  (∀ s : State, s.halt = false → s.hashValid = false →
    exec .sha256Final s = .next (s.raiseFault .uninit) ∧ exec .sha224Final s = .next (s.raiseFault .uninit)) ∧
  (∀ s : State, s.halt = false → s.hashValid = true → 64 ≤ s.hash.npartial.toNat →
    exec .sha256Final s = .next (s.raiseFault .acc) ∧ exec .sha224Final s = .next (s.raiseFault .acc)) ∧
  encode .sha256Final = 0x12000000 ∧ encode .sha224Final = 0x1A000000 ∧
  (∀ (a : BitVec 24) (s : State), s.halt = false → a ≠ 0 →
    runCommand (commandWord 1 2 a) s = .next (s.raiseFault .illegal) ∧
    runCommand (commandWord 1 10 a) s = .next (s.raiseFault .illegal))

/-- R81: both padding rules make the padded length a multiple of 64; LITERAL is never 0; they differ exactly at 55 mod 64;
how many blocks FINAL compresses under each. -/
def Obligations.PaddingMakesWholeBlocks : Prop :=
  ∀ n : Nat,
    (∀ rule, (n + 1 + padZeroes rule n + 8) % 64 = 0) ∧
    1 ≤ padZeroes .literal n ∧ padZeroes .literal n ≤ 64 ∧ padZeroes .minimal n ≤ 63 ∧
    (padZeroes .literal n ≠ padZeroes .minimal n ↔ n % 64 = 55) ∧
    (n % 64 = 55 → padZeroes .literal n = 64 ∧ padZeroes .minimal n = 0) ∧
    (n % 64 + (1 + padZeroes .literal n + 8)) / 64 = (if n % 64 ≤ 54 then 1 else 2) ∧
    (n % 64 + (1 + padZeroes .minimal n + 8)) / 64 = (if n % 64 ≤ 55 then 1 else 2)

/-- R74: the worked example, `Compress` of the padded block of "abc" from both initial vectors. -/
def Obligations.CompressGivesTheWorkedExample : Prop :=
  let blk : Bytes := [0x61, 0x62, 0x63, 0x80] ++ zeros 52 ++ [0, 0, 0, 0, 0, 0, 0, 0x18]
  compress iv256 blk =
    #v[0xba7816bf, 0x8f01cfea, 0x414140de, 0x5dae2223, 0xb00361a3, 0x96177a9c, 0xb410ff61, 0xf20015ad] ∧
  compress iv224 blk =
    #v[0x23097d22, 0x3405d822, 0x8642a477, 0xbda255b3, 0x2aadbce4, 0xbda0b3f7, 0xe36c9da7, 0xd2da082d]

/-- R84 (with R64 and R87): feeding a byte string through UPDATE commands of either variant in any chunks, empty ones too,
leaves the hash context that one UPDATE of the whole string leaves, so the same digest, and nothing else but CC and the
ports changed. -/
def Obligations.ChunkingOfUpdatesDoesNotChangeTheContext : Prop :=
  ∀ (s : State) (chunks : List (Variant × Bytes)),
    s.halt = false → s.hashValid = true → s.hash.npartial.toNat < 64 →
    ∃ (replies : List Reply) (t u : State),
      transcript (chunks.map fun c => ((hashDescriptor c.1).update c.2.length, c.2)) s = some (replies, t) ∧
      exec (.sha256Update (chunks.map Prod.snd).flatten.length) { s with din := (chunks.map Prod.snd).flatten } = .next u ∧
      t.hash.Same u.hash ∧
      (∀ v : Variant, ∃ (d : Bytes) (t2 u2 : State),
        transcript [((hashDescriptor v).final, [])] t = some ([(d, 0)], t2) ∧
        transcript [((hashDescriptor v).final, [])] u = some ([(d, 0)], u2)) ∧
      (∀ r ∈ replies, r = ([], 0)) ∧
      t = { s with hash := t.hash, din := t.din, dout := t.dout, cc := t.cc }

/-- R85: FINAL between two UPDATEs changes nothing: the first digest is that of the first part, the second that of the
whole message. -/
def Obligations.FinalLeavesTheMessageExtendable : Prop :=
  ∀ (s : State) (v : Variant) (a b : Bytes), s.halt = false →
    ∃ (h1 h2 : Bytes) (t t1 t2 : State),
      transcript
        [((hashDescriptor v).init, []), ((hashDescriptor v).update a.length, a), ((hashDescriptor v).final, []),
          ((hashDescriptor v).update b.length, b), ((hashDescriptor v).final, [])] s
        = some ([([], 0), ([], 0), (h1, 0), ([], 0), (h2, 0)], t) ∧
      transcript [((hashDescriptor v).init, []), ((hashDescriptor v).update a.length, a), ((hashDescriptor v).final, [])] s
        = some ([([], 0), ([], 0), (h1, 0)], t1) ∧
      transcript
        [((hashDescriptor v).init, []), ((hashDescriptor v).update (a ++ b).length, a ++ b), ((hashDescriptor v).final, [])] s
        = some ([([], 0), ([], 0), (h2, 0)], t2) ∧
      h1.length = (hashDescriptor v).hashsz ∧ h2.length = (hashDescriptor v).hashsz

/-- R87: the context holds no variant tag. UPDATE of either variant is the same command; on any context both FINALs
complete, SHA224.FINAL with the first seven state words of a computation and SHA256.FINAL with all eight of the same one. -/
def Obligations.VariantsShareOneContext : Prop :=
  (∀ (n : Nat) (s : State), exec (.sha256Update n) s = exec (.sha224Update n) s) ∧
  (∀ s : State, s.halt = false → s.hashValid = true → s.hash.npartial.toNat < 64 → s.din = [] →
    ∃ (h : Vector Word 8) (t u : State),
      exec .sha256Final s = .next t ∧ exec .sha224Final s = .next u ∧ t.cc = 0 ∧
      u.dout = be32 h[0] ++ be32 h[1] ++ be32 h[2] ++ be32 h[3] ++ be32 h[4] ++ be32 h[5] ++ be32 h[6] ∧
      t.dout = u.dout ++ be32 h[7] ∧ u = { t with dout := u.dout })

/-- R19, R121: in a state that meets the invariant no command, with whatever input bytes, raises F_ACC or F_PAD. -/
def Obligations.InternalFaultsAreUnreachable : Prop :=
  ∀ (i : Instr) (s t : State) (input : Bytes), s.Inv → s.halt = false → exec i { s with din := input } = .next t →
    t.fcode ≠ FaultCode.acc.code ∧ t.fcode ≠ FaultCode.pad.code

/-! ## The CBC unit -/

/-- R91: CBC.INIT completes for a PRP that can be bound, with its block as the chain; F_PRP otherwise, whatever `din` is. -/
def Obligations.CbcInitBindsThePrpAndLoadsTheIv : Prop :=
  (∀ (h : Handle) (p : Prp) (s : State), s.halt = false → bindablePrp s.cfg h = some p → s.din.length = p.pb →
    exec (.cbcInit h) s = .next { s with
      cbc := { prp := h, chain := s.din }, cbcValid := true, din := [], dout := [], cc := 0 }) ∧
  (∀ (h : Handle) (s : State), s.halt = false →
    (lookupPrp s.cfg h = none ∨ ∃ p, lookupPrp s.cfg h = some p ∧ s.cfg.pbMax.toNat < p.pb) →
    exec (.cbcInit h) s = .next (s.raiseFault .prp)) ∧
  (∀ h : Handle, encode (.cbcInit h) = 0x20000000#32 ||| h.setWidth 32)

/-- R92 (with R95): CBC.ENCRYPT completes; `C_i = enc(P_i xor C_{i-1})`, one ENC request for each block in order, the chain
takes the last ciphertext block; nothing else changes. -/
def Obligations.CbcEncryptChainsTheBlocks : Prop :=
  (∀ (n : Nat) (p : Prp) (s : State), s.halt = false → s.cbcValid = true → lookupPrp s.cfg s.cbc.prp = some p →
    s.din.length = n * p.pb →
    let c := cbcCipherBlock p s.cbc.chain (blockAt p.pb s.din)
    exec (.cbcEncrypt n) s = .next { s with
      cbc := { s.cbc with chain := chainBefore s.cbc.chain c n }
      din := [], dout := joinBlocks n c, cc := 0
      prpTrace := s.prpTrace ++ (List.range n).map fun i =>
        ⟨s.cbc.prp, .enc, xorBytes (blockAt p.pb s.din i) (chainBefore s.cbc.chain c i)⟩ }) ∧
  (∀ (n : Nat) (s : State), s.halt = false → s.cbcValid = false →
    exec (.cbcEncrypt n) s = .next (s.raiseFault .uninit)) ∧
  (∀ n : Nat, encode (.cbcEncrypt n) = 0x21000000#32 ||| (BitVec.ofNat 24 n).setWidth 32)

/-- R93 (with R95): CBC.DECRYPT completes; `P_i = dec(C_i) xor C_{i-1}`, one DEC request carrying `C_i` for each block in
order, the chain takes the last INPUT block; nothing else changes. -/
def Obligations.CbcDecryptUnchainsTheBlocks : Prop :=
  (∀ (n : Nat) (p : Prp) (s : State), s.halt = false → s.cbcValid = true → lookupPrp s.cfg s.cbc.prp = some p →
    s.din.length = n * p.pb →
    let c := blockAt p.pb s.din
    exec (.cbcDecrypt n) s = .next { s with
      cbc := { s.cbc with chain := chainBefore s.cbc.chain c n }
      din := [], cc := 0
      dout := joinBlocks n fun i => xorBytes (prpAnswer p .dec (c i)) (chainBefore s.cbc.chain c i)
      prpTrace := s.prpTrace ++ (List.range n).map fun i => ⟨s.cbc.prp, .dec, c i⟩ }) ∧
  (∀ (n : Nat) (s : State), s.halt = false → s.cbcValid = false →
    exec (.cbcDecrypt n) s = .next (s.raiseFault .uninit)) ∧
  (∀ n : Nat, encode (.cbcDecrypt n) = 0x22000000#32 ||| (BitVec.ofNat 24 n).setWidth 32)

/-- R94: two commands on consecutive inputs give the output, the chain and the requests of one command on the joined
input; for ENCRYPT and for DECRYPT. A command of either kind continues from the chain that one of either kind left. -/
def Obligations.CbcCommandsMayBeSplit : Prop :=
  ∀ (s : State) (p : Prp) (a b : Nat) (x y : Bytes) (first second : Nat → Instr),
    first = Instr.cbcEncrypt ∨ first = Instr.cbcDecrypt → second = Instr.cbcEncrypt ∨ second = Instr.cbcDecrypt →
    s.halt = false → s.cbcValid = true → lookupPrp s.cfg s.cbc.prp = some p →
    x.length = a * p.pb → y.length = b * p.pb →
    (∃ (o1 o2 : Bytes) (t u : State),
      transcript [(first a, x), (first b, y)] s = some ([(o1, 0), (o2, 0)], t) ∧
      exec (first (a + b)) { s with din := x ++ y } = .next u ∧
      u.dout = o1 ++ o2 ∧ u.cbc = t.cbc ∧ u.prpTrace = t.prpTrace ∧ u.cc = 0) ∧
    (∃ (o1 o2 : Bytes) (t1 t u : State),
      transcript [(first a, x)] s = some ([(o1, 0)], t1) ∧
      transcript [(second b, y)] t1 = some ([(o2, 0)], t) ∧
      exec (second b) { s with cbc := t1.cbc, din := y } = .next u ∧ u.dout = o2 ∧ u.cbc = t.cbc)

/-- R96: with a PRP whose `dec` undoes its `enc`, decrypting what was encrypted under the same IV gives the plaintext back,
on any CORE wired to the same PRPs (another one, or the same one later: no step changes the configuration). -/
def Obligations.CbcDecryptUndoesEncrypt : Prop :=
  ∀ (s s' : State) (h : Handle) (p : Prp) (n : Nat) (iv plain : Bytes),
    s.halt = false → s'.halt = false → bindablePrp s.cfg h = some p → s'.cfg = s.cfg →
    (∀ x : Bytes, x.length = p.pb → prpAnswer p .dec (prpAnswer p .enc x) = x) →
    iv.length = p.pb → plain.length = n * p.pb →
    ∃ (cipher : Bytes) (t t' : State), cipher.length = n * p.pb ∧ t.halt = false ∧ t.cfg = s.cfg ∧
      transcript [(.cbcInit h, iv), (.cbcEncrypt n, plain)] s = some ([([], 0), (cipher, 0)], t) ∧
      transcript [(.cbcInit h, iv), (.cbcDecrypt n, cipher)] s' = some ([([], 0), (plain, 0)], t')

/-- R97: if two ciphertexts of whole blocks differ in block `j` only, the recovered plaintexts differ in block `j` and, in
exactly the bytes where the ciphertexts differ, in block `j + 1`, and nowhere else. -/
def Obligations.CbcErrorPropagatesToTwoBlocks : Prop :=
  ∀ (s : State) (p : Prp) (n j : Nat) (x y : Bytes), s.halt = false → s.cbcValid = true →
    lookupPrp s.cfg s.cbc.prp = some p → s.cbc.chain.length = p.pb →
    (∀ a b : Bytes, a.length = p.pb → b.length = p.pb → prpAnswer p .dec a = prpAnswer p .dec b → a = b) →
    x.length = n * p.pb → y.length = n * p.pb → j < n →
    (∀ i, i < n → i ≠ j → blockAt p.pb x i = blockAt p.pb y i) → blockAt p.pb x j ≠ blockAt p.pb y j →
    ∃ t u : State,
      exec (.cbcDecrypt n) { s with din := x } = .next t ∧ exec (.cbcDecrypt n) { s with din := y } = .next u ∧
      (∀ i, i < n → i ≠ j → i ≠ j + 1 → blockAt p.pb t.dout i = blockAt p.pb u.dout i) ∧
      blockAt p.pb t.dout j ≠ blockAt p.pb u.dout j ∧
      blockAt p.pb u.dout j
        = xorBytes (prpAnswer p .dec (blockAt p.pb y j)) (chainBefore s.cbc.chain (blockAt p.pb x) j) ∧
      (j + 1 < n →
        blockAt p.pb u.dout (j + 1)
          = xorBytes (xorBytes (blockAt p.pb t.dout (j + 1)) (blockAt p.pb x j)) (blockAt p.pb y j) ∧
        ∀ k, k < p.pb →
          ((blockAt p.pb t.dout (j + 1)).getD k 0 ≠ (blockAt p.pb u.dout (j + 1)).getD k 0 ↔
            (blockAt p.pb x j).getD k 0 ≠ (blockAt p.pb y j).getD k 0)) ∧
      (j + 1 = n → u.cbc.chain = blockAt p.pb y j)

/-! ## The CTR unit -/

/-- R103: CTR.INIT completes for a PRP that can be bound: the nonce is `din`, the window the whole block, the reservoir
empty, `keymat` not written; F_PRP otherwise. -/
def Obligations.CtrInitLoadsTheNonce : Prop :=
  (∀ (h : Handle) (p : Prp) (s : State), s.halt = false → bindablePrp s.cfg h = some p → s.din.length = p.pb →
    ∃ c : CtrCtx,
      exec (.ctrInit h) s = .next { s with ctr := c, ctrValid := true, din := [], dout := [], cc := 0 } ∧
      c.prp = h ∧ c.nonce = s.din ∧ c.counterOffset = 0 ∧ c.counterWidth.toNat = p.pb ∧ c.nkeymat = 0 ∧
      c.keymat = s.ctr.keymat) ∧
  (∀ (h : Handle) (s : State), s.halt = false →
    (lookupPrp s.cfg h = none ∨ ∃ p, lookupPrp s.cfg h = some p ∧ s.cfg.pbMax.toNat < p.pb) →
    exec (.ctrInit h) s = .next (s.raiseFault .prp)) ∧
  (∀ h : Handle, encode (.ctrInit h) = 0x30000000#32 ||| h.setWidth 32)

/-- R104: CTR.CUSTOM completes for a window that fits (width 0 too) and writes the window only; F_WINDOW for one that does
not, before any state is written; the sum does not wrap. -/
def Obligations.CtrCustomSetsAWindowThatFits : Prop :=
  (∀ (o w : Nat) (p : Prp) (s : State), s.halt = false → s.ctrValid = true → lookupPrp s.cfg s.ctr.prp = some p →
    o < 4096 → w < 4096 →
    (o + w ≤ p.pb → s.din = [] →
      ∃ c : CtrCtx, exec (.ctrCustom o w) s = .next { s with ctr := c, dout := [], cc := 0 } ∧
        c.counterOffset.toNat = o ∧ c.counterWidth.toNat = w ∧ c.prp = s.ctr.prp ∧ c.nonce = s.ctr.nonce ∧
        c.keymat = s.ctr.keymat ∧ c.nkeymat = s.ctr.nkeymat) ∧
    (p.pb < o + w → exec (.ctrCustom o w) s = .next (s.raiseFault .window))) ∧
  (∀ (o w : Nat) (s : State), s.halt = false → s.ctrValid = false →
    exec (.ctrCustom o w) s = .next (s.raiseFault .uninit)) ∧
  (∀ o w : Nat, encode (.ctrCustom o w)
    = 0x32000000#32 ||| (BitVec.ofNat 12 o).setWidth 32 <<< 12 ||| (BitVec.ofNat 12 w).setWidth 32)

/-- R108: CTR.DISCARD completes, empties the reservoir and changes nothing else; its faults and encoding. -/
def Obligations.CtrDiscardEmptiesTheReservoir : Prop :=
  (∀ s : State, s.halt = false → s.ctrValid = true → s.din = [] →
    exec .ctrDiscard s = .next { s with ctr := { s.ctr with nkeymat := 0 }, dout := [], cc := 0 }) ∧
  (∀ s : State, s.halt = false → s.ctrValid = false → exec .ctrDiscard s = .next (s.raiseFault .uninit)) ∧
  encode .ctrDiscard = 0x33000000 ∧
  (∀ (a : BitVec 24) (s : State), s.halt = false → a ≠ 0 →
    runCommand (commandWord 3 3 a) s = .next (s.raiseFault .illegal))

/-- R106: for a window inside the buffer, BeInc keeps the length and every byte outside the window, and the window's
big-endian value grows by one modulo `256^w`; a window of width 0 leaves the buffer as it is. The rule's second form: a last
byte that is not `0xFF` takes the increment alone, and one that is becomes 0 and passes the carry to the byte before it. -/
def Obligations.BigEndianIncrementCountsInTheWindow : Prop :=
  (∀ (buf : Bytes) (o w : Nat), o + w ≤ buf.length →
    (beInc buf o w).length = buf.length ∧
    windowValue (beInc buf o w) o w = (windowValue buf o w + 1) % 256 ^ w ∧
    (∀ k, k < o ∨ o + w ≤ k → (beInc buf o w).getD k 0 = buf.getD k 0) ∧
    (w = 0 → beInc buf o w = buf)) ∧
  (∀ (buf : Bytes) (o w : Nat), o + (w + 1) ≤ buf.length →
    (buf.getD (o + w) 0 ≠ 0xFF → beInc buf o (w + 1) = buf.set (o + w) (buf.getD (o + w) 0 + 1)) ∧
    (buf.getD (o + w) 0 = 0xFF → beInc buf o (w + 1) = (beInc buf o w).set (o + w) 0))

/-- R107 (with R65, R105, R109): CTR.CIPHER completes; `dout` is `din` XOR the unconsumed reservoir followed by fresh
keystream blocks, `ceil(max(0, n - nkeymat) / PB)` of them, one ENC request each, the counter advanced once each; nothing
else changes. -/
def Obligations.CtrCipherXorsTheKeystream : Prop :=
  (∀ (n : Nat) (p : Prp) (s : State), s.halt = false → s.ctrValid = true → s.ctr.Ok s.cfg →
    lookupPrp s.cfg s.ctr.prp = some p → s.din.length = n →
    let k := blocksNeeded s.ctr p.pb n
    let stream := s.ctr.unconsumed p.pb ++ joinBlocks k (keystreamBlockAt p s.ctr)
    ∃ c : CtrCtx,
      exec (.ctrCipher n) s = .next { s with
        ctr := c, din := [], cc := 0
        dout := xorBytes s.din (stream.take n)
        prpTrace := s.prpTrace ++ (List.range k).map fun j => ⟨s.ctr.prp, .enc, counterAfter s.ctr j⟩ } ∧
      n ≤ stream.length ∧
      c.prp = s.ctr.prp ∧ c.counterOffset = s.ctr.counterOffset ∧ c.counterWidth = s.ctr.counterWidth ∧
      c.nonce = counterAfter s.ctr k ∧ c.nkeymat.toNat + n = s.ctr.nkeymat.toNat + k * p.pb ∧
      c.unconsumed p.pb = stream.drop n ∧
      (k = 0 → c.keymat = s.ctr.keymat) ∧ (∀ j, k = j + 1 → c.keymat = keystreamBlockAt p s.ctr j)) ∧
  (∀ (n : Nat) (s : State), s.halt = false → s.ctrValid = false →
    exec (.ctrCipher n) s = .next (s.raiseFault .uninit)) ∧
  (∀ (n : Nat) (p : Prp) (s : State), s.halt = false → s.ctrValid = true → lookupPrp s.cfg s.ctr.prp = some p →
    p.pb ≤ s.ctr.nkeymat.toNat → exec (.ctrCipher n) s = .next (s.raiseFault .acc)) ∧
  (∀ n : Nat, encode (.ctrCipher n) = 0x31000000#32 ||| (BitVec.ofNat 24 n).setWidth 32)

/-- R113: after `j` increments the counter block is the nonce with its window replaced by `(value + j) mod 256^w`, so the
counter has period `256^w`. -/
def Obligations.CounterHasAClosedForm : Prop :=
  ∀ (c : CtrCtx) (j : Nat), c.counterOffset.toNat + c.counterWidth.toNat ≤ c.nonce.length →
    let o := c.counterOffset.toNat
    let w := c.counterWidth.toNat
    counterAfter c j = withWindow c.nonce o w ((windowValue c.nonce o w + j) % 256 ^ w) ∧
    counterAfter c (j + 256 ^ w) = counterAfter c j

/-- R113: after INIT, with the whole block or a window set by CUSTOM before the first CIPHER, stream byte `i` is XORed with
byte `i mod PB` of the encrypted counter block `floor(i / PB)`; where the counter and the reservoir end; the period. -/
def Obligations.KeystreamFromInitHasAClosedForm : Prop :=
  ∀ (s : State) (h : Handle) (p : Prp) (nonce input : Bytes) (o w : Nat) (custom : List (Instr × Bytes)),
    s.halt = false → bindablePrp s.cfg h = some p → nonce.length = p.pb →
    (custom = [] ∧ o = 0 ∧ w = p.pb) ∨ (custom = [(.ctrCustom o w, [])] ∧ o + w ≤ p.pb) →
    let counterBlock := fun j : Nat => withWindow nonce o w ((windowValue nonce o w + j) % 256 ^ w)
    ∃ (out : Bytes) (t : State),
      transcript ([(.ctrInit h, nonce)] ++ custom ++ [(.ctrCipher input.length, input)]) s
        = some ([([], 0)] ++ custom.map (fun _ => ([], 0)) ++ [(out, 0)], t) ∧
      out.length = input.length ∧
      (∀ i, i < input.length →
        out.getD i 0 = input.getD i 0 ^^^ (prpAnswer p .enc (counterBlock (i / p.pb))).getD (i % p.pb) 0) ∧
      t.ctr.nonce = counterBlock ((input.length + p.pb - 1) / p.pb) ∧
      t.ctr.nkeymat.toNat = (p.pb - input.length % p.pb) % p.pb ∧
      ∀ j, counterBlock (j + 256 ^ w) = counterBlock j

/-- R112: no command but CTR.INIT changes a byte of the counter block outside the window in force, nor its length. -/
def Obligations.BytesOutsideTheWindowNeverChange : Prop :=
  ∀ (i : Instr) (s t : State), s.ctrValid = true → s.ctr.Ok s.cfg → (∀ h, i ≠ .ctrInit h) → exec i s = .next t →
    t.ctr.nonce.length = s.ctr.nonce.length ∧
    ∀ k, k < s.ctr.counterOffset.toNat ∨ s.ctr.counterOffset.toNat + s.ctr.counterWidth.toNat ≤ k →
      t.ctr.nonce.getD k 0 = s.ctr.nonce.getD k 0

/-- R110: from the same nonce, with the same CUSTOM and DISCARD commands at the same positions, ciphering the output gives
the input back. -/
def Obligations.CtrCipherUndoesItself : Prop :=
  ∀ (s s' : State) (h : Handle) (p : Prp) (nonce : Bytes) (script : List (Instr × Bytes)) (replies : List Reply) (t : State),
    s.halt = false → s'.halt = false → bindablePrp s.cfg h = some p → s'.cfg = s.cfg → nonce.length = p.pb →
    (∀ c ∈ script, isCtrStreamCommand c.1 = true) →
    transcript ((.ctrInit h, nonce) :: script) s = some (([], 0) :: replies, t) → (∀ r ∈ replies, r.2 = 0) →
    ∃ t' : State,
      transcript ((.ctrInit h, nonce) :: List.zipWith (fun c r => (c.1, r.1)) script replies) s'
        = some (([], 0) :: script.map (fun c => (c.2, 0)), t')

/-- R111: any split of a byte stream over CIPHER commands, empty ones too, gives the output bytes, the CTR context and the
requests of one command over the whole stream. -/
def Obligations.CtrStreamsMayBeSplit : Prop :=
  ∀ (s : State) (chunks : List Bytes), s.halt = false → s.ctrValid = true → s.ctr.Ok s.cfg →
    ∃ (replies : List Reply) (t u : State),
      transcript (chunks.map fun c => (.ctrCipher c.length, c)) s = some (replies, t) ∧
      exec (.ctrCipher chunks.flatten.length) { s with din := chunks.flatten } = .next u ∧
      u.dout = outputBytes replies ∧ u.ctr = t.ctr ∧ u.prpTrace = t.prpTrace ∧ (∀ r ∈ replies, r.2 = 0) ∧ u.cc = 0

/-! ## The whole machine -/

/-- R95, R109, R100: how many PRP requests a command that completes makes, whatever its input bytes, of which direction, to
which handle; the trace only grows. -/
def Obligations.PrpRequestsOfEachCommand : Prop :=
  ∀ (i : Instr) (s t : State) (p : Prp) (input : Bytes), s.Inv → s.halt = false →
    exec i { s with din := input } = .next t → t.cc = 0 →
    ∃ new : List PrpRequest, t.prpTrace = s.prpTrace ++ new ∧
      (∀ n, i = .cbcEncrypt n → new.length = n ∧ ∀ q ∈ new, q.handle = s.cbc.prp ∧ q.dir = .enc) ∧
      (∀ n, i = .cbcDecrypt n → new.length = n ∧ ∀ q ∈ new, q.handle = s.cbc.prp ∧ q.dir = .dec) ∧
      (∀ n, i = .ctrCipher n → lookupPrp s.cfg s.ctr.prp = some p →
        new.length = blocksNeeded s.ctr p.pb n ∧ ∀ q ∈ new, q.handle = s.ctr.prp ∧ q.dir = .enc) ∧
      ((∀ n, i ≠ .cbcEncrypt n) → (∀ n, i ≠ .cbcDecrypt n) → (∀ n, i ≠ .ctrCipher n) → new = [])

/-- R43: a command that completes has consumed exactly `DinLen` bytes and produced exactly `DoutLen`; a fault and a refusal
produce nothing; a command whose `din` has another length never completes. That a fault is found before the length is
checked is log entry 6. -/
def Obligations.CommandsTakeAndGiveExactlyTheirBytes : Prop :=
  ∀ (i : Instr) (s : State), s.Inv → ∀ input : Bytes,
    (∀ t : State, exec i { s with din := input } = .next t →
      t.din = [] ∧
      (t.cc = 0 → input.length = dinLen s i ∧ t.dout.length = doutLen s i) ∧
      (t.cc ≠ 0 → t.dout = [])) ∧
    (input.length ≠ dinLen s i → s.halt = false →
      (∃ f, exec i { s with din := input } = .next ({ s with din := input }.raiseFault f)) ∨
      exec i { s with din := input } = .refused (.malformedTransaction (dinLen s i) input.length))

/-- R131: the transition table of the lifecycle flags and HALT. -/
def Obligations.LifecycleFollowsTheTransitionTable : Prop :=
  (∀ (s : State) (rest : List HostAction), s.pending = .reset :: rest →
    ∃ t, step s = .next t ∧ t.halt = false ∧ ∀ u, t.valid u = false) ∧
  (∀ (i : Instr) (s t : State), exec i s = .next t →
    (s.halt = false → t.cc = 0 →
      t.halt = false ∧ t.valid (unitOf i) = true ∧ (isInit i = true ∨ s.valid (unitOf i) = true) ∧
      ∀ u, u ≠ unitOf i → t.valid u = s.valid u) ∧
    (s.halt = false → t.cc ≠ 0 → t.halt = true ∧ ∀ u, t.valid u = s.valid u) ∧
    (s.halt = true → t = { s with cc := ccHalted, dout := [], din := [] }))

/-- R24, R21: a command reads and writes the context of its own unit only; FINAL writes no context at all; only the
fields named may change. -/
def Obligations.CommandsTouchTheirOwnContextOnly : Prop :=
  ∀ (i : Instr) (s t : State), exec i s = .next t →
    (unitOf i ≠ .hash → t.hash = s.hash ∧ t.hashValid = s.hashValid) ∧
    (unitOf i ≠ .cbc → t.cbc = s.cbc ∧ t.cbcValid = s.cbcValid) ∧
    (unitOf i ≠ .ctr → t.ctr = s.ctr ∧ t.ctrValid = s.ctrValid) ∧
    (i = .sha256Final ∨ i = .sha224Final → t.hash = s.hash) ∧
    (isInit i = false → t.cbc.prp = s.cbc.prp ∧ t.ctr.prp = s.ctr.prp) ∧
    (unitOf i = .hash → t.prpTrace = s.prpTrace) ∧
    t.cfg = s.cfg ∧ t.pending = s.pending ∧ t.observed = s.observed ∧ t.freeReads = s.freeReads

/-- R24: a command reads the context and the VALID flag of its own unit only. Two COREs of one configuration that agree on
these, on HALT and on the command's input answer alike and agree on that unit afterwards, whatever the other units hold. -/
def Obligations.CommandsReadTheirOwnContextOnly : Prop :=
  ∀ (i : Instr) (s s' : State),
    s'.cfg = s.cfg → s'.halt = s.halt → s'.din = s.din → s'.valid (unitOf i) = s.valid (unitOf i) →
    (unitOf i = .hash → s'.hash = s.hash) → (unitOf i = .cbc → s'.cbc = s.cbc) → (unitOf i = .ctr → s'.ctr = s.ctr) →
    (∃ t t' : State, exec i s = .next t ∧ exec i s' = .next t' ∧ t'.dout = t.dout ∧ t'.cc = t.cc ∧ t'.halt = t.halt ∧
      t'.valid (unitOf i) = t.valid (unitOf i) ∧ (unitOf i = .hash → t'.hash = t.hash) ∧
      (unitOf i = .cbc → t'.cbc = t.cbc) ∧ (unitOf i = .ctr → t'.ctr = t.ctr)) ∨
    (∃ f, exec i s = .fault f ∧ exec i s' = .fault f) ∨
    (∃ r, exec i s = .refused r ∧ exec i s' = .refused r)

/-- R22, R26, R27: no step changes the configuration, and the record of what was observed and requested only grows. -/
def Obligations.ConfigurationIsFixedAndHistoryGrows : Prop :=
  ∀ s t : State, step s = .next t →
    t.cfg = s.cfg ∧ t.pending = s.pending.tail ∧ s.observed <+: t.observed ∧ s.prpTrace <+: t.prpTrace

/-- R19: every step keeps the invariant. -/
def Obligations.EveryStepKeepsTheInvariant : Prop :=
  ∀ s t : State, s.Inv → step s = .next t → t.Inv

/-- R19: the state after reset meets the invariant, in every configuration. -/
def Obligations.ResetStateMeetsTheInvariant : Prop :=
  State.reset.Inv ∧ ∀ c : Config, (State.resetWith c).Inv

/-- The invariant rules out the model's own fault: a state that meets it always has a next state, but for a malformed
transaction. -/
def Obligations.OnlyMalformedTransactionsHaveNoStep : Prop :=
  ∀ s : State, s.Inv →
    (∃ t, step s = .next t) ∨
    ∃ (w : Word) (i : Instr) (input : Bytes) (rest : List HostAction), s.pending = .command w input :: rest ∧
      decode w = .ok i ∧ input.length ≠ dinLen s i ∧
      step s = .refused (.malformedTransaction (dinLen s i) input.length)

/-- R23, R126, 93 U4 and U5: what a context holds while its VALID flag is 0, and stale buffer bytes, can never be observed:
two states that differ only there answer every step alike and stay so. In particular the values that log entry 4 gives the
registers at reset have no observable effect. -/
def Obligations.UnspecifiedValuesAreNeverObserved : Prop :=
  ∀ s s' : State, s.Inv → s'.Inv → s.Indistinguishable s' →
    (∃ t t', step s = .next t ∧ step s' = .next t' ∧ t.Indistinguishable t') ∨
    (∃ r, step s = .refused r ∧ step s' = .refused r)
end

