-- ==== Sys2Proof/Laws/Bytes.lean ====
section
/-! SUPPORT. Byte strings: lengths, the big-endian value and its inverse, writes into a buffer, cutting into blocks. -/

namespace Sys2Proof.Machine

/-! ## Lengths -/

@[simp] theorem zeros_length (n : Nat) : (zeros n).length = n := List.length_replicate

@[simp] theorem beBytes_length (n v : Nat) : (beBytes n v).length = n := by simp [beBytes]

@[simp] theorem be32_length (w : Word) : (be32 w).length = 4 := beBytes_length 4 _

@[simp] theorem be64_length (v : Nat) : (be64 v).length = 8 := beBytes_length 8 _

@[simp] theorem xorBytes_length (s t : Bytes) : (xorBytes s t).length = min s.length t.length := List.length_zipWith

@[simp] theorem xorBytes_nil (t : Bytes) : xorBytes [] t = [] := rfl

theorem xorBytes_append {a b c d : Bytes} (h : a.length = c.length) :
    xorBytes (a ++ b) (c ++ d) = xorBytes a c ++ xorBytes b d := List.zipWith_append h

theorem xorBytes_self_cancel (s t : Bytes) (h : s.length ≤ t.length) : xorBytes (xorBytes s t) t = s := by
  induction s generalizing t with
  | nil => rfl
  | cons x s ih =>
    cases t with
    | nil => simp at h
    | cons y t =>
      have ih' := ih t (by simpa using h)
      simp only [xorBytes, List.zipWith_cons_cons] at ih' ⊢
      rw [ih', BitVec.xor_assoc, BitVec.xor_self, BitVec.xor_zero]

theorem xorBytes_getD (s t : Bytes) (k : Nat) (hs : k < s.length) (ht : k < t.length) :
    (xorBytes s t).getD k 0 = s.getD k 0 ^^^ t.getD k 0 := by
  simp [xorBytes, List.getD_eq_getElem?_getD, hs, ht]

/-! ## The big-endian value -/

@[simp] theorem beValue_nil : beValue [] = 0 := rfl

theorem beValue_foldl (v : Nat) (s : Bytes) :
    s.foldl (fun v b => v * 256 + b.toNat) v = v * 256 ^ s.length + beValue s := by
  unfold beValue
  induction s generalizing v with
  | nil => simp
  | cons b s ih =>
    simp only [List.foldl_cons, List.length_cons]
    rw [ih, ih (0 * 256 + b.toNat)]
    ring

theorem beValue_append (s t : Bytes) : beValue (s ++ t) = beValue s * 256 ^ t.length + beValue t := by
  rw [beValue, List.foldl_append, beValue_foldl]
  rfl

theorem beValue_cons (b : Byte) (s : Bytes) : beValue (b :: s) = b.toNat * 256 ^ s.length + beValue s := by
  simpa [beValue] using beValue_foldl b.toNat s

theorem beValue_concat (s : Bytes) (b : Byte) : beValue (s ++ [b]) = beValue s * 256 + b.toNat := by
  rw [beValue_append]
  simp [beValue]

theorem beValue_lt (s : Bytes) : beValue s < 256 ^ s.length := by
  induction s with
  | nil => simp
  | cons b s ih =>
    rw [beValue_cons, List.length_cons, pow_succ]
    have hb : b.toNat < 256 := b.isLt
    nlinarith

@[simp] theorem beBytes_zero (v : Nat) : beBytes 0 v = [] := rfl

/-- The last byte of `beBytes` is the value modulo 256, the others are those of the quotient. -/
theorem beBytes_succ (n v : Nat) : beBytes (n + 1) v = beBytes n (v / 256) ++ [BitVec.ofNat 8 v] := by
  simp only [beBytes, List.range_succ, List.map_append, List.map_cons, List.map_nil]
  congr 1
  · refine List.map_congr_left fun i hi => ?_
    have hi' : i < n := List.mem_range.mp hi
    rw [show 8 * (n + 1 - 1 - i) = 8 + 8 * (n - 1 - i) by omega, Nat.shiftRight_add,
      Nat.shiftRight_eq_div_pow v 8]
  · simp

theorem beValue_beBytes (n v : Nat) : beValue (beBytes n v) = v % 256 ^ n := by
  induction n generalizing v with
  | zero => simp [Nat.mod_one]
  | succ n ih =>
    rw [beBytes_succ, beValue_concat, ih, pow_succ, BitVec.toNat_ofNat, Nat.mul_comm (256 ^ n), Nat.mod_mul]
    omega

theorem beBytes_beValue (s : Bytes) : beBytes s.length (beValue s) = s := by
  induction s using List.reverseRecOn with
  | nil => rfl
  | append_singleton s b ih =>
    rw [List.length_append, List.length_singleton, beBytes_succ, beValue_concat]
    have hb : b.toNat < 256 := b.isLt
    congr 1
    · rw [show (beValue s * 256 + b.toNat) / 256 = beValue s by omega]
      exact ih
    · rw [List.cons.injEq]
      refine ⟨?_, rfl⟩
      apply BitVec.eq_of_toNat_eq
      simpa [Nat.add_mod] using hb

/-! ## Writing into a buffer -/

theorem firstBytes_length {B : Nat} (buf : Vector Byte B) (n : Nat) : (firstBytes buf n).length = min n B := by
  simp [firstBytes]

theorem writeAt_nil {B : Nat} (buf : Vector Byte B) (off : Nat) : writeAt buf off [] = buf := by
  refine Vector.ext fun i hi => ?_
  have : ¬ (off ≤ i ∧ i < off) := by omega
  simp [writeAt, this]

/-- Appending to the buffered bytes: the first `off + len` bytes are the old first `off` and the new ones. -/
theorem firstBytes_writeAt {B : Nat} (buf : Vector Byte B) (off : Nat) (bs : Bytes) (h : off + bs.length ≤ B) :
    firstBytes (writeAt buf off bs) (off + bs.length) = firstBytes buf off ++ bs := by
  apply List.ext_getElem
  · simp [firstBytes]; omega
  · intro i h1 h2
    simp only [firstBytes, List.length_take, Vector.length_toList] at h1
    have hi : i < B := by omega
    by_cases hlt : i < off
    · have : ¬ (off ≤ i) := by omega
      rw [List.getElem_append_left (by simp [firstBytes]; omega)]
      simp [firstBytes, writeAt, this]
    · have hge : off ≤ i ∧ i < off + bs.length := by omega
      rw [List.getElem_append_right (by simp [firstBytes]; omega)]
      simp only [firstBytes, writeAt, List.getElem_take, Vector.getElem_toList, Vector.getElem_ofFn, hge, and_self,
        if_true]
      have hoff : (List.take off buf.toList).length = off := by simp; omega
      rw [List.getD_eq_getElem?_getD, List.getElem?_eq_getElem (by omega)]
      simp only [Option.getD_some, hoff]

/-! ## Whole blocks and the tail -/

theorem blocksOf_of_lt {B : Nat} {s : Bytes} (h : s.length < B) : blocksOf B s = [] := by
  simp [blocksOf, Nat.div_eq_of_lt h]

theorem tailOf_of_lt {B : Nat} {s : Bytes} (h : s.length < B) : tailOf B s = s := by
  simp [tailOf, Nat.div_eq_of_lt h]

theorem blocksOf_append_block {B : Nat} (hB : 0 < B) {a : Bytes} (ha : a.length = B) (s : Bytes) :
    blocksOf B (a ++ s) = a :: blocksOf B s := by
  have hdiv : (a ++ s).length / B = s.length / B + 1 := by
    rw [List.length_append, ha, Nat.add_div_left _ hB]
  simp only [blocksOf, hdiv, List.range_succ_eq_map, List.map_cons, List.map_map]
  congr 1
  · simp [← ha]
  · refine List.map_congr_left fun i _ => ?_
    simp only [Function.comp, Nat.succ_eq_add_one]
    rw [show B * (i + 1) = a.length + B * i by rw [ha]; ring, ← List.drop_drop, List.drop_left]

theorem tailOf_append_block {B : Nat} (hB : 0 < B) {a : Bytes} (ha : a.length = B) (s : Bytes) :
    tailOf B (a ++ s) = tailOf B s := by
  have hdiv : (a ++ s).length / B = s.length / B + 1 := by
    rw [List.length_append, ha, Nat.add_div_left _ hB]
  rw [tailOf, tailOf, hdiv, show B * (s.length / B + 1) = a.length + B * (s.length / B) by rw [ha]; ring,
    ← List.drop_drop, List.drop_left]

@[simp] theorem tailOf_length (B : Nat) (s : Bytes) : (tailOf B s).length = s.length % B := by
  rw [tailOf, List.length_drop, Nat.mod_def]

@[simp] theorem blocksOf_length (B : Nat) (s : Bytes) : (blocksOf B s).length = s.length / B := by
  simp [blocksOf]

/-- Cutting a longer string: the blocks of the first part, then those of its tail with the rest. -/
theorem blocksOf_append {B : Nat} (hB : 0 < B) (s t : Bytes) :
    blocksOf B (s ++ t) = blocksOf B s ++ blocksOf B (tailOf B s ++ t) ∧
    tailOf B (s ++ t) = tailOf B (tailOf B s ++ t) := by
  induction hn : s.length / B generalizing s with
  | zero =>
    have hlt : s.length < B := (Nat.div_eq_zero_iff.mp hn).resolve_left (by omega)
    simp [blocksOf_of_lt hlt, tailOf_of_lt hlt]
  | succ n ih =>
    have hle : B ≤ s.length := by
      by_contra hc
      rw [Nat.div_eq_of_lt (by omega)] at hn
      omega
    have ha : (s.take B).length = B := by simp [hle]
    have hs : s = s.take B ++ s.drop B := (List.take_append_drop B s).symm
    have hd : (s.drop B).length / B = n := by
      have := Nat.add_div_right (s.length - B) hB
      rw [Nat.sub_add_cancel hle] at this
      rw [List.length_drop]
      omega
    obtain ⟨h1, h2⟩ := ih (s.drop B) hd
    have e1 : blocksOf B s = s.take B :: blocksOf B (s.drop B) := by
      conv_lhs => rw [hs, blocksOf_append_block hB ha]
    have e2 : tailOf B s = tailOf B (s.drop B) := by
      conv_lhs => rw [hs, tailOf_append_block hB ha]
    have e3 : s ++ t = s.take B ++ (s.drop B ++ t) := by rw [← List.append_assoc, ← hs]
    rw [e3, blocksOf_append_block hB ha, tailOf_append_block hB ha, h1, h2, e1, e2]
    simp

end Sys2Proof.Machine
end

