-- ==== Sys2Proof/Laws/Accumulator.lean ====
section
/-! SUPPORT. What the two modes of the Block Accumulator do (40_accumulator.md R63, R65), said once. -/

namespace Sys2Proof.Machine

/-! ## Feed mode -/

variable {B : Nat} {σ : Type} {process : σ → Bytes → σ}

/-- The effect of feeding `input` to `f`: the whole blocks of the buffered bytes and the input are processed in order, the
tail is buffered (R64). -/
structure Fed (process : σ → Bytes → σ) (f : Feed B σ) (input : Bytes) (g : Feed B σ) : Prop where
  n : g.n = (f.n + input.length) % B
  ctx : g.ctx = (blocksOf B (firstBytes f.buf f.n ++ input)).foldl process f.ctx
  buffered : firstBytes g.buf g.n = tailOf B (firstBytes f.buf f.n ++ input)

theorem firstBytes_zero (buf : Vector Byte B) : firstBytes buf 0 = [] := rfl

theorem firstBytes_length_of_le {n : Nat} (buf : Vector Byte B) (h : n ≤ B) : (firstBytes buf n).length = n := by
  rw [firstBytes_length, Nat.min_eq_left h]

/-- Feeding nothing. -/
theorem Fed.nil {f : Feed B σ} (h : f.n < B) : Fed process f [] f where
  n := by simp [Nat.mod_eq_of_lt h]
  ctx := by rw [List.append_nil, blocksOf_of_lt (by rw [firstBytes_length_of_le _ h.le]; exact h)]; rfl
  buffered := by rw [List.append_nil, tailOf_of_lt (by rw [firstBytes_length_of_le _ h.le]; exact h)]

/-- Feeding in two parts. -/
theorem Fed.append (hB : 0 < B) {f g k : Feed B σ} {a b : Bytes} (h1 : Fed process f a g) (h2 : Fed process g b k) :
    Fed process f (a ++ b) k := by
  obtain ⟨e1, e2⟩ := blocksOf_append hB (firstBytes f.buf f.n ++ a) b
  refine ⟨?_, ?_, ?_⟩
  · rw [h2.n, h1.n, List.length_append, Nat.mod_add_mod, Nat.add_assoc]
  · rw [h2.ctx, h1.ctx, h1.buffered, ← List.append_assoc, e1, List.foldl_append]
  · rw [h2.buffered, h1.buffered, ← List.append_assoc, e2]

/-- Appending bytes that fit into the block. -/
theorem feedAppend_fed (hB : 0 < B) {f : Feed B σ} {bs : Bytes} (h : f.n + bs.length ≤ B) :
    Fed process f bs (feedAppend process bs f) := by
  have hlen : (firstBytes f.buf f.n ++ bs).length = f.n + bs.length := by
    rw [List.length_append, firstBytes_length_of_le _ (by omega)]
  have hw := firstBytes_writeAt f.buf f.n bs h
  unfold feedAppend
  by_cases hfull : f.n + bs.length = B
  · have hb : blocksOf B (firstBytes f.buf f.n ++ bs) = [firstBytes f.buf f.n ++ bs] := by
      simpa [blocksOf_of_lt (B := B) (s := []) hB] using blocksOf_append_block hB (hlen.trans hfull) []
    have ht : tailOf B (firstBytes f.buf f.n ++ bs) = [] := by
      simpa [tailOf_of_lt (B := B) (s := []) hB] using tailOf_append_block hB (hlen.trans hfull) []
    rw [hfull] at hw
    simp only [hfull, if_true]
    refine ⟨by simp [hfull], by simp [hb, hw], by simp [ht, firstBytes_zero]⟩
  · have hlt : f.n + bs.length < B := by omega
    simp only [hfull, if_false]
    exact ⟨by simp [Nat.mod_eq_of_lt hlt], by rw [blocksOf_of_lt (by omega)]; rfl,
      by rw [tailOf_of_lt (by omega)]; exact hw⟩

theorem feedBlocks_eq (process : σ → Bytes → σ) (count : Nat) (input : Bytes) (c : σ) :
    feedBlocks B process count input c =
      (((List.range count).map fun i => (input.drop (B * i)).take B).foldl process c, input.drop (B * count)) := by
  induction count generalizing input c with
  | zero => simp [feedBlocks]
  | succ count ih =>
    rw [feedBlocks, ih, List.range_succ_eq_map, List.map_cons, List.map_map, List.foldl_cons]
    simp only [Function.comp_def, List.drop_drop, Nat.succ_eq_add_one, Nat.mul_zero, List.drop_zero]
    congr 2
    · refine List.map_congr_left fun i _ => ?_
      rw [show B + B * i = B * (i + 1) by ring]
    · ring

/-- Phases 2 and 3 from an empty buffer. -/
theorem feedRest_fed (hB : 0 < B) {f : Feed B σ} (h : f.n = 0) (input : Bytes) :
    Fed process f input
      (feedTail process (feedBlocks B process (input.length / B) input f.ctx).2
        { f with ctx := (feedBlocks B process (input.length / B) input f.ctx).1 }) := by
  have hfb : feedBlocks B process (input.length / B) input f.ctx =
      ((blocksOf B input).foldl process f.ctx, tailOf B input) := feedBlocks_eq process _ input f.ctx
  have hmid : Fed process f (input.take (B * (input.length / B)))
      { f with ctx := (blocksOf B input).foldl process f.ctx } := by
    have hlen : (input.take (B * (input.length / B))).length = B * (input.length / B) := by
      rw [List.length_take, Nat.min_eq_left (Nat.mul_div_le _ _)]
    have hsplit := blocksOf_append hB (input.take (B * (input.length / B))) (tailOf B input)
    rw [show input.take (B * (input.length / B)) ++ tailOf B input = input from List.take_append_drop _ _] at hsplit
    have htail : tailOf B (input.take (B * (input.length / B))) = [] := by
      apply List.eq_nil_of_length_eq_zero
      rw [tailOf_length, hlen, Nat.mul_mod_right]
    rw [htail, List.nil_append, blocksOf_of_lt (s := tailOf B input) (by rw [tailOf_length]; exact Nat.mod_lt _ hB),
      List.append_nil] at hsplit
    refine ⟨?_, ?_, ?_⟩
    · simp only [h, Nat.zero_add, hlen, Nat.mul_mod_right]
    · rw [h, firstBytes_zero, List.nil_append, hsplit.1]
    · simp only [h, firstBytes_zero, List.nil_append, htail]
  rw [hfb]
  have htl : (tailOf B input).length < B := by rw [tailOf_length]; exact Nat.mod_lt _ hB
  have hend : Fed process { f with ctx := (blocksOf B input).foldl process f.ctx } (tailOf B input)
      (feedTail process (tailOf B input) { f with ctx := (blocksOf B input).foldl process f.ctx }) := by
    unfold feedTail
    split
    · exact feedAppend_fed hB (by simp only [h]; omega)
    · next hne =>
      rw [List.eq_nil_of_length_eq_zero (l := tailOf B input) (by omega)]
      exact Fed.nil (by simp only [h]; exact hB)
  have := hmid.append hB hend
  rwa [show input.take (B * (input.length / B)) ++ tailOf B input = input from List.take_append_drop _ _] at this

/-- The three phases of R63, after the entry check. -/
theorem accFeed_eq {f : Feed B σ} (h : f.n < B) (input : Bytes) :
    accFeed process input f =
      some (feedTail process
        (feedBlocks B process ((feedTopUp process input f).2.length / B) (feedTopUp process input f).2
          (feedTopUp process input f).1.ctx).2
        { (feedTopUp process input f).1 with
          ctx :=
            (feedBlocks B process ((feedTopUp process input f).2.length / B) (feedTopUp process input f).2
              (feedTopUp process input f).1.ctx).1 }) := by
  rw [accFeed, if_neg (by omega)]

/-- `AccFeed` (R63, R64): it faults exactly when the count is not below the block size; otherwise it processes the whole
blocks in order and buffers the tail. -/
theorem accFeed_fed {f : Feed B σ} (h : f.n < B) (input : Bytes) :
    ∃ g, accFeed process input f = some g ∧ Fed process f input g := by
  have hB : 0 < B := by omega
  refine ⟨_, accFeed_eq h input, ?_⟩
  by_cases hn : 0 < f.n
  · simp only [feedTopUp, hn, if_true]
    by_cases hfit : f.n + input.length < B
    · have hk : min (B - f.n) input.length = input.length := by omega
      simp only [hk, List.take_length, List.drop_length]
      have hfed := feedAppend_fed (process := process) hB (f := f) (bs := input) (by omega)
      simpa [feedBlocks, feedTail] using hfed
    · have hk : min (B - f.n) input.length = B - f.n := by omega
      have hlen : (input.take (B - f.n)).length = B - f.n := by rw [List.length_take]; omega
      simp only [hk]
      have h1 := feedAppend_fed (process := process) hB (f := f) (bs := input.take (B - f.n)) (by omega)
      have h0 : (feedAppend process (input.take (B - f.n)) f).n = 0 := by
        rw [h1.n, hlen, Nat.add_sub_cancel' h.le, Nat.mod_self]
      have h2 := h1.append hB (feedRest_fed (process := process) hB h0 (input.drop (B - f.n)))
      rwa [List.take_append_drop] at h2
  · simp only [feedTopUp, hn, if_false]
    exact feedRest_fed hB (by omega) input

theorem accFeed_eq_none {f : Feed B σ} (h : B ≤ f.n) (input : Bytes) : accFeed process input f = none := if_pos h

/-- Feeding nothing changes nothing, stale bytes included (R63, corner case). -/
theorem accFeed_nil {f : Feed B σ} (h : f.n < B) : accFeed process [] f = some f := by
  rw [accFeed_eq h]
  by_cases hn : 0 < f.n
  · have hne : f.n ≠ B := by omega
    simp [feedTopUp, hn, feedAppend, writeAt_nil, hne, feedBlocks, feedTail]
  · simp [feedTopUp, hn, feedBlocks, feedTail]

/-! ## XOR mode -/

/-- The user's context after `j` blocks have been made. -/
def contextAfter (makeBlock : σ → Bytes × σ) : Nat → σ → σ
  | 0, c => c
  | j + 1, c => contextAfter makeBlock j (makeBlock c).2

/-- The first `j` blocks, joined. -/
def madeBlocks (makeBlock : σ → Bytes × σ) : Nat → σ → Bytes
  | 0, _ => []
  | j + 1, c => (makeBlock c).1 ++ madeBlocks makeBlock j (makeBlock c).2

/-- The bytes of a reservoir not yet consumed (R65). -/
def Reservoir.unread (B : Nat) (r : Reservoir σ) : Bytes := (r.keymat.drop (B - r.n)).take r.n

/-- How many blocks `len` bytes take from a reservoir that holds `n` (R65). -/
def blocksFor (B n len : Nat) : Nat := (len - n + B - 1) / B

theorem blocksFor_le {n len : Nat} (hB : 0 < B) (h : len ≤ n) : blocksFor B n len = 0 := by
  rw [blocksFor, Nat.div_eq_zero_iff]
  omega

theorem blocksFor_empty_succ (hB : 0 < B) (len : Nat) : blocksFor B 0 (len + 1) = blocksFor B (B - 1) len + 1 := by
  unfold blocksFor
  rw [show len + 1 - 0 + B - 1 = len + B by omega, Nat.add_div_right _ hB]
  by_cases h : len ≤ B - 1
  · rw [Nat.div_eq_of_lt (by omega), Nat.div_eq_of_lt (by omega)]
  · rw [show len - (B - 1) + B - 1 = len by omega]

theorem blocksFor_succ_succ (n len : Nat) : blocksFor B (n + 1) (len + 1) = blocksFor B n len := by
  rw [blocksFor, blocksFor, Nat.add_sub_add_right]

/-- The effect of XOR mode on `input` (R65, R67): with `k` fresh blocks, the output is the input XOR the unread bytes
followed by those blocks. -/
structure Xored (B : Nat) (makeBlock : σ → Bytes × σ) (r : Reservoir σ) (input : Bytes) (out : Bytes) (q : Reservoir σ) :
    Prop where
  out : out = xorBytes input
    ((r.unread B ++ madeBlocks makeBlock (blocksFor B r.n input.length) r.ctx).take input.length)
  enough : input.length ≤ (r.unread B ++ madeBlocks makeBlock (blocksFor B r.n input.length) r.ctx).length
  unread : q.unread B = (r.unread B ++ madeBlocks makeBlock (blocksFor B r.n input.length) r.ctx).drop input.length
  ctx : q.ctx = contextAfter makeBlock (blocksFor B r.n input.length) r.ctx
  n : q.n + input.length = r.n + blocksFor B r.n input.length * B
  lt : q.n < B
  full : q.n ≠ 0 → q.keymat.length = B
  same : blocksFor B r.n input.length = 0 → q.keymat = r.keymat
  last : ∀ j, blocksFor B r.n input.length = j + 1 → q.keymat = (makeBlock (contextAfter makeBlock j r.ctx)).1

theorem unread_of_zero {r : Reservoir σ} (h : r.n = 0) : r.unread B = [] := by simp [Reservoir.unread, h]

theorem unread_cons {r : Reservoir σ} {n : Nat} (hn : r.n = n + 1) (hle : r.n ≤ B) (hlen : r.keymat.length = B) :
    r.unread B = r.keymat.getD (B - r.n) 0 :: Reservoir.unread B { r with n := n } := by
  obtain ⟨keymat, m, ctx⟩ := r
  obtain rfl : m = n + 1 := hn
  have hlt : B - (n + 1) < keymat.length := by simp only at hle hlen; omega
  have hsucc : B - (n + 1) + 1 = B - n := by simp only at hle; omega
  simp only [Reservoir.unread]
  rw [List.drop_eq_getElem_cons hlt, List.take_succ_cons, hsucc, List.getD_eq_getElem?_getD,
    List.getElem?_eq_getElem hlt, Option.getD_some]

theorem xorBytewise_xored {makeBlock : σ → Bytes × σ} (hmk : ∀ c, (makeBlock c).1.length = B) (input : Bytes)
    (r : Reservoir σ) (hn : r.n < B) (hfull : r.n ≠ 0 → r.keymat.length = B) :
    Xored B makeBlock r input (xorBytewise B makeBlock input r).1 (xorBytewise B makeBlock input r).2 := by
  have hB : 0 < B := by omega
  induction input generalizing r with
  | nil =>
    have h0 : blocksFor B r.n ([] : Bytes).length = 0 := blocksFor_le hB (Nat.zero_le _)
    refine ⟨?_, ?_, ?_, ?_, ?_, hn, hfull, fun _ => rfl, fun j hj => ?_⟩
    · rfl
    · simp
    · rw [h0]; simp [madeBlocks, xorBytewise]
    · rw [h0]; rfl
    · rw [h0]; simp [xorBytewise]
    · omega
  | cons x input ih =>
    rcases Nat.eq_zero_or_pos r.n with hz | hpos
    · -- the reservoir is empty: one block is made, its first byte used
      have hk : blocksFor B r.n (x :: input).length = blocksFor B (B - 1) input.length + 1 := by
        rw [hz, List.length_cons, blocksFor_empty_succ hB]
      have hr1 : refill B makeBlock r = ⟨(makeBlock r.ctx).1, B, (makeBlock r.ctx).2⟩ := by rw [refill, if_pos hz]
      have hb := unread_cons (B := B) (r := ⟨(makeBlock r.ctx).1, B, (makeBlock r.ctx).2⟩) (n := B - 1)
        (by simp only; omega) (Nat.le_refl B) (hmk _)
      have hb' : (makeBlock r.ctx).1 = Reservoir.unread B ⟨(makeBlock r.ctx).1, B, (makeBlock r.ctx).2⟩ := by
        simp [Reservoir.unread, ← hmk r.ctx]
      have IH := ih ⟨(makeBlock r.ctx).1, B - 1, (makeBlock r.ctx).2⟩ (by simp only; omega) (fun _ => hmk _)
      have hstream : r.unread B ++ madeBlocks makeBlock (blocksFor B r.n (x :: input).length) r.ctx
          = (makeBlock r.ctx).1.getD (B - B) 0 ::
            (Reservoir.unread B ⟨(makeBlock r.ctx).1, B - 1, (makeBlock r.ctx).2⟩ ++
              madeBlocks makeBlock (blocksFor B (B - 1) input.length) (makeBlock r.ctx).2) := by
        rw [unread_of_zero hz, List.nil_append, hk, madeBlocks, ← List.cons_append, ← hb, ← hb']
      simp only [xorBytewise, hr1]
      refine ⟨?_, ?_, ?_, ?_, ?_, IH.lt, IH.full, fun h => by omega, fun j hj => ?_⟩
      · rw [hstream, IH.out]; rfl
      · rw [hstream]; have := IH.enough; simp only [List.length_cons] at this ⊢; omega
      · rw [hstream, IH.unread]; rfl
      · rw [hk, IH.ctx]; rfl
      · have := IH.n; simp only [List.length_cons] at this hk ⊢; rw [hk, hz]; ring_nf at this ⊢; omega
      · rw [hk] at hj
        cases j with
        | zero => exact IH.same (by simp only; omega)
        | succ j => rw [contextAfter]; exact IH.last j (by simp only; omega)
    · -- a byte is left
      obtain ⟨n, hn1⟩ : ∃ n, r.n = n + 1 := ⟨r.n - 1, by omega⟩
      have hk : blocksFor B r.n (x :: input).length = blocksFor B n input.length := by
        rw [hn1, List.length_cons, blocksFor_succ_succ]
      have hr1 : refill B makeBlock r = r := by rw [refill, if_neg (by omega)]
      have hb := unread_cons (B := B) hn1 hn.le (hfull (by omega))
      have IH := ih { r with n := n } (by simp only; omega) (fun _ => hfull (by omega))
      have hstream : r.unread B ++ madeBlocks makeBlock (blocksFor B r.n (x :: input).length) r.ctx
          = r.keymat.getD (B - r.n) 0 :: (Reservoir.unread B { r with n := n } ++
              madeBlocks makeBlock (blocksFor B n input.length) r.ctx) := by
        rw [hk, hb]; rfl
      have hpred : r.n - 1 = n := by omega
      simp only [xorBytewise, hr1, hpred]
      refine ⟨?_, ?_, ?_, ?_, ?_, IH.lt, IH.full, fun h => IH.same (by rw [hk] at h; exact h),
        fun j hj => IH.last j (by rw [hk] at hj; exact hj)⟩
      · rw [hstream, IH.out]; rfl
      · rw [hstream]; have := IH.enough; simp only [List.length_cons] at this ⊢; omega
      · rw [hstream, IH.unread]; rfl
      · rw [hk, IH.ctx]
      · have := IH.n; simp only [List.length_cons] at this hk ⊢; rw [hk, hn1]; omega

/-- `AccXor` (R65): it faults exactly when the count is not below the block size. -/
theorem accXor_xored {makeBlock : σ → Bytes × σ} (hmk : ∀ c, (makeBlock c).1.length = B) (input : Bytes)
    (r : Reservoir σ) (hn : r.n < B) (hfull : r.n ≠ 0 → r.keymat.length = B) :
    ∃ out q, accXor B makeBlock input r = some (out, q) ∧ Xored B makeBlock r input out q :=
  ⟨_, _, by rw [accXor, if_neg (by omega)], xorBytewise_xored hmk input r hn hfull⟩

theorem accXor_eq_none {makeBlock : σ → Bytes × σ} {r : Reservoir σ} (h : B ≤ r.n) (input : Bytes) :
    accXor B makeBlock input r = none := if_pos h

/-- Two runs of the byte loop whose contexts are related by something that making a block respects give the same bytes and
leave related contexts. -/
theorem xorBytewise_related {σ : Type} (B : Nat) (mk : σ → Bytes × σ) (R : σ → σ → Prop)
    (hR : ∀ c c', R c c' → (mk c).1 = (mk c').1 ∧ R (mk c).2 (mk c').2) (input : Bytes) :
    ∀ (k : Bytes) (n : Nat) (c c' : σ), R c c' →
      (xorBytewise B mk input ⟨k, n, c⟩).1 = (xorBytewise B mk input ⟨k, n, c'⟩).1 ∧
      (xorBytewise B mk input ⟨k, n, c⟩).2.keymat = (xorBytewise B mk input ⟨k, n, c'⟩).2.keymat ∧
      (xorBytewise B mk input ⟨k, n, c⟩).2.n = (xorBytewise B mk input ⟨k, n, c'⟩).2.n ∧
      R (xorBytewise B mk input ⟨k, n, c⟩).2.ctx (xorBytewise B mk input ⟨k, n, c'⟩).2.ctx := by
  induction input with
  | nil =>
    intro k n c c' h
    exact ⟨rfl, rfl, rfl, h⟩
  | cons x rest ih =>
    intro k n c c' h
    by_cases hn : n = 0
    · obtain ⟨h1, h2⟩ := hR c c' h
      obtain ⟨e1, e2, e3, e4⟩ := ih (mk c).1 (B - 1) _ _ h2
      simp only [xorBytewise, refill, hn, if_true, ← h1]
      exact ⟨by rw [e1], e2, e3, e4⟩
    · obtain ⟨e1, e2, e3, e4⟩ := ih k (n - 1) _ _ h
      simp only [xorBytewise, refill, hn, if_false]
      exact ⟨by rw [e1], e2, e3, e4⟩

end Sys2Proof.Machine
end

