-- ==== Sys2Proof/Laws/State.lean ====
section
/-! SUPPORT. What each named update of the state does to each field; every lemma is true by unfolding. -/

namespace Sys2Proof.Machine

@[simp] theorem State.raiseFault_cfg (f : FaultCode) (s : State) : (s.raiseFault f).cfg = s.cfg := rfl
@[simp] theorem State.raiseFault_hash (f : FaultCode) (s : State) : (s.raiseFault f).hash = s.hash := rfl
@[simp] theorem State.raiseFault_cbc (f : FaultCode) (s : State) : (s.raiseFault f).cbc = s.cbc := rfl
@[simp] theorem State.raiseFault_ctr (f : FaultCode) (s : State) : (s.raiseFault f).ctr = s.ctr := rfl
@[simp] theorem State.raiseFault_hashValid (f : FaultCode) (s : State) : (s.raiseFault f).hashValid = s.hashValid := rfl
@[simp] theorem State.raiseFault_cbcValid (f : FaultCode) (s : State) : (s.raiseFault f).cbcValid = s.cbcValid := rfl
@[simp] theorem State.raiseFault_ctrValid (f : FaultCode) (s : State) : (s.raiseFault f).ctrValid = s.ctrValid := rfl
@[simp] theorem State.raiseFault_halt (f : FaultCode) (s : State) : (s.raiseFault f).halt = true := rfl
@[simp] theorem State.raiseFault_fcode (f : FaultCode) (s : State) : (s.raiseFault f).fcode = f.code := rfl
@[simp] theorem State.raiseFault_cc (f : FaultCode) (s : State) : (s.raiseFault f).cc = f.code := rfl
@[simp] theorem State.raiseFault_din (f : FaultCode) (s : State) : (s.raiseFault f).din = [] := rfl
@[simp] theorem State.raiseFault_dout (f : FaultCode) (s : State) : (s.raiseFault f).dout = [] := rfl
@[simp] theorem State.raiseFault_pending (f : FaultCode) (s : State) : (s.raiseFault f).pending = s.pending := rfl
@[simp] theorem State.raiseFault_observed (f : FaultCode) (s : State) : (s.raiseFault f).observed = s.observed := rfl
@[simp] theorem State.raiseFault_prpTrace (f : FaultCode) (s : State) : (s.raiseFault f).prpTrace = s.prpTrace := rfl
@[simp] theorem State.raiseFault_freeReads (f : FaultCode) (s : State) : (s.raiseFault f).freeReads = s.freeReads := rfl

@[simp] theorem State.refuseHalted_cfg (s : State) : s.refuseHalted.cfg = s.cfg := rfl
@[simp] theorem State.refuseHalted_hash (s : State) : s.refuseHalted.hash = s.hash := rfl
@[simp] theorem State.refuseHalted_cbc (s : State) : s.refuseHalted.cbc = s.cbc := rfl
@[simp] theorem State.refuseHalted_ctr (s : State) : s.refuseHalted.ctr = s.ctr := rfl
@[simp] theorem State.refuseHalted_hashValid (s : State) : s.refuseHalted.hashValid = s.hashValid := rfl
@[simp] theorem State.refuseHalted_cbcValid (s : State) : s.refuseHalted.cbcValid = s.cbcValid := rfl
@[simp] theorem State.refuseHalted_ctrValid (s : State) : s.refuseHalted.ctrValid = s.ctrValid := rfl
@[simp] theorem State.refuseHalted_halt (s : State) : s.refuseHalted.halt = s.halt := rfl
@[simp] theorem State.refuseHalted_fcode (s : State) : s.refuseHalted.fcode = s.fcode := rfl
@[simp] theorem State.refuseHalted_cc (s : State) : s.refuseHalted.cc = ccHalted := rfl
@[simp] theorem State.refuseHalted_din (s : State) : s.refuseHalted.din = [] := rfl
@[simp] theorem State.refuseHalted_dout (s : State) : s.refuseHalted.dout = [] := rfl
@[simp] theorem State.refuseHalted_pending (s : State) : s.refuseHalted.pending = s.pending := rfl
@[simp] theorem State.refuseHalted_observed (s : State) : s.refuseHalted.observed = s.observed := rfl
@[simp] theorem State.refuseHalted_prpTrace (s : State) : s.refuseHalted.prpTrace = s.prpTrace := rfl
@[simp] theorem State.refuseHalted_freeReads (s : State) : s.refuseHalted.freeReads = s.freeReads := rfl

@[simp] theorem State.complete_cfg (s : State) : s.complete.cfg = s.cfg := rfl
@[simp] theorem State.complete_hash (s : State) : s.complete.hash = s.hash := rfl
@[simp] theorem State.complete_cbc (s : State) : s.complete.cbc = s.cbc := rfl
@[simp] theorem State.complete_ctr (s : State) : s.complete.ctr = s.ctr := rfl
@[simp] theorem State.complete_hashValid (s : State) : s.complete.hashValid = s.hashValid := rfl
@[simp] theorem State.complete_cbcValid (s : State) : s.complete.cbcValid = s.cbcValid := rfl
@[simp] theorem State.complete_ctrValid (s : State) : s.complete.ctrValid = s.ctrValid := rfl
@[simp] theorem State.complete_halt (s : State) : s.complete.halt = s.halt := rfl
@[simp] theorem State.complete_fcode (s : State) : s.complete.fcode = s.fcode := rfl
@[simp] theorem State.complete_cc (s : State) : s.complete.cc = ccOk := rfl
@[simp] theorem State.complete_din (s : State) : s.complete.din = s.din := rfl
@[simp] theorem State.complete_dout (s : State) : s.complete.dout = s.dout := rfl
@[simp] theorem State.complete_pending (s : State) : s.complete.pending = s.pending := rfl
@[simp] theorem State.complete_observed (s : State) : s.complete.observed = s.observed := rfl
@[simp] theorem State.complete_prpTrace (s : State) : s.complete.prpTrace = s.prpTrace := rfl
@[simp] theorem State.complete_freeReads (s : State) : s.complete.freeReads = s.freeReads := rfl

@[simp] theorem State.takeReset_cfg (s : State) : s.takeReset.cfg = s.cfg := rfl
@[simp] theorem State.takeReset_hash (s : State) : s.takeReset.hash = HashCtx.reset := rfl
@[simp] theorem State.takeReset_cbc (s : State) : s.takeReset.cbc = CbcCtx.reset := rfl
@[simp] theorem State.takeReset_ctr (s : State) : s.takeReset.ctr = CtrCtx.reset := rfl
@[simp] theorem State.takeReset_hashValid (s : State) : s.takeReset.hashValid = false := rfl
@[simp] theorem State.takeReset_cbcValid (s : State) : s.takeReset.cbcValid = false := rfl
@[simp] theorem State.takeReset_ctrValid (s : State) : s.takeReset.ctrValid = false := rfl
@[simp] theorem State.takeReset_halt (s : State) : s.takeReset.halt = false := rfl
@[simp] theorem State.takeReset_fcode (s : State) : s.takeReset.fcode = 0 := rfl
@[simp] theorem State.takeReset_cc (s : State) : s.takeReset.cc = 0 := rfl
@[simp] theorem State.takeReset_din (s : State) : s.takeReset.din = [] := rfl
@[simp] theorem State.takeReset_dout (s : State) : s.takeReset.dout = [] := rfl
@[simp] theorem State.takeReset_pending (s : State) : s.takeReset.pending = s.pending := rfl
@[simp] theorem State.takeReset_observed (s : State) : s.takeReset.observed = s.observed := rfl
@[simp] theorem State.takeReset_prpTrace (s : State) : s.takeReset.prpTrace = s.prpTrace := rfl
@[simp] theorem State.takeReset_freeReads (s : State) : s.takeReset.freeReads = s.freeReads := rfl

@[simp] theorem State.dinTake_cfg (n : Nat) (s : State) : (s.dinTake n).2.cfg = s.cfg := rfl
@[simp] theorem State.dinTake_hash (n : Nat) (s : State) : (s.dinTake n).2.hash = s.hash := rfl
@[simp] theorem State.dinTake_cbc (n : Nat) (s : State) : (s.dinTake n).2.cbc = s.cbc := rfl
@[simp] theorem State.dinTake_ctr (n : Nat) (s : State) : (s.dinTake n).2.ctr = s.ctr := rfl
@[simp] theorem State.dinTake_hashValid (n : Nat) (s : State) : (s.dinTake n).2.hashValid = s.hashValid := rfl
@[simp] theorem State.dinTake_cbcValid (n : Nat) (s : State) : (s.dinTake n).2.cbcValid = s.cbcValid := rfl
@[simp] theorem State.dinTake_ctrValid (n : Nat) (s : State) : (s.dinTake n).2.ctrValid = s.ctrValid := rfl
@[simp] theorem State.dinTake_halt (n : Nat) (s : State) : (s.dinTake n).2.halt = s.halt := rfl
@[simp] theorem State.dinTake_fcode (n : Nat) (s : State) : (s.dinTake n).2.fcode = s.fcode := rfl
@[simp] theorem State.dinTake_cc (n : Nat) (s : State) : (s.dinTake n).2.cc = s.cc := rfl
@[simp] theorem State.dinTake_din (n : Nat) (s : State) : (s.dinTake n).2.din = s.din.drop n := rfl
@[simp] theorem State.dinTake_dout (n : Nat) (s : State) : (s.dinTake n).2.dout = s.dout := rfl
@[simp] theorem State.dinTake_pending (n : Nat) (s : State) : (s.dinTake n).2.pending = s.pending := rfl
@[simp] theorem State.dinTake_observed (n : Nat) (s : State) : (s.dinTake n).2.observed = s.observed := rfl
@[simp] theorem State.dinTake_prpTrace (n : Nat) (s : State) : (s.dinTake n).2.prpTrace = s.prpTrace := rfl
@[simp] theorem State.dinTake_freeReads (n : Nat) (s : State) : (s.dinTake n).2.freeReads = s.freeReads := rfl

@[simp] theorem State.doutPut_cfg (b : Bytes) (s : State) : (s.doutPut b).cfg = s.cfg := rfl
@[simp] theorem State.doutPut_hash (b : Bytes) (s : State) : (s.doutPut b).hash = s.hash := rfl
@[simp] theorem State.doutPut_cbc (b : Bytes) (s : State) : (s.doutPut b).cbc = s.cbc := rfl
@[simp] theorem State.doutPut_ctr (b : Bytes) (s : State) : (s.doutPut b).ctr = s.ctr := rfl
@[simp] theorem State.doutPut_hashValid (b : Bytes) (s : State) : (s.doutPut b).hashValid = s.hashValid := rfl
@[simp] theorem State.doutPut_cbcValid (b : Bytes) (s : State) : (s.doutPut b).cbcValid = s.cbcValid := rfl
@[simp] theorem State.doutPut_ctrValid (b : Bytes) (s : State) : (s.doutPut b).ctrValid = s.ctrValid := rfl
@[simp] theorem State.doutPut_halt (b : Bytes) (s : State) : (s.doutPut b).halt = s.halt := rfl
@[simp] theorem State.doutPut_fcode (b : Bytes) (s : State) : (s.doutPut b).fcode = s.fcode := rfl
@[simp] theorem State.doutPut_cc (b : Bytes) (s : State) : (s.doutPut b).cc = s.cc := rfl
@[simp] theorem State.doutPut_din (b : Bytes) (s : State) : (s.doutPut b).din = s.din := rfl
@[simp] theorem State.doutPut_dout (b : Bytes) (s : State) : (s.doutPut b).dout = s.dout ++ b := rfl
@[simp] theorem State.doutPut_pending (b : Bytes) (s : State) : (s.doutPut b).pending = s.pending := rfl
@[simp] theorem State.doutPut_observed (b : Bytes) (s : State) : (s.doutPut b).observed = s.observed := rfl
@[simp] theorem State.doutPut_prpTrace (b : Bytes) (s : State) : (s.doutPut b).prpTrace = s.prpTrace := rfl
@[simp] theorem State.doutPut_freeReads (b : Bytes) (s : State) : (s.doutPut b).freeReads = s.freeReads := rfl

@[simp] theorem State.recordCommand_cfg (s : State) : s.recordCommand.cfg = s.cfg := rfl
@[simp] theorem State.recordCommand_hash (s : State) : s.recordCommand.hash = s.hash := rfl
@[simp] theorem State.recordCommand_cbc (s : State) : s.recordCommand.cbc = s.cbc := rfl
@[simp] theorem State.recordCommand_ctr (s : State) : s.recordCommand.ctr = s.ctr := rfl
@[simp] theorem State.recordCommand_hashValid (s : State) : s.recordCommand.hashValid = s.hashValid := rfl
@[simp] theorem State.recordCommand_cbcValid (s : State) : s.recordCommand.cbcValid = s.cbcValid := rfl
@[simp] theorem State.recordCommand_ctrValid (s : State) : s.recordCommand.ctrValid = s.ctrValid := rfl
@[simp] theorem State.recordCommand_halt (s : State) : s.recordCommand.halt = s.halt := rfl
@[simp] theorem State.recordCommand_fcode (s : State) : s.recordCommand.fcode = s.fcode := rfl
@[simp] theorem State.recordCommand_cc (s : State) : s.recordCommand.cc = s.cc := rfl
@[simp] theorem State.recordCommand_din (s : State) : s.recordCommand.din = s.din := rfl
@[simp] theorem State.recordCommand_dout (s : State) : s.recordCommand.dout = s.dout := rfl
@[simp] theorem State.recordCommand_pending (s : State) : s.recordCommand.pending = s.pending := rfl
@[simp] theorem State.recordCommand_observed (s : State) : s.recordCommand.observed = s.observed ++ [.command s.dout s.cc] := rfl
@[simp] theorem State.recordCommand_prpTrace (s : State) : s.recordCommand.prpTrace = s.prpTrace := rfl
@[simp] theorem State.recordCommand_freeReads (s : State) : s.recordCommand.freeReads = s.freeReads := rfl

@[simp] theorem prpRequest_cfg (p : Prp) (h : Handle) (d : Dir) (blk : Bytes) (s : State) : (prpRequest p h d blk s).2.cfg = s.cfg := rfl
@[simp] theorem prpRequest_hash (p : Prp) (h : Handle) (d : Dir) (blk : Bytes) (s : State) : (prpRequest p h d blk s).2.hash = s.hash := rfl
@[simp] theorem prpRequest_cbc (p : Prp) (h : Handle) (d : Dir) (blk : Bytes) (s : State) : (prpRequest p h d blk s).2.cbc = s.cbc := rfl
@[simp] theorem prpRequest_ctr (p : Prp) (h : Handle) (d : Dir) (blk : Bytes) (s : State) : (prpRequest p h d blk s).2.ctr = s.ctr := rfl
@[simp] theorem prpRequest_hashValid (p : Prp) (h : Handle) (d : Dir) (blk : Bytes) (s : State) : (prpRequest p h d blk s).2.hashValid = s.hashValid := rfl
@[simp] theorem prpRequest_cbcValid (p : Prp) (h : Handle) (d : Dir) (blk : Bytes) (s : State) : (prpRequest p h d blk s).2.cbcValid = s.cbcValid := rfl
@[simp] theorem prpRequest_ctrValid (p : Prp) (h : Handle) (d : Dir) (blk : Bytes) (s : State) : (prpRequest p h d blk s).2.ctrValid = s.ctrValid := rfl
@[simp] theorem prpRequest_halt (p : Prp) (h : Handle) (d : Dir) (blk : Bytes) (s : State) : (prpRequest p h d blk s).2.halt = s.halt := rfl
@[simp] theorem prpRequest_fcode (p : Prp) (h : Handle) (d : Dir) (blk : Bytes) (s : State) : (prpRequest p h d blk s).2.fcode = s.fcode := rfl
@[simp] theorem prpRequest_cc (p : Prp) (h : Handle) (d : Dir) (blk : Bytes) (s : State) : (prpRequest p h d blk s).2.cc = s.cc := rfl
@[simp] theorem prpRequest_din (p : Prp) (h : Handle) (d : Dir) (blk : Bytes) (s : State) : (prpRequest p h d blk s).2.din = s.din := rfl
@[simp] theorem prpRequest_dout (p : Prp) (h : Handle) (d : Dir) (blk : Bytes) (s : State) : (prpRequest p h d blk s).2.dout = s.dout := rfl
@[simp] theorem prpRequest_pending (p : Prp) (h : Handle) (d : Dir) (blk : Bytes) (s : State) : (prpRequest p h d blk s).2.pending = s.pending := rfl
@[simp] theorem prpRequest_observed (p : Prp) (h : Handle) (d : Dir) (blk : Bytes) (s : State) : (prpRequest p h d blk s).2.observed = s.observed := rfl
@[simp] theorem prpRequest_prpTrace (p : Prp) (h : Handle) (d : Dir) (blk : Bytes) (s : State) : (prpRequest p h d blk s).2.prpTrace = s.prpTrace ++ [⟨h, d, blk⟩] := rfl
@[simp] theorem prpRequest_freeReads (p : Prp) (h : Handle) (d : Dir) (blk : Bytes) (s : State) : (prpRequest p h d blk s).2.freeReads = s.freeReads := rfl

@[simp] theorem State.writeRegister_cfg (r : ReadOnlyReg) (v : Word) (s : State) : (s.writeRegister r v).cfg = s.cfg := rfl
@[simp] theorem State.writeRegister_hash (r : ReadOnlyReg) (v : Word) (s : State) : (s.writeRegister r v).hash = s.hash := rfl
@[simp] theorem State.writeRegister_cbc (r : ReadOnlyReg) (v : Word) (s : State) : (s.writeRegister r v).cbc = s.cbc := rfl
@[simp] theorem State.writeRegister_ctr (r : ReadOnlyReg) (v : Word) (s : State) : (s.writeRegister r v).ctr = s.ctr := rfl
@[simp] theorem State.writeRegister_hashValid (r : ReadOnlyReg) (v : Word) (s : State) : (s.writeRegister r v).hashValid = s.hashValid := rfl
@[simp] theorem State.writeRegister_cbcValid (r : ReadOnlyReg) (v : Word) (s : State) : (s.writeRegister r v).cbcValid = s.cbcValid := rfl
@[simp] theorem State.writeRegister_ctrValid (r : ReadOnlyReg) (v : Word) (s : State) : (s.writeRegister r v).ctrValid = s.ctrValid := rfl
@[simp] theorem State.writeRegister_halt (r : ReadOnlyReg) (v : Word) (s : State) : (s.writeRegister r v).halt = s.halt := rfl
@[simp] theorem State.writeRegister_fcode (r : ReadOnlyReg) (v : Word) (s : State) : (s.writeRegister r v).fcode = s.fcode := rfl
@[simp] theorem State.writeRegister_cc (r : ReadOnlyReg) (v : Word) (s : State) : (s.writeRegister r v).cc = s.cc := rfl
@[simp] theorem State.writeRegister_din (r : ReadOnlyReg) (v : Word) (s : State) : (s.writeRegister r v).din = s.din := rfl
@[simp] theorem State.writeRegister_dout (r : ReadOnlyReg) (v : Word) (s : State) : (s.writeRegister r v).dout = s.dout := rfl
@[simp] theorem State.writeRegister_pending (r : ReadOnlyReg) (v : Word) (s : State) : (s.writeRegister r v).pending = s.pending := rfl
@[simp] theorem State.writeRegister_observed (r : ReadOnlyReg) (v : Word) (s : State) : (s.writeRegister r v).observed = s.observed := rfl
@[simp] theorem State.writeRegister_prpTrace (r : ReadOnlyReg) (v : Word) (s : State) : (s.writeRegister r v).prpTrace = s.prpTrace := rfl
@[simp] theorem State.writeRegister_freeReads (r : ReadOnlyReg) (v : Word) (s : State) : (s.writeRegister r v).freeReads = s.freeReads := rfl

@[simp] theorem State.dinTake_fst (n : Nat) (s : State) : (s.dinTake n).1 = s.din.take n := rfl
@[simp] theorem prpRequest_fst (p : Prp) (h : Handle) (d : Dir) (blk : Bytes) (s : State) : (prpRequest p h d blk s).1 = prpAnswer p d blk := rfl

@[simp] theorem State.readRegister_cfg (r : ReadReg) (s : State) : (s.readRegister r).cfg = s.cfg := by cases r <;> rfl
@[simp] theorem State.readRegister_hash (r : ReadReg) (s : State) : (s.readRegister r).hash = s.hash := by cases r <;> rfl
@[simp] theorem State.readRegister_cbc (r : ReadReg) (s : State) : (s.readRegister r).cbc = s.cbc := by cases r <;> rfl
@[simp] theorem State.readRegister_ctr (r : ReadReg) (s : State) : (s.readRegister r).ctr = s.ctr := by cases r <;> rfl
@[simp] theorem State.readRegister_hashValid (r : ReadReg) (s : State) : (s.readRegister r).hashValid = s.hashValid := by cases r <;> rfl
@[simp] theorem State.readRegister_cbcValid (r : ReadReg) (s : State) : (s.readRegister r).cbcValid = s.cbcValid := by cases r <;> rfl
@[simp] theorem State.readRegister_ctrValid (r : ReadReg) (s : State) : (s.readRegister r).ctrValid = s.ctrValid := by cases r <;> rfl
@[simp] theorem State.readRegister_halt (r : ReadReg) (s : State) : (s.readRegister r).halt = s.halt := by cases r <;> rfl
@[simp] theorem State.readRegister_fcode (r : ReadReg) (s : State) : (s.readRegister r).fcode = s.fcode := by cases r <;> rfl
@[simp] theorem State.readRegister_cc (r : ReadReg) (s : State) : (s.readRegister r).cc = s.cc := by cases r <;> rfl
@[simp] theorem State.readRegister_din (r : ReadReg) (s : State) : (s.readRegister r).din = s.din := by cases r <;> rfl
@[simp] theorem State.readRegister_dout (r : ReadReg) (s : State) : (s.readRegister r).dout = s.dout := by cases r <;> rfl
@[simp] theorem State.readRegister_pending (r : ReadReg) (s : State) : (s.readRegister r).pending = s.pending := by cases r <;> rfl
@[simp] theorem State.readRegister_prpTrace (r : ReadReg) (s : State) : (s.readRegister r).prpTrace = s.prpTrace := by cases r <;> rfl

@[simp] theorem mapNext_next (f : State → State) (s : State) : mapNext f (.next s) = .next (f s) := rfl
@[simp] theorem mapNext_fault (f : State → State) (r : Fault) : mapNext f (.fault r) = .fault r := rfl
@[simp] theorem mapNext_refused (f : State → State) (r : Refusal) : mapNext f (.refused r) = .refused r := rfl

/-- A next state of `mapNext f` comes from a next state. -/
theorem mapNext_eq_next {f : State → State} {x : Out} {t : State} (h : mapNext f x = .next t) : ∃ s, x = .next s ∧ t = f s := by
  cases x with
  | next s => exact ⟨s, rfl, by simpa using h.symm⟩
  | fault r => cases h
  | refused r => cases h

end Sys2Proof.Machine
end

