-- ==== Sys2Proof/Laws/Ops.lean ====
section
/-! SUPPORT. What each shared operation answers: the common checks (60_exceptions.md R127), the data streams, the PRP port. -/

namespace Sys2Proof.Machine

/-! ## The common checks, forwards -/

theorem whenRunning_halted {s : State} (h : s.halt = true) (body : State → Out) :
    whenRunning s body = .next s.refuseHalted := by simp [whenRunning, h]

theorem whenRunning_running {s : State} (h : s.halt = false) (body : State → Out) :
    whenRunning s body = body { s with dout := [] } := by simp [whenRunning, h]

@[simp] theorem whenValid_true (s : State) (body : State → Out) : whenValid true s body = body s := rfl

@[simp] theorem whenValid_false (s : State) (body : State → Out) :
    whenValid false s body = .next (s.raiseFault .uninit) := rfl

theorem whenValid_of_valid {v : Bool} (h : v = true) (s : State) (body : State → Out) : whenValid v s body = body s := by
  simp [whenValid, h]

theorem whenValid_of_invalid {v : Bool} (h : v = false) (s : State) (body : State → Out) :
    whenValid v s body = .next (s.raiseFault .uninit) := by simp [whenValid, h]

theorem withDin_of_eq {n : Nat} {s : State} (h : s.din.length = n) (body : State → Out) : withDin n s body = body s := by
  simp [withDin, h]

theorem withDin_of_ne {n : Nat} {s : State} (h : s.din.length ≠ n) (body : State → Out) :
    withDin n s body = .refused (.malformedTransaction n s.din.length) := by simp [withDin, h]

theorem whenBindable_some {h : Handle} {s : State} {p : Prp} (hp : bindablePrp s.cfg h = some p) (body : Prp → Out) :
    whenBindable h s body = body p := by simp [whenBindable, hp]

theorem whenBindable_none {h : Handle} {s : State} (hp : bindablePrp s.cfg h = none) (body : Prp → Out) :
    whenBindable h s body = .next (s.raiseFault .prp) := by simp [whenBindable, hp]

theorem withBoundPrp_some {h : Handle} {s : State} {p : Prp} (hp : lookupPrp s.cfg h = some p) (body : Prp → Out) :
    withBoundPrp h s body = body p := by simp [withBoundPrp, hp]

theorem withBoundPrp_none {h : Handle} {s : State} (hp : lookupPrp s.cfg h = none) (body : Prp → Out) :
    withBoundPrp h s body = .fault (.prpPortSilent h) := by simp [withBoundPrp, hp]

/-- A command begins with an empty `dout`, and a fault leaves it empty: clearing it first makes no difference. -/
@[simp] theorem raiseFault_clear_dout (f : FaultCode) (s : State) :
    State.raiseFault f { s with dout := [] } = s.raiseFault f := rfl

/-! ## The common checks, backwards: where a next state comes from -/

theorem whenRunning_eq_next {s t : State} {body : State → Out} (h : whenRunning s body = .next t) :
    (s.halt = true ∧ t = s.refuseHalted) ∨ (s.halt = false ∧ body { s with dout := [] } = .next t) := by
  rcases Bool.eq_false_or_eq_true s.halt with hh | hh
  · rw [whenRunning_halted hh] at h
    exact .inl ⟨hh, by simpa using h.symm⟩
  · rw [whenRunning_running hh] at h
    exact .inr ⟨hh, h⟩

theorem whenValid_eq_next {v : Bool} {s t : State} {body : State → Out} (h : whenValid v s body = .next t) :
    (v = false ∧ t = s.raiseFault .uninit) ∨ (v = true ∧ body s = .next t) := by
  cases v with
  | false => exact .inl ⟨rfl, by simpa using h.symm⟩
  | true => exact .inr ⟨rfl, h⟩

theorem withDin_eq_next {n : Nat} {s t : State} {body : State → Out} (h : withDin n s body = .next t) :
    s.din.length = n ∧ body s = .next t := by
  by_cases hl : s.din.length = n
  · rw [withDin_of_eq hl] at h; exact ⟨hl, h⟩
  · rw [withDin_of_ne hl] at h; cases h

theorem whenBindable_eq_next {hd : Handle} {s t : State} {body : Prp → Out} (h : whenBindable hd s body = .next t) :
    (bindablePrp s.cfg hd = none ∧ t = s.raiseFault .prp) ∨ ∃ p, bindablePrp s.cfg hd = some p ∧ body p = .next t := by
  cases hp : bindablePrp s.cfg hd with
  | none => rw [whenBindable_none hp] at h; exact .inl ⟨rfl, by simpa using h.symm⟩
  | some p => rw [whenBindable_some hp] at h; exact .inr ⟨p, rfl, h⟩

theorem withBoundPrp_eq_next {hd : Handle} {s t : State} {body : Prp → Out} (h : withBoundPrp hd s body = .next t) :
    ∃ p, lookupPrp s.cfg hd = some p ∧ body p = .next t := by
  cases hp : lookupPrp s.cfg hd with
  | none => rw [withBoundPrp_none hp] at h; cases h
  | some p => rw [withBoundPrp_some hp] at h; exact ⟨p, rfl, h⟩

/-! ## The PRP -/

/-- A PRP of the table has a block of at least one byte and answers to its own handle (R6). -/
theorem lookupPrp_spec {c : Config} {h : Handle} {p : Prp} (hp : lookupPrp c h = some p) :
    p.handle = h ∧ 1 ≤ p.pb ∧ p ∈ c.prpTable := by
  have h1 := List.find?_some hp
  have h2 := List.mem_of_find?_eq_some hp
  simp only [Bool.and_eq_true, beq_iff_eq, decide_eq_true_eq] at h1
  exact ⟨h1.1, h1.2, h2⟩

/-- The PRPs an INIT may bind are those of the table whose block fits (R91, R103). -/
theorem bindablePrp_eq_some {c : Config} {h : Handle} {p : Prp} :
    bindablePrp c h = some p ↔ lookupPrp c h = some p ∧ p.pb ≤ c.pbMax.toNat := by
  simp [bindablePrp, Option.filter_eq_some_iff]

theorem bindablePrp_eq_none {c : Config} {h : Handle} :
    bindablePrp c h = none ↔ lookupPrp c h = none ∨ ∃ p, lookupPrp c h = some p ∧ c.pbMax.toNat < p.pb := by
  cases hp : lookupPrp c h with
  | none => simp [bindablePrp, hp]
  | some p => simp [bindablePrp, hp, Option.filter]

/-- A bound PRP's block size fits the 12-bit registers (92 D31). -/
theorem bindablePrp_pb {c : Config} {h : Handle} {p : Prp} (hp : bindablePrp c h = some p) : 1 ≤ p.pb ∧ p.pb < 4096 := by
  obtain ⟨hl, hle⟩ := bindablePrp_eq_some.mp hp
  have := c.pbMax.isLt
  exact ⟨(lookupPrp_spec hl).2.1, by omega⟩

/-- An answer is one block (R7). -/
@[simp] theorem prpAnswer_length (p : Prp) (d : Dir) (blk : Bytes) : (prpAnswer p d blk).length = p.pb := by
  unfold prpAnswer
  split
  · next e he =>
    have := List.find?_some he
    simp only [Bool.and_eq_true, beq_iff_eq] at this
    exact this.2
  · simp

theorem blockSize_eq {c : Config} {h : Handle} {p : Prp} (hp : lookupPrp c h = some p) : blockSize c h = p.pb := by
  simp [blockSize, hp]

end Sys2Proof.Machine
end

