-- ==== Sys2Proof/Laws/Cbc.lean ====
section
/-! SUPPORT. What the block loops of CBC do, in closed form (42_cbc.md R92, R93). -/

namespace Sys2Proof.Machine

theorem repeatBlocks_succ (block : State → State) (n : Nat) (s : State) :
    repeatBlocks block (n + 1) s = block (repeatBlocks block n s) := by
  induction n generalizing s with
  | zero => rfl
  | succ n ih => rw [repeatBlocks, ih, repeatBlocks]

theorem joinBlocks_succ (n : Nat) (c : Nat → Bytes) : joinBlocks (n + 1) c = joinBlocks n c ++ c n := by
  simp [joinBlocks, List.range_succ]

@[simp] theorem joinBlocks_zero (c : Nat → Bytes) : joinBlocks 0 c = [] := rfl

theorem joinBlocks_length {n b : Nat} {c : Nat → Bytes} (h : ∀ i, i < n → (c i).length = b) :
    (joinBlocks n c).length = n * b := by
  induction n with
  | zero => simp
  | succ n ih =>
    rw [joinBlocks_succ, List.length_append, ih fun i hi => h i (by omega), h n (by omega)]
    ring

theorem joinBlocks_congr {n : Nat} {c d : Nat → Bytes} (h : ∀ i, i < n → c i = d i) : joinBlocks n c = joinBlocks n d := by
  induction n with
  | zero => rfl
  | succ n ih => rw [joinBlocks_succ, joinBlocks_succ, ih fun i hi => h i (by omega), h n (by omega)]

/-- Blocks of equal size come back out of their join. -/
theorem blockAt_joinBlocks {n b : Nat} {c : Nat → Bytes} (h : ∀ i, i < n → (c i).length = b) {i : Nat} (hi : i < n) :
    blockAt b (joinBlocks n c) i = c i := by
  induction n with
  | zero => omega
  | succ n ih =>
    have hlen : (joinBlocks n c).length = n * b := joinBlocks_length fun i hi => h i (by omega)
    rw [joinBlocks_succ, blockAt]
    rcases Nat.lt_succ_iff_lt_or_eq.mp hi with hlt | rfl
    · have hle : i * b + b ≤ n * b := by
        rw [← Nat.succ_mul]; exact Nat.mul_le_mul_right b hlt
      rw [List.drop_append_of_le_length (by omega), List.take_append_of_le_length (by rw [List.length_drop]; omega)]
      exact ih (fun i hi => h i (by omega)) hlt
    · rw [← hlen, List.drop_left, ← h i (by omega), List.take_length]

theorem blockAt_length {b n : Nat} {s : Bytes} (h : s.length = n * b) {i : Nat} (hi : i < n) :
    (blockAt b s i).length = b := by
  have hle : i * b + b ≤ n * b := by rw [← Nat.succ_mul]; exact Nat.mul_le_mul_right b hi
  rw [blockAt, List.length_take, List.length_drop]
  omega

theorem chainBefore_cipher (p : Prp) (first : Bytes) (plain : Nat → Bytes) (n : Nat) :
    prpAnswer p .enc (xorBytes (plain n) (chainBefore first (cbcCipherBlock p first plain) n)) =
      cbcCipherBlock p first plain n := by
  cases n <;> rfl

/-- `n` blocks of ENCRYPT (R92). -/
theorem repeatBlocks_encrypt (p : Prp) (n : Nat) (s : State) :
    repeatBlocks (cbcEncryptBlock p) n s = { s with
      cbc := { s.cbc with chain := chainBefore s.cbc.chain (cbcCipherBlock p s.cbc.chain (blockAt p.pb s.din)) n }
      din := s.din.drop (n * p.pb)
      dout := s.dout ++ joinBlocks n (cbcCipherBlock p s.cbc.chain (blockAt p.pb s.din))
      prpTrace := s.prpTrace ++ (List.range n).map fun i => ⟨s.cbc.prp, .enc, xorBytes (blockAt p.pb s.din i)
        (chainBefore s.cbc.chain (cbcCipherBlock p s.cbc.chain (blockAt p.pb s.din)) i)⟩ } := by
  induction n with
  | zero => simp [repeatBlocks, chainBefore]
  | succ n ih =>
    rw [repeatBlocks_succ, ih]
    simp only [cbcEncryptBlock, State.dinTake, prpRequest, State.doutPut, joinBlocks_succ, List.range_succ,
      List.map_append, List.map_cons, List.map_nil, List.append_assoc, List.drop_drop]
    rw [show n * p.pb + p.pb = (n + 1) * p.pb by ring]
    have hb : (s.din.drop (n * p.pb)).take p.pb = blockAt p.pb s.din n := rfl
    rw [hb, chainBefore_cipher]
    rfl

/-- `n` blocks of DECRYPT (R93). -/
theorem repeatBlocks_decrypt (p : Prp) (n : Nat) (s : State) :
    repeatBlocks (cbcDecryptBlock p) n s = { s with
      cbc := { s.cbc with chain := chainBefore s.cbc.chain (blockAt p.pb s.din) n }
      din := s.din.drop (n * p.pb)
      dout := s.dout ++ joinBlocks n fun i =>
        xorBytes (prpAnswer p .dec (blockAt p.pb s.din i)) (chainBefore s.cbc.chain (blockAt p.pb s.din) i)
      prpTrace := s.prpTrace ++ (List.range n).map fun i => ⟨s.cbc.prp, .dec, blockAt p.pb s.din i⟩ } := by
  induction n with
  | zero => simp [repeatBlocks, chainBefore]
  | succ n ih =>
    rw [repeatBlocks_succ, ih]
    simp only [cbcDecryptBlock, State.dinTake, prpRequest, State.doutPut, joinBlocks_succ, List.range_succ,
      List.map_append, List.map_cons, List.map_nil, List.append_assoc, List.drop_drop]
    rw [show n * p.pb + p.pb = (n + 1) * p.pb by ring]
    rfl

theorem joinBlocks_add (a b : Nat) (c : Nat → Bytes) : joinBlocks (a + b) c = joinBlocks a c ++ joinBlocks b (fun i => c (a + i)) := by
  induction b with
  | zero => simp
  | succ b ih => rw [← Nat.add_assoc, joinBlocks_succ, ih, joinBlocks_succ, List.append_assoc]

theorem blockAt_append_left {B a i : Nat} {x y : Bytes} (h : x.length = a * B) (hi : i < a) : blockAt B (x ++ y) i = blockAt B x i := by
  have : i * B + B ≤ x.length := by rw [h]; calc i * B + B = (i+1) * B := by ring
                                                  _ ≤ a * B := Nat.mul_le_mul_right _ hi
  unfold blockAt
  rw [List.drop_append_of_le_length (by omega), List.take_append_of_le_length (by rw [List.length_drop]; omega)]

theorem blockAt_append_right {B a i : Nat} {x y : Bytes} (h : x.length = a * B) : blockAt B (x ++ y) (a + i) = blockAt B y i := by
  unfold blockAt
  rw [show (a + i) * B = x.length + i * B by rw [h]; ring, ← List.drop_drop, List.drop_left]

theorem cbcCipherBlock_congr (p : Prp) (f : Bytes) {c d : Nat → Bytes} : ∀ i, (∀ j, j ≤ i → c j = d j) → cbcCipherBlock p f c i = cbcCipherBlock p f d i := by
  intro i
  induction i with
  | zero => intro h; simp [cbcCipherBlock, h 0 (Nat.le_refl _)]
  | succ i ih => intro h; simp [cbcCipherBlock, h (i+1) (Nat.le_refl _), ih (fun j hj => h j (by omega))]

theorem cbcCipherBlock_add (p : Prp) (f : Bytes) (c : Nat → Bytes) (a : Nat) : ∀ i, cbcCipherBlock p f c (a + i) = cbcCipherBlock p (chainBefore f (cbcCipherBlock p f c) a) (fun i => c (a + i)) i := by
  intro i
  induction i with
  | zero => cases a <;> rfl
  | succ i ih => rw [← Nat.add_assoc, cbcCipherBlock, ih]; rfl

theorem chainBefore_add (f : Bytes) (c : Nat → Bytes) (a i : Nat) : chainBefore f c (a + i) = chainBefore (chainBefore f c a) (fun j => c (a + j)) i := by
  cases i <;> rfl

theorem chainBefore_congr (f : Bytes) {c d : Nat → Bytes} (i) (h : ∀ j, j < i → c j = d j) : chainBefore f c i = chainBefore f d i := by
  cases i with | zero => rfl | succ i => exact h i (by omega)

theorem joinBlocks_blockAt {B n : Nat} {x : Bytes} (h : x.length = n * B) : joinBlocks n (blockAt B x) = x := by
  induction n generalizing x with
  | zero => simp at h; simp [h]
  | succ n ih =>
    have hx : x = x.take (n * B) ++ x.drop (n * B) := (List.take_append_drop _ _).symm
    have hl : (x.take (n*B)).length = n * B := by rw [List.length_take, h]; ring_nf; omega
    rw [joinBlocks_succ]
    have : joinBlocks n (blockAt B x) = x.take (n * B) := by
      rw [← ih hl]; refine joinBlocks_congr fun i hi => ?_
      conv => lhs; rw [hx]
      rw [blockAt_append_left hl hi]
    rw [this]
    conv => rhs; rw [hx]
    congr 1; unfold blockAt
    apply List.take_of_length_le; rw [List.length_drop, h]; ring_nf; omega

theorem cbcCipherBlock_length (p f c i) : (cbcCipherBlock p f c i).length = p.pb := by cases i <;> simp [cbcCipherBlock]

theorem joinBlocks_getD {B k i : Nat} {c : Nat → Bytes} (h : ∀ i, (c i).length = B) (hi : i < k * B) : (joinBlocks k c).getD i 0 = (c (i / B)).getD (i % B) 0 := by
  have hB : 0 < B := by by_contra h0; have : B = 0 := by omega
                        subst this; simp at hi
  induction k with
  | zero => simp at hi
  | succ k ih =>
    rw [joinBlocks_succ]
    have hl : (joinBlocks k c).length = k * B := joinBlocks_length fun i _ => h i
    by_cases hk : i < k * B
    · rw [List.getD_append _ _ _ _ (by omega)]; exact ih hk
    · rw [List.getD_append_right _ _ _ _ (by omega), hl]
      rw [Nat.succ_mul] at hi
      have h1 : i / B = k := Nat.div_eq_of_lt_le (by omega) (by rw [Nat.succ_mul]; omega)
      have h2 : i % B = i - k * B := by have := Nat.div_add_mod i B; rw [h1, Nat.mul_comm] at this; omega
      rw [h1, h2]

end Sys2Proof.Machine
end

