-- ==== Sys2Proof/Laws/Ctr.lean ====
section
/-! SUPPORT. The counter block, the keystream and the CTR use of XOR mode, in closed form (43_ctr.md R105 to R107). -/

namespace Sys2Proof.Machine

/-! ## The counter block -/

/-- `BeInc` is the window replaced by its value plus one (R106). -/
theorem beInc_eq_withWindow (buf : Bytes) (o w : Nat) :
    beInc buf o w = withWindow buf o w ((windowValue buf o w + 1) % 256 ^ w) := rfl

theorem withWindow_length {buf : Bytes} {o w : Nat} (h : o + w ≤ buf.length) (v : Nat) :
    (withWindow buf o w v).length = buf.length := by
  simp [withWindow]; omega

theorem withWindow_take {buf : Bytes} {o w : Nat} (h : o + w ≤ buf.length) (v : Nat) :
    (withWindow buf o w v).take o = buf.take o := by
  have ho : (buf.take o).length = o := by rw [List.length_take]; omega
  rw [withWindow, List.append_assoc, List.take_append_of_le_length (by omega), List.take_take, Nat.min_self]

theorem withWindow_drop {buf : Bytes} {o w : Nat} (h : o + w ≤ buf.length) (v : Nat) :
    (withWindow buf o w v).drop (o + w) = buf.drop (o + w) := by
  have ho : (buf.take o ++ beBytes w v).length = o + w := by rw [List.length_append, List.length_take, beBytes_length]; omega
  rw [withWindow, List.drop_append_of_le_length (by omega), List.drop_of_length_le (by omega), List.nil_append]

theorem withWindow_window {buf : Bytes} {o w : Nat} (h : o + w ≤ buf.length) (v : Nat) :
    ((withWindow buf o w v).drop o).take w = beBytes w v := by
  have ho : (buf.take o).length = o := by rw [List.length_take]; omega
  rw [withWindow, List.append_assoc, List.drop_append_of_le_length (by omega), List.drop_of_length_le (by omega),
    List.nil_append, List.take_append_of_le_length (by rw [beBytes_length]), List.take_of_length_le (by rw [beBytes_length])]

theorem windowValue_withWindow {buf : Bytes} {o w : Nat} (h : o + w ≤ buf.length) (v : Nat) :
    windowValue (withWindow buf o w v) o w = v % 256 ^ w := by
  rw [windowValue, withWindow_window h, beValue_beBytes]

theorem withWindow_withWindow {buf : Bytes} {o w : Nat} (h : o + w ≤ buf.length) (u v : Nat) :
    withWindow (withWindow buf o w u) o w v = withWindow buf o w v := by
  unfold withWindow
  rw [show (buf.take o ++ beBytes w u ++ buf.drop (o + w)) = withWindow buf o w u from rfl, withWindow_take h,
    withWindow_drop h]

theorem windowValue_lt {buf : Bytes} {o w : Nat} (h : o + w ≤ buf.length) : windowValue buf o w < 256 ^ w := by
  have := beValue_lt ((buf.drop o).take w)
  rwa [List.length_take, List.length_drop, Nat.min_eq_left (by omega)] at this

/-- Replacing the window by its own value changes nothing. -/
theorem withWindow_self {buf : Bytes} {o w : Nat} (h : o + w ≤ buf.length) :
    withWindow buf o w (windowValue buf o w) = buf := by
  have hl : ((buf.drop o).take w).length = w := by rw [List.length_take, List.length_drop]; omega
  rw [withWindow, windowValue]
  conv_lhs => rw [show beBytes w (beValue ((buf.drop o).take w)) = (buf.drop o).take w by
    conv_lhs => rw [← hl]
    rw [hl]
    have := beBytes_beValue ((buf.drop o).take w)
    rwa [hl] at this]
  rw [List.append_assoc, ← List.drop_drop, List.take_append_drop, List.take_append_drop]

@[simp] theorem counterAfter_zero (c : CtrCtx) : counterAfter c 0 = c.nonce := rfl

theorem counterAfter_length {c : CtrCtx} (h : c.counterOffset.toNat + c.counterWidth.toNat ≤ c.nonce.length) (j : Nat) :
    (counterAfter c j).length = c.nonce.length := by
  induction j with
  | zero => rfl
  | succ j ih => rw [counterAfter, beInc_eq_withWindow, withWindow_length (by omega), ih]

/-- The counter blocks depend on the nonce and the window alone. -/
theorem counterAfter_congr {c d : CtrCtx} (h1 : c.nonce = d.nonce) (h2 : c.counterOffset = d.counterOffset)
    (h3 : c.counterWidth = d.counterWidth) (j : Nat) : counterAfter c j = counterAfter d j := by
  induction j with
  | zero => exact h1
  | succ j ih => rw [counterAfter, counterAfter, ih, h2, h3]

theorem keystreamBlockAt_congr {c d : CtrCtx} (p : Prp) (h1 : c.nonce = d.nonce) (h2 : c.counterOffset = d.counterOffset)
    (h3 : c.counterWidth = d.counterWidth) (j : Nat) : keystreamBlockAt p c j = keystreamBlockAt p d j := by
  rw [keystreamBlockAt, keystreamBlockAt, counterAfter_congr h1 h2 h3]

/-! ## The keystream -/

theorem contextAfter_succ {σ : Type} (mk : σ → Bytes × σ) (j : Nat) (c : σ) :
    contextAfter mk (j + 1) c = (mk (contextAfter mk j c)).2 := by
  induction j generalizing c with
  | zero => rfl
  | succ j ih => rw [contextAfter, ih, contextAfter]

theorem madeBlocks_eq_joinBlocks {σ : Type} (mk : σ → Bytes × σ) (j : Nat) (c : σ) :
    madeBlocks mk j c = joinBlocks j fun i => (mk (contextAfter mk i c)).1 := by
  induction j generalizing c with
  | zero => rfl
  | succ j ih =>
    rw [madeBlocks, ih, joinBlocks, joinBlocks, List.range_succ_eq_map, List.flatMap_cons, List.flatMap_map]
    rfl

@[simp] theorem keystreamBlock_length (p : Prp) (s : State) : (keystreamBlock p s).1.length = p.pb :=
  prpAnswer_length p .enc _

/-- The state after `j` keystream blocks have been made (R105). -/
theorem contextAfter_keystream (p : Prp) (j : Nat) (s : State) :
    contextAfter (keystreamBlock p) j s = { s with
      ctr := { s.ctr with nonce := counterAfter s.ctr j }
      prpTrace := s.prpTrace ++ (List.range j).map fun i => ⟨s.ctr.prp, .enc, counterAfter s.ctr i⟩ } := by
  induction j with
  | zero => simp [contextAfter]
  | succ j ih =>
    rw [contextAfter_succ, ih]
    simp only [keystreamBlock, prpRequest, List.range_succ, List.map_append, List.map_cons, List.map_nil,
      List.append_assoc]
    rfl

theorem keystream_block (p : Prp) (j : Nat) (s : State) :
    (keystreamBlock p (contextAfter (keystreamBlock p) j s)).1 = keystreamBlockAt p s.ctr j := by
  rw [contextAfter_keystream]
  rfl

theorem madeBlocks_keystream (p : Prp) (j : Nat) (s : State) :
    madeBlocks (keystreamBlock p) j s = joinBlocks j (keystreamBlockAt p s.ctr) := by
  rw [madeBlocks_eq_joinBlocks]
  exact joinBlocks_congr fun i _ => keystream_block p i s

theorem blocksFor_eq_blocksNeeded (c : CtrCtx) (pb n : Nat) : blocksFor pb c.nkeymat.toNat n = blocksNeeded c pb n := rfl

/-! ## The CTR use of XOR mode -/

/-- The effect of ciphering `input` on a CTR context (R107): the output, the context afterwards, the number `k` of fresh
blocks. -/
structure Ciphered (p : Prp) (c : CtrCtx) (input out : Bytes) (d : CtrCtx) : Prop where
  out : out = xorBytes input
    ((c.unconsumed p.pb ++ joinBlocks (blocksNeeded c p.pb input.length) (keystreamBlockAt p c)).take input.length)
  enough : input.length ≤
    (c.unconsumed p.pb ++ joinBlocks (blocksNeeded c p.pb input.length) (keystreamBlockAt p c)).length
  unconsumed : d.unconsumed p.pb =
    (c.unconsumed p.pb ++ joinBlocks (blocksNeeded c p.pb input.length) (keystreamBlockAt p c)).drop input.length
  prp : d.prp = c.prp
  counterOffset : d.counterOffset = c.counterOffset
  counterWidth : d.counterWidth = c.counterWidth
  nonce : d.nonce = counterAfter c (blocksNeeded c p.pb input.length)
  nkeymat : d.nkeymat.toNat + input.length = c.nkeymat.toNat + blocksNeeded c p.pb input.length * p.pb
  lt : d.nkeymat.toNat < p.pb
  full : d.nkeymat ≠ 0 → d.keymat.length = p.pb
  same : blocksNeeded c p.pb input.length = 0 → d.keymat = c.keymat
  last : ∀ j, blocksNeeded c p.pb input.length = j + 1 → d.keymat = keystreamBlockAt p c j

/-- `AccXor` on a CTR context that meets its invariant never faults, and this is what it does. -/
theorem accXor_ciphered {p : Prp} {s : State} (hpb : p.pb < 4096) (hn : s.ctr.nkeymat.toNat < p.pb)
    (hfull : s.ctr.nkeymat ≠ 0 → s.ctr.keymat.length = p.pb) (input : Bytes) :
    ∃ out r, accXor p.pb (keystreamBlock p) input (Reservoir.mk s.ctr.keymat s.ctr.nkeymat.toNat s) = some (out, r) ∧
      r.ctx = contextAfter (keystreamBlock p) (blocksNeeded s.ctr p.pb input.length) s ∧
      Ciphered p s.ctr input out
        { r.ctx.ctr with keymat := r.keymat, nkeymat := BitVec.ofNat 12 r.n } := by
  obtain ⟨out, q, hq, X⟩ := accXor_xored (makeBlock := keystreamBlock p) (keystreamBlock_length p) input
    (Reservoir.mk s.ctr.keymat s.ctr.nkeymat.toNat s) hn
    (fun h => hfull fun h0 => h (by simp only; rw [h0]; rfl))
  refine ⟨out, q, hq, X.ctx, ?_⟩
  have hto : (BitVec.ofNat 12 q.n).toNat = q.n := by
    have := X.lt
    rw [BitVec.toNat_ofNat]
    omega
  have hctx := X.ctx
  have hstream : (Reservoir.mk s.ctr.keymat s.ctr.nkeymat.toNat s).unread p.pb ++
      madeBlocks (keystreamBlock p) (blocksFor p.pb s.ctr.nkeymat.toNat input.length) s =
      s.ctr.unconsumed p.pb ++ joinBlocks (blocksNeeded s.ctr p.pb input.length) (keystreamBlockAt p s.ctr) := by
    rw [madeBlocks_keystream]
    rfl
  simp only [blocksFor_eq_blocksNeeded] at hctx
  rw [contextAfter_keystream] at hctx
  refine ⟨?_, ?_, ?_, by rw [hctx], by rw [hctx], by rw [hctx], by rw [hctx], ?_, ?_, ?_, X.same, ?_⟩
  · rw [X.out, hstream]
  · have := X.enough
    rwa [hstream] at this
  · rw [← hstream, ← X.unread, CtrCtx.unconsumed, Reservoir.unread]
    simp only [hto]
  · simp only [hto]
    exact X.n
  · simp only [hto]
    exact X.lt
  · intro h
    refine X.full fun h0 => h ?_
    simp only [h0]
    rfl
  · intro j hj
    rw [X.last j hj]
    exact keystream_block p j s

theorem toNat_ofNat_12 {n : Nat} (h : n < 4096) : (BitVec.ofNat 12 n).toNat = n := by rw [BitVec.toNat_ofNat]; omega

theorem unconsumed_length {p : Prp} {c : CtrCtx} (hn : c.nkeymat.toNat < p.pb) (hf : c.nkeymat ≠ 0 → c.keymat.length = p.pb) : (c.unconsumed p.pb).length = c.nkeymat.toNat := by
  unfold CtrCtx.unconsumed
  by_cases h : c.nkeymat = 0
  · simp [h]
  · rw [List.length_take, List.length_drop, hf h]; omega

theorem CtrCtx.Ok.bound {cfg : Config} {c : CtrCtx} {p} (hok : c.Ok cfg) (hb : lookupPrp cfg c.prp = some p) : p.pb < 4096 ∧ c.nonce.length = p.pb ∧ c.nkeymat.toNat < p.pb ∧
    c.counterOffset.toNat + c.counterWidth.toNat ≤ p.pb ∧ (c.nkeymat ≠ 0 → c.keymat.length = p.pb) := by
  obtain ⟨q, hq, h1, h2, h3, h4⟩ := hok
  rw [(bindablePrp_eq_some.1 hq).1] at hb; cases hb
  exact ⟨(bindablePrp_pb hq).2, h1, h2, h3, h4⟩

theorem counterAfter_add {c d : CtrCtx} {k : Nat} (h1 : d.nonce = counterAfter c k) (h2 : d.counterOffset = c.counterOffset) (h3 : d.counterWidth = c.counterWidth) (j : Nat) : counterAfter d j = counterAfter c (k + j) := by
  induction j with
  | zero => exact h1
  | succ j ih => rw [← Nat.add_assoc, counterAfter, counterAfter, ih, h2, h3]

theorem blocksNeeded_unique {B n m len k : Nat} (hm : m < B) (h : m + len = n + k * B) : (len - n + B - 1) / B = k := by
  cases k with
  | zero => rw [Nat.div_eq_of_lt]; omega
  | succ k =>
    have hs : (k+1) * B = k * B + B := Nat.succ_mul _ _
    rw [show len - n + B - 1 = (B - 1 - m) + (k+1) * B by omega, Nat.add_mul_div_right _ _ (by omega), Nat.div_eq_of_lt (by omega)]; omega

theorem joinBlocks_keystream_length (p : Prp) (c : CtrCtx) (k : Nat) : (joinBlocks k (keystreamBlockAt p c)).length = k * p.pb :=
  joinBlocks_length fun i _ => prpAnswer_length _ _ _

theorem Ciphered.out_length {p c x out d} (C : Ciphered p c x out d) : out.length = x.length := by
  rw [C.out, xorBytes_length, List.length_take]; have := C.enough; omega

theorem Ciphered.append {p c x o1 d y o2 e} (C : Ciphered p c x o1 d) (D : Ciphered p d y o2 e) :
    (blocksNeeded c p.pb (x ++ y).length = blocksNeeded c p.pb x.length + blocksNeeded d p.pb y.length) ∧ Ciphered p c (x ++ y) (o1 ++ o2) e := by
  have hk : blocksNeeded c p.pb (x ++ y).length = blocksNeeded c p.pb x.length + blocksNeeded d p.pb y.length := by
    have h1 := C.nkeymat; have h2 := D.nkeymat
    refine blocksNeeded_unique D.lt ?_
    rw [List.length_append, Nat.add_mul]; omega
  refine ⟨hk, ?_⟩
  have hks : ∀ i, keystreamBlockAt p d i = keystreamBlockAt p c (blocksNeeded c p.pb x.length + i) := fun i => by
    unfold keystreamBlockAt; rw [counterAfter_add C.nonce C.counterOffset C.counterWidth]
  have hstream : c.unconsumed p.pb ++ joinBlocks (blocksNeeded c p.pb (x ++ y).length) (keystreamBlockAt p c) =
     (c.unconsumed p.pb ++ joinBlocks (blocksNeeded c p.pb x.length) (keystreamBlockAt p c)).take x.length ++ (d.unconsumed p.pb ++ joinBlocks (blocksNeeded d p.pb y.length) (keystreamBlockAt p d)) := by
    rw [C.unconsumed, ← List.append_assoc, List.take_append_drop, hk, joinBlocks_add, List.append_assoc]
    congr 2; exact joinBlocks_congr fun i _ => (hks i).symm
  have ht : ((c.unconsumed p.pb ++ joinBlocks (blocksNeeded c p.pb x.length) (keystreamBlockAt p c)).take x.length).length = x.length := by
    rw [List.length_take]; have := C.enough; omega
  refine ⟨?_, ?_, ?_, D.prp.trans C.prp, D.counterOffset.trans C.counterOffset, D.counterWidth.trans C.counterWidth, ?_, ?_, D.lt, D.full, ?_, ?_⟩
  · rw [hstream, List.length_append, List.take_append, ht, List.take_of_length_le (by omega), Nat.add_sub_cancel_left, xorBytes_append ht.symm, C.out, D.out]
  · rw [hstream, List.length_append, List.length_append, ht]; have := D.enough; omega
  · rw [hstream, List.length_append, List.drop_append, ht, List.drop_of_length_le (by omega), Nat.add_sub_cancel_left, D.unconsumed]; rfl
  · rw [D.nonce, hk, counterAfter_add C.nonce C.counterOffset C.counterWidth]
  · have h1 := C.nkeymat; have h2 := D.nkeymat
    rw [hk, List.length_append, Nat.add_mul]; omega
  · intro h0; rw [hk] at h0; rw [D.same (by omega), C.same (by omega)]
  · intro j hj
    rw [hk] at hj
    cases hd : blocksNeeded d p.pb y.length with
    | zero => rw [D.same hd]; exact C.last j (by omega)
    | succ m => rw [D.last m hd, hks]; congr 1; omega

theorem Ciphered.unique {p c x o d o' d'} (C : Ciphered p c x o d) (D : Ciphered p c x o' d') : o = o' ∧ d = d' := by
  refine ⟨by rw [C.out, D.out], ?_⟩
  have h1 : d.nkeymat = d'.nkeymat := BitVec.eq_of_toNat_eq (by have := C.nkeymat; have := D.nkeymat; omega)
  have h2 : d.keymat = d'.keymat := by
    cases hk : blocksNeeded c p.pb x.length with
    | zero => rw [C.same hk, D.same hk]
    | succ k => rw [C.last k hk, D.last k hk]
  have := C.prp; have := D.prp; have := C.counterOffset; have := D.counterOffset; have := C.counterWidth; have := D.counterWidth; have := C.nonce; have := D.nonce
  cases d; cases d'; simp_all

theorem Ciphered.ok {p cfg c x o d} (hok : CtrCtx.Ok cfg c) (hb : lookupPrp cfg c.prp = some p) (C : Ciphered p c x o d) : d.Ok cfg := by
  obtain ⟨q, hq, h1, h2, h3, h4⟩ := hok
  obtain rfl : q = p := by have := (bindablePrp_eq_some.1 hq).1; rw [hb] at this; cases this; rfl
  refine ⟨q, by rw [C.prp]; exact hq, ?_, C.lt, by rw [C.counterOffset, C.counterWidth]; exact h3, C.full⟩
  rw [C.nonce, counterAfter_length (by omega), h1]

theorem CtrCtx.ok_init {cfg : Config} {c : CtrCtx} {hd p nonce} (hb : bindablePrp cfg hd = some p) (hl : nonce.length = p.pb) :
   CtrCtx.Ok cfg { c with prp := hd, nonce := nonce, counterOffset := 0, counterWidth := BitVec.ofNat 12 p.pb, nkeymat := 0 } := by
  have := bindablePrp_pb hb
  refine ⟨p, hb, hl, by show 0 < _; omega, ?_, fun h => absurd rfl h⟩
  rw [show (BitVec.ofNat 12 p.pb).toNat = p.pb from toNat_ofNat_12 this.2]; simp

/-- The same CTR context but for the part of `keymat` that is consumed, which no rule reads (93 U5). -/
structure CtrCtx.Alike (pb : Nat) (c d : CtrCtx) : Prop where
  prp : c.prp = d.prp
  nonce : c.nonce = d.nonce
  counterOffset : c.counterOffset = d.counterOffset
  counterWidth : c.counterWidth = d.counterWidth
  nkeymat : c.nkeymat = d.nkeymat
  unconsumed : c.unconsumed pb = d.unconsumed pb

/-- The keystream bytes that a CIPHER of `n` bytes uses. -/
def CtrCtx.stream (c : CtrCtx) (p : Prp) (n : Nat) : Bytes :=
  (c.unconsumed p.pb ++ joinBlocks (blocksNeeded c p.pb n) (keystreamBlockAt p c)).take n

/-- Ciphering equally long inputs from alike contexts uses the same stream and leaves alike contexts. -/
theorem Ciphered.alike {p : Prp} {c c' : CtrCtx} {x y o o' : Bytes} {d d' : CtrCtx} (A : c.Alike p.pb c')
    (hl : y.length = x.length) (C : Ciphered p c x o d) (D : Ciphered p c' y o' d') :
    o = xorBytes x (c.stream p x.length) ∧ o' = xorBytes y (c.stream p x.length) ∧
      x.length = (c.stream p x.length).length ∧ d.Alike p.pb d' := by
  have hk : blocksNeeded c' p.pb x.length = blocksNeeded c p.pb x.length := by unfold blocksNeeded; rw [A.nkeymat]
  have hfun : keystreamBlockAt p c' = keystreamBlockAt p c := funext fun i =>
    keystreamBlockAt_congr p A.nonce.symm A.counterOffset.symm A.counterWidth.symm i
  have D1 := D.out
  have D2 := D.unconsumed
  have D3 := D.nkeymat
  have D4 := D.nonce
  rw [hl] at D1 D2 D3 D4
  refine ⟨C.out, ?_, ?_, ?_, ?_, ?_, ?_, ?_, ?_⟩
  · rw [D1, hk, ← A.unconsumed, hfun]; rfl
  · rw [CtrCtx.stream, List.length_take]; have := C.enough; omega
  · rw [C.prp, D.prp, A.prp]
  · rw [C.nonce, D4, hk, counterAfter_congr A.nonce A.counterOffset A.counterWidth]
  · rw [C.counterOffset, D.counterOffset, A.counterOffset]
  · rw [C.counterWidth, D.counterWidth, A.counterWidth]
  · refine BitVec.eq_of_toNat_eq ?_
    have h1 := C.nkeymat
    rw [hk, ← A.nkeymat] at D3
    omega
  · rw [C.unconsumed, D2, hk, A.unconsumed, hfun]

end Sys2Proof.Machine
end

