-- ==== Sys2Proof/Laws/Decode.lean ====
section
/-! SUPPORT. The fields of a command word (30_encoding.md R46): putting them together and taking them apart. -/

namespace Sys2Proof

theorem commandWord_getLsbD (u o : BitVec 4) (a : BitVec 24) (i : Nat) :
    (commandWord u o a).getLsbD i =
      if i < 24 then a.getLsbD i else if i < 28 then o.getLsbD (i - 24) else u.getLsbD (i - 28) := by
  simp only [commandWord, BitVec.getLsbD_append]
  by_cases h : i < 24
  · simp [h]
  · by_cases h2 : i < 28
    · simp [h, h2, show i - 24 < 4 by omega]
    · simp [h, h2, show ¬ (i - 24 < 4) by omega, Nat.sub_sub]

@[simp] theorem unitField_commandWord (u o : BitVec 4) (a : BitVec 24) : unitField (commandWord u o a) = u := by
  refine BitVec.eq_of_getLsbD_eq fun i hi => ?_
  rw [unitField, BitVec.getLsbD_extractLsb', commandWord_getLsbD]
  simp [hi, show ¬ (28 + i < 24) by omega]

@[simp] theorem opField_commandWord (u o : BitVec 4) (a : BitVec 24) : opField (commandWord u o a) = o := by
  refine BitVec.eq_of_getLsbD_eq fun i hi => ?_
  rw [opField, BitVec.getLsbD_extractLsb', commandWord_getLsbD]
  simp [hi, show 24 + i < 28 by omega]

@[simp] theorem argField_commandWord (u o : BitVec 4) (a : BitVec 24) : argField (commandWord u o a) = a := by
  refine BitVec.eq_of_getLsbD_eq fun i hi => ?_
  rw [argField, BitVec.getLsbD_extractLsb', commandWord_getLsbD]
  simp [hi]

/-- Every word is the word of its three fields. -/
theorem commandWord_fields (w : Word) : commandWord (unitField w) (opField w) (argField w) = w := by
  refine BitVec.eq_of_getLsbD_eq fun i hi => ?_
  rw [commandWord_getLsbD]
  simp only [unitField, opField, argField, BitVec.getLsbD_extractLsb']
  by_cases h : i < 24
  · simp [h]
  · by_cases h2 : i < 28
    · simp [h, h2, show i - 24 < 4 by omega, show 24 + (i - 24) = i by omega]
    · simp [h, h2, show i - 28 < 4 by omega, show 28 + (i - 28) = i by omega]

theorem commandWord_inj {u u' o o' : BitVec 4} {a a' : BitVec 24} :
    commandWord u o a = commandWord u' o' a' ↔ u = u' ∧ o = o' ∧ a = a' := by
  refine ⟨fun h => ⟨?_, ?_, ?_⟩, fun ⟨h1, h2, h3⟩ => by rw [h1, h2, h3]⟩
  · simpa using congrArg unitField h
  · simpa using congrArg opField h
  · simpa using congrArg argField h

/-- The opcode byte of a word, with `ARG` masked out. -/
theorem and_opcodeMask (w : Word) : w &&& 0xFF000000 = commandWord (unitField w) (opField w) 0 := by
  refine BitVec.eq_of_getLsbD_eq fun i hi => ?_
  rw [commandWord_getLsbD, BitVec.getLsbD_and]
  simp only [unitField, opField, BitVec.getLsbD_extractLsb']
  interval_cases i <;> simp

theorem and_fullMask (w : Word) : w &&& 0xFFFFFFFF = w := BitVec.and_allOnes

theorem decode_commandWord (u o : BitVec 4) (a : BitVec 24) :
    decode (commandWord u o a) =
      match u.toNat with
      | 1 => decodeHash o a
      | 2 => decodeCbc o a
      | 3 => decodeCtr o a
      | _ => .error .reservedUnit := by
  rw [decode, unitField_commandWord, opField_commandWord, argField_commandWord] <;> rfl

/-- One bit of the two window fields side by side. -/
theorem window_fields_getLsbD (a b : BitVec 12) (i : Nat) : (a ++ b : BitVec 24).getLsbD i = if i < 12 then b.getLsbD i else a.getLsbD (i-12) := by
  have := BitVec.getLsbD_append (x := a) (y := b) (i := i)
  simpa only [Bool.cond_decide] using this

theorem window_fields_hi (a b : BitVec 12) : (a ++ b : BitVec 24).extractLsb' 12 12 = a := by
  apply BitVec.eq_of_getLsbD_eq; intro i hi
  rw [BitVec.getLsbD_extractLsb', window_fields_getLsbD]; simp [hi]

theorem window_fields_lo (a b : BitVec 12) : (a ++ b : BitVec 24).extractLsb' 0 12 = b := by
  apply BitVec.eq_of_getLsbD_eq; intro i hi
  rw [BitVec.getLsbD_extractLsb', window_fields_getLsbD]; simp [hi]

/-- The two window fields make up `ARG`. -/
theorem window_fields_eq (a : BitVec 24) : (a.extractLsb' 12 12 ++ a.extractLsb' 0 12 : BitVec 24) = a := by
  apply BitVec.eq_of_getLsbD_eq; intro i hi
  rw [window_fields_getLsbD]; split
  · next h => simp [h]
  · rw [BitVec.getLsbD_extractLsb', show 12 + (i - 12) = i by omega]; simp; omega

theorem decode_reservedUnit {u o : BitVec 4} {a : BitVec 24} (h : u.toNat = 0 ∨ 4 ≤ u.toNat) : decode (commandWord u o a) = .error .reservedUnit := by
  rw [decode_commandWord]; split <;> first | omega | rfl

theorem decode_hash_reservedOp {o : BitVec 4} {a : BitVec 24} (h : 3 ≤ (o.extractLsb' 0 3).toNat) : decode (commandWord 1 o a) = .error .reservedOp := by
  rw [decode_commandWord]; show decodeHash o a = _; unfold decodeHash; split <;> first | omega | rfl

theorem decode_cbc_reservedOp {o : BitVec 4} {a : BitVec 24} (h : 3 ≤ o.toNat) : decode (commandWord 2 o a) = .error .reservedOp := by
  rw [decode_commandWord]; show decodeCbc o a = _; unfold decodeCbc; split <;> first | omega | rfl

theorem decode_ctr_reservedOp {o : BitVec 4} {a : BitVec 24} (h : 4 ≤ o.toNat) : decode (commandWord 3 o a) = .error .reservedOp := by
  rw [decode_commandWord]; show decodeCtr o a = _; unfold decodeCtr; split <;> first | omega | rfl

/-- The five commands without operand. -/
theorem decode_noOperand (a : BitVec 24) :
  (decode (commandWord 1 0 a) = noOperand a .sha256Init) ∧ (decode (commandWord 1 2 a) = noOperand a .sha256Final) ∧
  (decode (commandWord 1 8 a) = noOperand a .sha224Init) ∧ (decode (commandWord 1 10 a) = noOperand a .sha224Final) ∧
  (decode (commandWord 3 3 a) = noOperand a .ctrDiscard) := by
  simp only [decode_commandWord]; exact ⟨rfl, rfl, rfl, rfl, rfl⟩

/-- The eight commands with an operand. -/
theorem decode_operand (a : BitVec 24) :
  (decode (commandWord 1 1 a) = .ok (.sha256Update a.toNat)) ∧ (decode (commandWord 1 9 a) = .ok (.sha224Update a.toNat)) ∧
  (decode (commandWord 2 0 a) = .ok (.cbcInit a)) ∧ (decode (commandWord 2 1 a) = .ok (.cbcEncrypt a.toNat)) ∧
  (decode (commandWord 2 2 a) = .ok (.cbcDecrypt a.toNat)) ∧ (decode (commandWord 3 0 a) = .ok (.ctrInit a)) ∧
  (decode (commandWord 3 1 a) = .ok (.ctrCipher a.toNat)) ∧
  (decode (commandWord 3 2 a) = .ok (.ctrCustom (a.extractLsb' 12 12).toNat (a.extractLsb' 0 12).toNat)) := by
  simp only [decode_commandWord]; exact ⟨rfl, rfl, rfl, rfl, rfl, rfl, rfl, rfl⟩

theorem noOperand_eq_ok {a : BitVec 24} {i j} (h : noOperand a i = .ok j) : a = 0 ∧ j = i := by
  unfold noOperand at h; split at h
  · exact ⟨‹_›, by cases h; rfl⟩
  · cases h

end Sys2Proof
end

