-- ==== Sys2Proof/Laws/Hash.lean ====
section
/-! SUPPORT. What feeding a hash context and finalising a copy of it do (41_sha256_224.md R78, R80). -/

namespace Sys2Proof.Machine

theorem foldl_hashBlock (blks : List Bytes) (c : HashCtx) :
    blks.foldl hashBlock c =
      { c with h := blks.foldl compress c.h, blocks := c.blocks + BitVec.ofNat 32 blks.length } := by
  induction blks generalizing c with
  | nil => simp
  | cons b blks ih =>
    rw [List.foldl_cons, ih, hashBlock, List.foldl_cons, List.length_cons]
    congr 1
    rw [BitVec.add_assoc, BitVec.ofNat_add, BitVec.add_comm (BitVec.ofNat 32 blks.length)]
    rfl

/-- The effect of feeding `input` to a hash context (R78). -/
structure HashFed (c : HashCtx) (input : Bytes) (d : HashCtx) : Prop where
  h : d.h = (blocksOf 64 (c.buffered ++ input)).foldl compress c.h
  blocks : d.blocks = c.blocks + BitVec.ofNat 32 ((c.buffered ++ input).length / 64)
  npartial : d.npartial.toNat = (c.npartial.toNat + input.length) % 64
  buffered : d.buffered = tailOf 64 (c.buffered ++ input)

theorem buffered_length {c : HashCtx} (h : c.npartial.toNat < 64) : c.buffered.length = c.npartial.toNat :=
  firstBytes_length_of_le _ h.le

/-- `AccFeed` on a hash context whose count is below 64. -/
theorem hashFeed_fed {c : HashCtx} (h : c.npartial.toNat < 64) (input : Bytes) :
    ∃ d, hashFeed input c = some d ∧ HashFed c input d := by
  obtain ⟨g, hg, hf⟩ := accFeed_fed (process := hashBlock) (f := Feed.mk c.partialBuf c.npartial.toNat c) h input
  refine ⟨_, by rw [hashFeed, hg]; rfl, ?_⟩
  have hn := hf.n
  have hc := hf.ctx
  have hb := hf.buffered
  simp only at hn hc hb
  have hlt : g.n < 64 := by rw [hn]; exact Nat.mod_lt _ (by omega)
  have hto : (BitVec.ofNat 7 g.n).toNat = g.n := by rw [BitVec.toNat_ofNat]; omega
  rw [foldl_hashBlock] at hc
  refine ⟨?_, ?_, ?_, ?_⟩
  · simp only [hc]; rfl
  · simp only [hc, blocksOf_length]; rfl
  · exact hto.trans hn
  · simp only [HashCtx.buffered, hto]; exact hb

theorem hashFeed_eq_none {c : HashCtx} (h : 64 ≤ c.npartial.toNat) (input : Bytes) : hashFeed input c = none := by
  rw [hashFeed, accFeed_eq_none (f := Feed.mk c.partialBuf c.npartial.toNat c) h]
  rfl

/-- Feeding nothing leaves the context as it is, stale bytes included. -/
theorem hashFeed_nil {c : HashCtx} (h : c.npartial.toNat < 64) : hashFeed [] c = some c := by
  rw [hashFeed, accFeed_nil (f := Feed.mk c.partialBuf c.npartial.toNat c) h, Option.map_some]
  congr 1
  cases c
  simp only [HashCtx.mk.injEq, true_and, and_true]
  exact BitVec.ofNat_toNat _ _

/-- Feeding in two parts is feeding the joined bytes (R64). -/
theorem HashFed.append {c d e : HashCtx} {a b : Bytes} (h1 : HashFed c a d)
    (h2 : HashFed d b e) : HashFed c (a ++ b) e := by
  obtain ⟨e1, e2⟩ := blocksOf_append (B := 64) (by omega) (c.buffered ++ a) b
  refine ⟨?_, ?_, ?_, ?_⟩
  · rw [h2.h, h1.h, h1.buffered, ← List.append_assoc, e1, List.foldl_append]
  · rw [h2.blocks, h1.blocks, h1.buffered, BitVec.add_assoc, ← BitVec.ofNat_add]
    congr 2
    simp only [List.length_append, tailOf_length]
    omega
  · rw [h2.npartial, h1.npartial, List.length_append]
    omega
  · rw [h2.buffered, h1.buffered, ← List.append_assoc, e2]

/-- What feeding leaves does not depend on stale bytes: it is determined by `HashCtx.Same`. -/
theorem HashFed.unique {c c' d d' : HashCtx} {input : Bytes} (hs : c.Same c') (h : HashFed c input d)
    (h' : HashFed c' input d') : d.Same d' := by
  obtain ⟨e1, e2, e3, e4⟩ := hs
  refine ⟨?_, ?_, ?_, ?_⟩
  · rw [h.h, h'.h, e1, e4]
  · exact BitVec.eq_of_toNat_eq (by rw [h.npartial, h'.npartial, e2])
  · rw [h.blocks, h'.blocks, e3, e4]
  · rw [h.buffered, h'.buffered, e4]

/-- The padding completes the last block (R80, R81). -/
theorem padZeroes_completes (rule : PadRule) (n : Nat) : (n + 9 + padZeroes rule n) % 64 = 0 := by
  cases rule <;> simp only [padZeroes] <;> omega

@[simp] theorem paddingOf_length (rule : PadRule) (n : Nat) : (paddingOf rule n).length = padZeroes rule n + 9 := by
  simp [paddingOf]

/-- The three padding updates on the shadow (R80). -/
theorem padShadow_fed {c : HashCtx} (h : c.npartial.toNat < 64) (rule : PadRule) :
    ∃ d, padShadow rule c = some d ∧ HashFed c (paddingOf rule (digestedBytes c)) d := by
  obtain ⟨c1, e1, f1⟩ := hashFeed_fed h [0x80]
  have h1 : c1.npartial.toNat < 64 := by rw [f1.npartial]; omega
  obtain ⟨c2, e2, f2⟩ := hashFeed_fed h1 (zeros (padZeroes rule (digestedBytes c)))
  have h2 : c2.npartial.toNat < 64 := by rw [f2.npartial]; omega
  obtain ⟨c3, e3, f3⟩ := hashFeed_fed h2 (be64 (digestedBytes c * 8))
  refine ⟨c3, ?_, ?_⟩
  · rw [padShadow, e1, Option.bind_some, e2, Option.bind_some, e3]
  · exact (f1.append f2).append f3

/-- `HashFinalCore` of a context whose count is below 64 raises no fault and gives the digest of the padded copy (R80). -/
theorem hashFinalCore_ok {c : HashCtx} (h : c.npartial.toNat < 64) (rule : PadRule) :
    hashFinalCore rule c = .ok (digestOf rule c) := by
  obtain ⟨d, hd, hf⟩ := padShadow_fed h rule
  have hn : d.npartial = 0 := by
    apply BitVec.eq_of_toNat_eq
    rw [hf.npartial, paddingOf_length]
    have := padZeroes_completes rule (digestedBytes c)
    simp only [digestedBytes] at this ⊢
    simp only [BitVec.ofNat_eq_ofNat, BitVec.toNat_ofNat]
    omega
  rw [hashFinalCore, hd]
  simp only [hn, ne_eq, not_true_eq_false, if_false]
  rw [digestOf, hf.h]

theorem hashFinalCore_acc {c : HashCtx} (h : 64 ≤ c.npartial.toNat) (rule : PadRule) :
    hashFinalCore rule c = .error .acc := by
  rw [hashFinalCore, padShadow, hashFeed_eq_none h]
  rfl

theorem flatMap_be32_length (l : List Word) : (l.flatMap be32).length = 4 * l.length := by
  induction l with
  | nil => rfl
  | cons w l ih => rw [List.flatMap_cons, List.length_append, ih, be32_length, List.length_cons]; omega

@[simp] theorem digestBytes_length (h : Vector Word 8) : (digestBytes h).length = 32 := by
  rw [digestBytes, flatMap_be32_length, Vector.length_toList]

@[simp] theorem digestOf_length (rule : PadRule) (c : HashCtx) : (digestOf rule c).length = 32 := digestBytes_length _

/-- The digest does not depend on stale bytes. -/
theorem digestOf_same {c d : HashCtx} (h : c.Same d) (rule : PadRule) : digestOf rule c = digestOf rule d := by
  obtain ⟨e1, e2, e3, e4⟩ := h
  rw [digestOf, digestOf, digestedBytes, digestedBytes, e1, e2, e3, e4]

theorem HashFed.lt {c d : HashCtx} {x : Bytes} (h : HashFed c x d) : d.npartial.toNat < 64 := by
  rw [h.npartial]; omega

theorem HashCtx.Same.refl (c : HashCtx) : c.Same c := ⟨rfl, rfl, rfl, rfl⟩

theorem HashCtx.Same.symm {c d : HashCtx} (h : c.Same d) : d.Same c := ⟨h.1.symm, h.2.1.symm, h.2.2.1.symm, h.2.2.2.symm⟩

end Sys2Proof.Machine
end

