-- ==== Sys2Proof/Laws/Exec.lean ====
section
/-! SUPPORT. Everything a command can do when it has a next state: it is refused because the CORE is halted, it raises one
fault, or it completes (60_exceptions.md R127). The inversion lemma `exec_cases` is what later proofs cite. -/

namespace Sys2Proof.Machine

/-- Why a command raises a fault (R121). `F_ILLEGAL` is the decoder's, `F_PAD` never happens. -/
def FaultReason (i : Instr) (s : State) : FaultCode → Prop
  | .illegal => False
  | .uninit => isInit i = false ∧ s.valid (unitOf i) = false
  | .prp => (∃ h, (i = .cbcInit h ∨ i = .ctrInit h) ∧ bindablePrp s.cfg h = none)
  | .acc =>
    (unitOf i = .hash ∧ isInit i = false ∧ s.hashValid = true ∧ 64 ≤ s.hash.npartial.toNat) ∨
    (∃ n p, i = .ctrCipher n ∧ s.ctrValid = true ∧ lookupPrp s.cfg s.ctr.prp = some p ∧ p.pb ≤ s.ctr.nkeymat.toNat)
  | .pad => False
  | .window =>
    ∃ o w p, i = .ctrCustom o w ∧ s.ctrValid = true ∧ lookupPrp s.cfg s.ctr.prp = some p ∧ p.pb < o + w

/-- What a command that completes requires and does. -/
def Completes (s t : State) : Instr → Prop
  | .sha256Init => s.din = [] ∧ t = { s with
      hash := { h := iv256, partialBuf := Vector.replicate 64 0, npartial := 0, blocks := 0 }
      hashValid := true, dout := [], cc := 0 }
  | .sha224Init => s.din = [] ∧ t = { s with
      hash := { h := iv224, partialBuf := Vector.replicate 64 0, npartial := 0, blocks := 0 }
      hashValid := true, dout := [], cc := 0 }
  | .sha256Update n | .sha224Update n => s.hashValid = true ∧ s.din.length = n ∧ ∃ c, hashFeed s.din s.hash = some c ∧
      t = { s with hash := c, din := [], dout := [], cc := 0 }
  | .sha256Final => s.hashValid = true ∧ s.din = [] ∧ s.hash.npartial.toNat < 64 ∧
      t = { s with dout := digestOf s.cfg.padRule s.hash, cc := 0 }
  | .sha224Final => s.hashValid = true ∧ s.din = [] ∧ s.hash.npartial.toNat < 64 ∧
      t = { s with dout := (digestOf s.cfg.padRule s.hash).take 28, cc := 0 }
  | .cbcInit h => ∃ p, bindablePrp s.cfg h = some p ∧ s.din.length = p.pb ∧
      t = { s with cbc := { prp := h, chain := s.din }, cbcValid := true, din := [], dout := [], cc := 0 }
  | .cbcEncrypt n => s.cbcValid = true ∧ ∃ p, lookupPrp s.cfg s.cbc.prp = some p ∧ s.din.length = n * p.pb ∧
      t = (repeatBlocks (cbcEncryptBlock p) n { s with dout := [] }).complete
  | .cbcDecrypt n => s.cbcValid = true ∧ ∃ p, lookupPrp s.cfg s.cbc.prp = some p ∧ s.din.length = n * p.pb ∧
      t = (repeatBlocks (cbcDecryptBlock p) n { s with dout := [] }).complete
  | .ctrInit h => ∃ p, bindablePrp s.cfg h = some p ∧ s.din.length = p.pb ∧
      t = { s with
        ctr := { s.ctr with
          prp := h, nonce := s.din, counterOffset := 0, counterWidth := BitVec.ofNat 12 p.pb, nkeymat := 0 }
        ctrValid := true, din := [], dout := [], cc := 0 }
  | .ctrCipher n => s.ctrValid = true ∧ s.din.length = n ∧ ∃ p out r, lookupPrp s.cfg s.ctr.prp = some p ∧
      accXor p.pb (keystreamBlock p) s.din
        (Reservoir.mk s.ctr.keymat s.ctr.nkeymat.toNat { s with dout := [] }) = some (out, r) ∧
      t = { r.ctx with
        ctr := { r.ctx.ctr with keymat := r.keymat, nkeymat := BitVec.ofNat 12 r.n }
        din := r.ctx.din.drop n, dout := r.ctx.dout ++ out, cc := 0 }
  | .ctrCustom o w => s.ctrValid = true ∧ s.din = [] ∧ ∃ p, lookupPrp s.cfg s.ctr.prp = some p ∧ o + w ≤ p.pb ∧
      t = { s with
        ctr := { s.ctr with counterOffset := BitVec.ofNat 12 o, counterWidth := BitVec.ofNat 12 w }
        dout := [], cc := 0 }
  | .ctrDiscard => s.ctrValid = true ∧ s.din = [] ∧ t = { s with ctr := { s.ctr with nkeymat := 0 }, dout := [], cc := 0 }

/-- The outcome of a command with a next state, in the order of R127. -/
def Answers (i : Instr) (s t : State) : Prop :=
  (s.halt = true ∧ t = s.refuseHalted) ∨
  (s.halt = false ∧ ∃ f, FaultReason i s f ∧ t = s.raiseFault f) ∨
  (s.halt = false ∧ Completes s t i)

theorem hashInit_cases {v : Variant} {s t : State} (h : hashInit v s = .next t) :
    (s.halt = true ∧ t = s.refuseHalted) ∨
    (s.halt = false ∧ s.din = [] ∧ t = { s with
      hash := { h := (hashDescriptor v).iv, partialBuf := Vector.replicate 64 0, npartial := 0, blocks := 0 }
      hashValid := true, dout := [], cc := 0 }) := by
  obtain h | ⟨hh, h⟩ := whenRunning_eq_next h
  · exact .inl h
  · obtain ⟨hd, h⟩ := withDin_eq_next h
    exact .inr ⟨hh, List.eq_nil_of_length_eq_zero hd, by simpa [State.complete, ccOk] using h.symm⟩

theorem hashUpdate_cases {n : Nat} {s t : State} (h : hashUpdate n s = .next t) :
    (s.halt = true ∧ t = s.refuseHalted) ∨
    (s.halt = false ∧ s.hashValid = false ∧ t = s.raiseFault .uninit) ∨
    (s.halt = false ∧ s.hashValid = true ∧ 64 ≤ s.hash.npartial.toNat ∧ t = s.raiseFault .acc) ∨
    (s.halt = false ∧ s.hashValid = true ∧ s.din.length = n ∧ ∃ c, hashFeed s.din s.hash = some c ∧
      t = { s with hash := c, din := [], dout := [], cc := 0 }) := by
  obtain h | ⟨hh, h⟩ := whenRunning_eq_next h
  · exact .inl h
  obtain ⟨hv, h⟩ | ⟨hv, h⟩ := whenValid_eq_next h
  · exact .inr (.inl ⟨hh, hv, h⟩)
  simp only at hv h
  by_cases hn : s.hash.npartial.toNat < 64
  · obtain ⟨c, hc, -⟩ := hashFeed_fed hn s.din
    simp only [hc] at h
    obtain ⟨hd, h⟩ := withDin_eq_next h
    refine .inr (.inr (.inr ⟨hh, hv, hd, c, hc, ?_⟩))
    have hdrop : s.din.drop n = [] := List.drop_of_length_le (by simp only at hd; omega)
    simpa [State.complete, State.dinTake, ccOk, hdrop] using h.symm
  · rw [hashFeed_eq_none (by omega)] at h
    exact .inr (.inr (.inl ⟨hh, hv, by omega, by simpa using h.symm⟩))

theorem hashFinal_cases {v : Variant} {s t : State} (h : hashFinal v s = .next t) :
    (s.halt = true ∧ t = s.refuseHalted) ∨
    (s.halt = false ∧ s.hashValid = false ∧ t = s.raiseFault .uninit) ∨
    (s.halt = false ∧ s.hashValid = true ∧ 64 ≤ s.hash.npartial.toNat ∧ t = s.raiseFault .acc) ∨
    (s.halt = false ∧ s.hashValid = true ∧ s.din = [] ∧ s.hash.npartial.toNat < 64 ∧
      t = { s with dout := (digestOf s.cfg.padRule s.hash).take (hashDescriptor v).hashsz, cc := 0 }) := by
  obtain h | ⟨hh, h⟩ := whenRunning_eq_next h
  · exact .inl h
  obtain ⟨hv, h⟩ | ⟨hv, h⟩ := whenValid_eq_next h
  · exact .inr (.inl ⟨hh, hv, h⟩)
  simp only at hv h
  by_cases hn : s.hash.npartial.toNat < 64
  · rw [hashFinalCore_ok hn] at h
    obtain ⟨hd, h⟩ := withDin_eq_next h
    exact .inr (.inr (.inr ⟨hh, hv, List.eq_nil_of_length_eq_zero hd, hn,
      by simpa [State.complete, State.doutPut, ccOk] using h.symm⟩))
  · rw [hashFinalCore_acc (by omega)] at h
    exact .inr (.inr (.inl ⟨hh, hv, by omega, by simpa using h.symm⟩))

theorem cbcBlocks_cases {block : Prp → State → State} {n : Nat} {s t : State} (h : cbcBlocks block n s = .next t) :
    (s.halt = true ∧ t = s.refuseHalted) ∨
    (s.halt = false ∧ s.cbcValid = false ∧ t = s.raiseFault .uninit) ∨
    (s.halt = false ∧ s.cbcValid = true ∧ ∃ p, lookupPrp s.cfg s.cbc.prp = some p ∧ s.din.length = n * p.pb ∧
      t = (repeatBlocks (block p) n { s with dout := [] }).complete) := by
  obtain h | ⟨hh, h⟩ := whenRunning_eq_next h
  · exact .inl h
  obtain ⟨hv, h⟩ | ⟨hv, h⟩ := whenValid_eq_next h
  · exact .inr (.inl ⟨hh, hv, h⟩)
  obtain ⟨p, hp, h⟩ := withBoundPrp_eq_next h
  obtain ⟨hd, h⟩ := withDin_eq_next h
  exact .inr (.inr ⟨hh, hv, p, hp, hd, by simpa using h.symm⟩)

theorem execCbcInit_cases {hd : Handle} {s t : State} (h : execCbcInit hd s = .next t) :
    Answers (.cbcInit hd) s t := by
  obtain h | ⟨hh, h⟩ := whenRunning_eq_next h
  · exact .inl h
  obtain ⟨hp, h⟩ | ⟨p, hp, h⟩ := whenBindable_eq_next h
  · exact .inr (.inl ⟨hh, .prp, ⟨hd, .inl rfl, hp⟩, h⟩)
  obtain ⟨hl, h⟩ := withDin_eq_next h
  refine .inr (.inr ⟨hh, p, hp, hl, ?_⟩)
  have h1 : s.din.take p.pb = s.din := List.take_of_length_le (by simp only at hl; omega)
  have h2 : s.din.drop p.pb = [] := List.drop_of_length_le (by simp only at hl; omega)
  simpa [State.complete, State.dinTake, ccOk, h1, h2] using h.symm

theorem execCtrInit_cases {hd : Handle} {s t : State} (h : execCtrInit hd s = .next t) :
    Answers (.ctrInit hd) s t := by
  obtain h | ⟨hh, h⟩ := whenRunning_eq_next h
  · exact .inl h
  obtain ⟨hp, h⟩ | ⟨p, hp, h⟩ := whenBindable_eq_next h
  · exact .inr (.inl ⟨hh, .prp, ⟨hd, .inr rfl, hp⟩, h⟩)
  obtain ⟨hl, h⟩ := withDin_eq_next h
  refine .inr (.inr ⟨hh, p, hp, hl, ?_⟩)
  have h1 : s.din.take p.pb = s.din := List.take_of_length_le (by simp only at hl; omega)
  have h2 : s.din.drop p.pb = [] := List.drop_of_length_le (by simp only at hl; omega)
  simpa [State.complete, State.dinTake, ccOk, h1, h2] using h.symm

theorem execCtrCipher_cases {n : Nat} {s t : State} (h : execCtrCipher n s = .next t) :
    Answers (.ctrCipher n) s t := by
  obtain h | ⟨hh, h⟩ := whenRunning_eq_next h
  · exact .inl h
  obtain ⟨hv, h⟩ | ⟨hv, h⟩ := whenValid_eq_next h
  · exact .inr (.inl ⟨hh, .uninit, ⟨rfl, hv⟩, h⟩)
  obtain ⟨p, hp, h⟩ := withBoundPrp_eq_next h
  split at h
  · next hx =>
    refine .inr (.inl ⟨hh, .acc, .inr ⟨n, p, rfl, hv, hp, ?_⟩, by simpa using h.symm⟩)
    by_contra hc
    rw [accXor, if_neg (by simpa using hc)] at hx
    cases hx
  · next out r hx =>
    obtain ⟨hl, h⟩ := withDin_eq_next h
    exact .inr (.inr ⟨hh, hv, hl, p, out, r, hp, hx, by
      simpa [State.complete, State.dinTake, State.doutPut, ccOk] using h.symm⟩)

theorem execCtrCustom_cases {o w : Nat} {s t : State} (h : execCtrCustom o w s = .next t) :
    Answers (.ctrCustom o w) s t := by
  obtain h | ⟨hh, h⟩ := whenRunning_eq_next h
  · exact .inl h
  obtain ⟨hv, h⟩ | ⟨hv, h⟩ := whenValid_eq_next h
  · exact .inr (.inl ⟨hh, .uninit, ⟨rfl, hv⟩, h⟩)
  obtain ⟨p, hp, h⟩ := withBoundPrp_eq_next h
  by_cases hw : o + w ≤ p.pb
  · simp only [windowFits, hw, decide_true, if_true] at h
    obtain ⟨hl, h⟩ := withDin_eq_next h
    exact .inr (.inr ⟨hh, hv, List.eq_nil_of_length_eq_zero hl, p, hp, hw, by
      simpa [State.complete, ccOk] using h.symm⟩)
  · simp only [windowFits, hw, decide_false, Bool.false_eq_true, if_false] at h
    exact .inr (.inl ⟨hh, .window, ⟨o, w, p, rfl, hv, hp, by omega⟩, by simpa using h.symm⟩)

theorem execCtrDiscard_cases {s t : State} (h : execCtrDiscard s = .next t) :
    Answers .ctrDiscard s t := by
  obtain h | ⟨hh, h⟩ := whenRunning_eq_next h
  · exact .inl h
  obtain ⟨hv, h⟩ | ⟨hv, h⟩ := whenValid_eq_next h
  · exact .inr (.inl ⟨hh, .uninit, ⟨rfl, hv⟩, h⟩)
  obtain ⟨hl, h⟩ := withDin_eq_next h
  exact .inr (.inr ⟨hh, hv, List.eq_nil_of_length_eq_zero hl, by simpa [State.complete, ccOk] using h.symm⟩)

/-- Everything a command can do when it has a next state. -/
theorem exec_cases {i : Instr} {s t : State} (h : exec i s = .next t) : Answers i s t := by
  cases i with
  | sha256Init =>
    obtain h | ⟨hh, hd, rfl⟩ := hashInit_cases h
    · exact .inl h
    · exact .inr (.inr ⟨hh, hd, rfl⟩)
  | sha224Init =>
    obtain h | ⟨hh, hd, rfl⟩ := hashInit_cases h
    · exact .inl h
    · exact .inr (.inr ⟨hh, hd, rfl⟩)
  | sha256Update n =>
    obtain h | ⟨hh, hv, h⟩ | ⟨hh, hv, hn, h⟩ | ⟨hh, hv, hd, c, hc, h⟩ := hashUpdate_cases h
    · exact .inl h
    · exact .inr (.inl ⟨hh, .uninit, ⟨rfl, hv⟩, h⟩)
    · exact .inr (.inl ⟨hh, .acc, .inl ⟨rfl, rfl, hv, hn⟩, h⟩)
    · exact .inr (.inr ⟨hh, hv, hd, c, hc, h⟩)
  | sha224Update n =>
    obtain h | ⟨hh, hv, h⟩ | ⟨hh, hv, hn, h⟩ | ⟨hh, hv, hd, c, hc, h⟩ := hashUpdate_cases h
    · exact .inl h
    · exact .inr (.inl ⟨hh, .uninit, ⟨rfl, hv⟩, h⟩)
    · exact .inr (.inl ⟨hh, .acc, .inl ⟨rfl, rfl, hv, hn⟩, h⟩)
    · exact .inr (.inr ⟨hh, hv, hd, c, hc, h⟩)
  | sha256Final =>
    obtain h | ⟨hh, hv, h⟩ | ⟨hh, hv, hn, h⟩ | ⟨hh, hv, hd, hn, h⟩ := hashFinal_cases h
    · exact .inl h
    · exact .inr (.inl ⟨hh, .uninit, ⟨rfl, hv⟩, h⟩)
    · exact .inr (.inl ⟨hh, .acc, .inl ⟨rfl, rfl, hv, hn⟩, h⟩)
    · refine .inr (.inr ⟨hh, hv, hd, hn, ?_⟩)
      rwa [List.take_of_length_le (by rw [digestOf_length]; exact Nat.le_refl 32)] at h
  | sha224Final =>
    obtain h | ⟨hh, hv, h⟩ | ⟨hh, hv, hn, h⟩ | ⟨hh, hv, hd, hn, h⟩ := hashFinal_cases h
    · exact .inl h
    · exact .inr (.inl ⟨hh, .uninit, ⟨rfl, hv⟩, h⟩)
    · exact .inr (.inl ⟨hh, .acc, .inl ⟨rfl, rfl, hv, hn⟩, h⟩)
    · exact .inr (.inr ⟨hh, hv, hd, hn, h⟩)
  | cbcInit hd => exact execCbcInit_cases h
  | cbcEncrypt n =>
    obtain h | ⟨hh, hv, h⟩ | ⟨hh, hv, h⟩ := cbcBlocks_cases h
    · exact .inl h
    · exact .inr (.inl ⟨hh, .uninit, ⟨rfl, hv⟩, h⟩)
    · exact .inr (.inr ⟨hh, hv, h⟩)
  | cbcDecrypt n =>
    obtain h | ⟨hh, hv, h⟩ | ⟨hh, hv, h⟩ := cbcBlocks_cases h
    · exact .inl h
    · exact .inr (.inl ⟨hh, .uninit, ⟨rfl, hv⟩, h⟩)
    · exact .inr (.inr ⟨hh, hv, h⟩)
  | ctrInit hd => exact execCtrInit_cases h
  | ctrCipher n => exact execCtrCipher_cases h
  | ctrCustom o w => exact execCtrCustom_cases h
  | ctrDiscard => exact execCtrDiscard_cases h

theorem exec_halted {i : Instr} {s : State} (h : s.halt = true) : exec i s = .next s.refuseHalted := by
  cases i <;> simp only [exec, execSha256Init, execSha256Update, execSha256Final, execSha224Init, execSha224Update, execSha224Final, execCbcInit, execCbcEncrypt, execCbcDecrypt, execCtrInit, execCtrCipher, execCtrCustom, execCtrDiscard, hashInit, hashUpdate, hashFinal, cbcBlocks] <;> exact whenRunning_halted h _

theorem exec_uninit {i : Instr} {s : State} (h : s.halt = false) (hi : isInit i = false) (hv : s.valid (unitOf i) = false) : exec i s = .next (s.raiseFault .uninit) := by
  cases i <;> try cases hi
  all_goals
    simp only [exec, execSha256Update, execSha256Final, execSha224Update, execSha224Final, execCbcEncrypt, execCbcDecrypt,
      execCtrCipher, execCtrCustom, execCtrDiscard, hashUpdate, hashFinal, cbcBlocks, unitOf, State.valid] at *
    rw [whenRunning_running h]
    simp [whenValid, hv, State.raiseFault]

/-- However many bytes XOR mode handles, its context has made some number of blocks. -/
theorem xorBytewise_ctx {σ} (B) (mk : σ → Bytes × σ) (input : Bytes) (r : Reservoir σ) : ∃ j, (xorBytewise B mk input r).2.ctx = contextAfter mk j r.ctx := by
  induction input generalizing r with
  | nil => exact ⟨0, rfl⟩
  | cons x xs ih =>
    simp only [xorBytewise]
    obtain ⟨j, hj⟩ := ih { refill B mk r with n := (refill B mk r).n - 1 }
    rw [hj]
    by_cases h : r.n = 0
    · exact ⟨j+1, by simp [refill, h, contextAfter]⟩
    · exact ⟨j, by simp [refill, h]⟩

theorem accXor_ctx {p : Prp} {s : State} {input km n out r} (h : accXor p.pb (keystreamBlock p) input (Reservoir.mk km n s) = some (out, r)) :
   ∃ j, r.ctx = { s with
      ctr := { s.ctr with nonce := counterAfter s.ctr j }
      prpTrace := s.prpTrace ++ (List.range j).map fun i => ⟨s.ctr.prp, .enc, counterAfter s.ctr i⟩ } := by
  unfold accXor at h; split at h
  · cases h
  · obtain ⟨j, hj⟩ := xorBytewise_ctx p.pb (keystreamBlock p) input (Reservoir.mk km n s)
    injection h with h; rw [h] at hj
    exact ⟨j, by rw [← contextAfter_keystream]; exact hj⟩

/-- What every command that completes leaves as it is, and its completion code. -/
theorem completes_keeps {i s t} (h : Completes s t i) : t.halt = s.halt ∧ t.cfg = s.cfg ∧ t.pending = s.pending ∧ t.observed = s.observed ∧ t.freeReads = s.freeReads ∧ t.cc = 0 ∧ t.fcode = s.fcode := by
  cases i <;> simp only [Completes] at h
  case sha256Init => obtain ⟨_, rfl⟩ := h; exact ⟨rfl, rfl, rfl, rfl, rfl, rfl, rfl⟩
  case sha224Init => obtain ⟨_, rfl⟩ := h; exact ⟨rfl, rfl, rfl, rfl, rfl, rfl, rfl⟩
  case sha256Update => obtain ⟨_, _, _, _, rfl⟩ := h; exact ⟨rfl, rfl, rfl, rfl, rfl, rfl, rfl⟩
  case sha224Update => obtain ⟨_, _, _, _, rfl⟩ := h; exact ⟨rfl, rfl, rfl, rfl, rfl, rfl, rfl⟩
  case sha256Final => obtain ⟨_, _, _, rfl⟩ := h; exact ⟨rfl, rfl, rfl, rfl, rfl, rfl, rfl⟩
  case sha224Final => obtain ⟨_, _, _, rfl⟩ := h; exact ⟨rfl, rfl, rfl, rfl, rfl, rfl, rfl⟩
  case cbcInit => obtain ⟨_, _, _, rfl⟩ := h; exact ⟨rfl, rfl, rfl, rfl, rfl, rfl, rfl⟩
  case cbcEncrypt => obtain ⟨_, _, _, _, rfl⟩ := h; rw [repeatBlocks_encrypt]; exact ⟨rfl, rfl, rfl, rfl, rfl, rfl, rfl⟩
  case cbcDecrypt => obtain ⟨_, _, _, _, rfl⟩ := h; rw [repeatBlocks_decrypt]; exact ⟨rfl, rfl, rfl, rfl, rfl, rfl, rfl⟩
  case ctrInit => obtain ⟨_, _, _, rfl⟩ := h; exact ⟨rfl, rfl, rfl, rfl, rfl, rfl, rfl⟩
  case ctrCipher =>
    obtain ⟨_, _, p, out, r, _, hx, rfl⟩ := h
    obtain ⟨j, hj⟩ := accXor_ctx hx
    rw [hj]; exact ⟨rfl, rfl, rfl, rfl, rfl, rfl, rfl⟩
  case ctrCustom => obtain ⟨_, _, _, _, _, rfl⟩ := h; exact ⟨rfl, rfl, rfl, rfl, rfl, rfl, rfl⟩
  case ctrDiscard => obtain ⟨_, _, rfl⟩ := h; exact ⟨rfl, rfl, rfl, rfl, rfl, rfl, rfl⟩

/-- What a command that completes does to the VALID flags (60_exceptions.md R131). -/
theorem completes_valid {i s t} (h : Completes s t i) : t.valid (unitOf i) = true ∧ (isInit i = true ∨ s.valid (unitOf i) = true) ∧ ∀ u, u ≠ unitOf i → t.valid u = s.valid u := by
  cases i <;> simp only [Completes] at h
  case sha256Init => obtain ⟨_, rfl⟩ := h; exact ⟨rfl, .inl rfl, fun u hu => by cases u <;> first | exact absurd rfl hu | rfl⟩
  case sha224Init => obtain ⟨_, rfl⟩ := h; exact ⟨rfl, .inl rfl, fun u hu => by cases u <;> first | exact absurd rfl hu | rfl⟩
  case sha256Update => obtain ⟨h, _, _, _, rfl⟩ := h; exact ⟨h, .inr h, fun u hu => by cases u <;> first | exact absurd rfl hu | rfl⟩
  case sha224Update => obtain ⟨h, _, _, _, rfl⟩ := h; exact ⟨h, .inr h, fun u hu => by cases u <;> first | exact absurd rfl hu | rfl⟩
  case sha256Final => obtain ⟨h, _, _, rfl⟩ := h; exact ⟨h, .inr h, fun u hu => by cases u <;> first | exact absurd rfl hu | rfl⟩
  case sha224Final => obtain ⟨h, _, _, rfl⟩ := h; exact ⟨h, .inr h, fun u hu => by cases u <;> first | exact absurd rfl hu | rfl⟩
  case cbcInit => obtain ⟨_, _, _, rfl⟩ := h; exact ⟨rfl, .inl rfl, fun u hu => by cases u <;> first | exact absurd rfl hu | rfl⟩
  case cbcEncrypt => obtain ⟨h, _, _, _, rfl⟩ := h; rw [repeatBlocks_encrypt]; exact ⟨h, .inr h, fun u hu => by cases u <;> first | exact absurd rfl hu | rfl⟩
  case cbcDecrypt => obtain ⟨h, _, _, _, rfl⟩ := h; rw [repeatBlocks_decrypt]; exact ⟨h, .inr h, fun u hu => by cases u <;> first | exact absurd rfl hu | rfl⟩
  case ctrInit => obtain ⟨_, _, _, rfl⟩ := h; exact ⟨rfl, .inl rfl, fun u hu => by cases u <;> first | exact absurd rfl hu | rfl⟩
  case ctrCipher =>
    obtain ⟨h, _, p, out, r, _, hx, rfl⟩ := h
    obtain ⟨j, hj⟩ := accXor_ctx hx
    rw [hj]; exact ⟨h, .inr h, fun u hu => by cases u <;> first | exact absurd rfl hu | rfl⟩
  case ctrCustom => obtain ⟨h, _, _, _, _, rfl⟩ := h; exact ⟨h, .inr h, fun u hu => by cases u <;> first | exact absurd rfl hu | rfl⟩
  case ctrDiscard => obtain ⟨h, _, rfl⟩ := h; exact ⟨h, .inr h, fun u hu => by cases u <;> first | exact absurd rfl hu | rfl⟩

/-- A running CORE whose state is fit for a command completes it: the converse of the last case of `exec_cases`. -/
theorem exec_of_completes {i : Instr} {s t : State} (h : s.halt = false) (hc : Completes s t i) : exec i s = .next t := by
  have drop : ∀ {n : Nat}, s.din.length = n → s.din.drop n = [] := fun h => List.drop_of_length_le (by omega)
  cases i with
  | sha256Init =>
    obtain ⟨hd, rfl⟩ := hc
    simp only [exec, execSha256Init, hashInit]
    rw [whenRunning_running h, withDin_of_eq (by simp [hd])]
    rfl
  | sha224Init =>
    obtain ⟨hd, rfl⟩ := hc
    simp only [exec, execSha224Init, hashInit]
    rw [whenRunning_running h, withDin_of_eq (by simp [hd])]
    rfl
  | sha256Update n =>
    obtain ⟨hv, hd, c, hf, rfl⟩ := hc
    simp only [exec, execSha256Update, hashUpdate]
    rw [whenRunning_running h, whenValid_of_valid (by exact hv)]
    simp only [hf]
    rw [withDin_of_eq (by exact hd)]
    simp [State.complete, State.dinTake, drop hd, ccOk]
  | sha224Update n =>
    obtain ⟨hv, hd, c, hf, rfl⟩ := hc
    simp only [exec, execSha224Update, hashUpdate]
    rw [whenRunning_running h, whenValid_of_valid (by exact hv)]
    simp only [hf]
    rw [withDin_of_eq (by exact hd)]
    simp [State.complete, State.dinTake, drop hd, ccOk]
  | sha256Final =>
    obtain ⟨hv, hd, hn, rfl⟩ := hc
    simp only [exec, execSha256Final, hashFinal]
    rw [whenRunning_running h, whenValid_of_valid (by exact hv)]
    simp only [hashFinalCore_ok hn]
    rw [withDin_of_eq (by simp [hd])]
    have : (digestOf s.cfg.padRule s.hash).take (hashDescriptor .sha256).hashsz = digestOf s.cfg.padRule s.hash :=
      List.take_of_length_le (by rw [digestOf_length]; exact Nat.le_refl 32)
    simp [State.complete, State.doutPut, ccOk, this]
  | sha224Final =>
    obtain ⟨hv, hd, hn, rfl⟩ := hc
    simp only [exec, execSha224Final, hashFinal]
    rw [whenRunning_running h, whenValid_of_valid (by exact hv)]
    simp only [hashFinalCore_ok hn]
    rw [withDin_of_eq (by simp [hd])]
    simp [State.complete, State.doutPut, ccOk, hashDescriptor]
  | cbcInit hd =>
    obtain ⟨p, hp, hl, rfl⟩ := hc
    simp only [exec, execCbcInit]
    rw [whenRunning_running h, whenBindable_some (p := p) (by exact hp), withDin_of_eq (by exact hl)]
    simp [State.complete, State.dinTake, drop hl, ccOk, List.take_of_length_le (Nat.le_of_eq hl)]
  | cbcEncrypt n =>
    obtain ⟨hv, p, hp, hl, rfl⟩ := hc
    simp only [exec, execCbcEncrypt, cbcBlocks]
    rw [whenRunning_running h, whenValid_of_valid (by exact hv), withBoundPrp_some (p := p) (by exact hp),
      withDin_of_eq (by exact hl)]
  | cbcDecrypt n =>
    obtain ⟨hv, p, hp, hl, rfl⟩ := hc
    simp only [exec, execCbcDecrypt, cbcBlocks]
    rw [whenRunning_running h, whenValid_of_valid (by exact hv), withBoundPrp_some (p := p) (by exact hp),
      withDin_of_eq (by exact hl)]
  | ctrInit hd =>
    obtain ⟨p, hp, hl, rfl⟩ := hc
    simp only [exec, execCtrInit]
    rw [whenRunning_running h, whenBindable_some (p := p) (by exact hp), withDin_of_eq (by exact hl)]
    simp [State.complete, State.dinTake, drop hl, ccOk, List.take_of_length_le (Nat.le_of_eq hl)]
  | ctrCipher n =>
    obtain ⟨hv, hl, p, out, r, hp, hx, rfl⟩ := hc
    simp only [exec, execCtrCipher]
    rw [whenRunning_running h, whenValid_of_valid (by exact hv), withBoundPrp_some (p := p) (by exact hp)]
    simp only [hx]
    rw [withDin_of_eq (by exact hl)]
    rfl
  | ctrCustom o w =>
    obtain ⟨hv, hd, p, hp, hw, rfl⟩ := hc
    simp only [exec, execCtrCustom]
    rw [whenRunning_running h, whenValid_of_valid (by exact hv), withBoundPrp_some (p := p) (by exact hp)]
    simp only [windowFits, hw, decide_true, if_true]
    rw [withDin_of_eq (by simp [hd])]
    rfl
  | ctrDiscard =>
    obtain ⟨hv, hd, rfl⟩ := hc
    simp only [exec, execCtrDiscard]
    rw [whenRunning_running h, whenValid_of_valid (by exact hv), withDin_of_eq (by simp [hd])]
    rfl

end Sys2Proof.Machine
end

