-- ==== Sys2Proof/Laws/PerInstr.lean ====
section
/-! SUPPORT. Statements made for each command on its own: its word lies in its own row of the opcode map, and in no other
(30_encoding.md R52). -/

namespace Sys2Proof.Laws.EncodingRow

/-- The row of the opcode map that the command's word selects is its own, and no other. -/
def Statement (i : Instr) : Prop := ∀ r ∈ opcodeTable, r.selects (encode i) = decide (r.mnemonic = i.mnemonic)

/-- Whether a row with an operand selects a word. -/
theorem selects_operand (m : Mnemonic) (u o u' o' : BitVec 4) (a : BitVec 24) :
    OpcodeRow.selects ⟨m, commandWord u' o' 0, 0xFF000000⟩ (commandWord u o a) = (decide (u = u') && decide (o = o')) := by
  rw [OpcodeRow.selects, Bool.eq_iff_iff]
  simp only [and_opcodeMask, unitField_commandWord, opField_commandWord, beq_iff_eq, commandWord_inj, and_true,
    Bool.and_eq_true, decide_eq_true_eq]

/-- Whether a row without operand selects a word. -/
theorem selects_fixed (m : Mnemonic) (u o u' o' : BitVec 4) (a : BitVec 24) :
    OpcodeRow.selects ⟨m, commandWord u' o' 0, 0xFFFFFFFF⟩ (commandWord u o a)
      = (decide (u = u') && decide (o = o') && decide (a = 0)) := by
  rw [OpcodeRow.selects, Bool.eq_iff_iff]
  simp only [and_fullMask, beq_iff_eq, commandWord_inj, Bool.and_eq_true, decide_eq_true_eq, and_assoc]

/-- The opcode map with its patterns written from `UNIT` and `OP`. -/
theorem opcodeTable_eq : opcodeTable =
    [⟨.sha256Init, commandWord 1 0 0, 0xFFFFFFFF⟩, ⟨.sha256Update, commandWord 1 1 0, 0xFF000000⟩,
     ⟨.sha256Final, commandWord 1 2 0, 0xFFFFFFFF⟩, ⟨.sha224Init, commandWord 1 8 0, 0xFFFFFFFF⟩,
     ⟨.sha224Update, commandWord 1 9 0, 0xFF000000⟩, ⟨.sha224Final, commandWord 1 10 0, 0xFFFFFFFF⟩,
     ⟨.cbcInit, commandWord 2 0 0, 0xFF000000⟩, ⟨.cbcEncrypt, commandWord 2 1 0, 0xFF000000⟩,
     ⟨.cbcDecrypt, commandWord 2 2 0, 0xFF000000⟩, ⟨.ctrInit, commandWord 3 0 0, 0xFF000000⟩,
     ⟨.ctrCipher, commandWord 3 1 0, 0xFF000000⟩, ⟨.ctrCustom, commandWord 3 2 0, 0xFF000000⟩,
     ⟨.ctrDiscard, commandWord 3 3 0, 0xFFFFFFFF⟩] := by decide

/-- A statement about every row, from its thirteen cases on the fields of the word. -/
theorem of_fields (i : Instr) (u o : BitVec 4) (a : BitVec 24) (he : encode i = commandWord u o a)
    (h : [(decide (u = 1) && decide (o = 0) && decide (a = 0)), (decide (u = 1) && decide (o = 1)),
        (decide (u = 1) && decide (o = 2) && decide (a = 0)), (decide (u = 1) && decide (o = 8) && decide (a = 0)),
        (decide (u = 1) && decide (o = 9)), (decide (u = 1) && decide (o = 10) && decide (a = 0)),
        (decide (u = 2) && decide (o = 0)), (decide (u = 2) && decide (o = 1)), (decide (u = 2) && decide (o = 2)),
        (decide (u = 3) && decide (o = 0)), (decide (u = 3) && decide (o = 1)), (decide (u = 3) && decide (o = 2)),
        (decide (u = 3) && decide (o = 3) && decide (a = 0))]
      = opcodeTable.map fun r => decide (r.mnemonic = i.mnemonic)) : Statement i := by
  have hm : opcodeTable.map (fun r => r.selects (encode i)) = opcodeTable.map fun r => decide (r.mnemonic = i.mnemonic) := by
    rw [← h, he, opcodeTable_eq]
    simp only [List.map_cons, List.map_nil]
    rw [selects_fixed, selects_operand, selects_fixed, selects_fixed, selects_operand, selects_fixed, selects_operand,
      selects_operand, selects_operand, selects_operand, selects_operand, selects_operand, selects_fixed]
  exact List.map_inj_left.1 hm

theorem sha256Init : Statement .sha256Init := of_fields _ 1 0 0 rfl (by decide)
theorem sha256Update (n : Nat) : Statement (.sha256Update n) := of_fields _ 1 1 (BitVec.ofNat 24 n) rfl rfl
theorem sha256Final : Statement .sha256Final := of_fields _ 1 2 0 rfl (by decide)
theorem sha224Init : Statement .sha224Init := of_fields _ 1 8 0 rfl (by decide)
theorem sha224Update (n : Nat) : Statement (.sha224Update n) := of_fields _ 1 9 (BitVec.ofNat 24 n) rfl rfl
theorem sha224Final : Statement .sha224Final := of_fields _ 1 10 0 rfl (by decide)
theorem cbcInit (h : Handle) : Statement (.cbcInit h) := of_fields _ 2 0 h rfl rfl
theorem cbcEncrypt (n : Nat) : Statement (.cbcEncrypt n) := of_fields _ 2 1 (BitVec.ofNat 24 n) rfl rfl
theorem cbcDecrypt (n : Nat) : Statement (.cbcDecrypt n) := of_fields _ 2 2 (BitVec.ofNat 24 n) rfl rfl
theorem ctrInit (h : Handle) : Statement (.ctrInit h) := of_fields _ 3 0 h rfl rfl
theorem ctrCipher (n : Nat) : Statement (.ctrCipher n) := of_fields _ 3 1 (BitVec.ofNat 24 n) rfl rfl
theorem ctrCustom (o w : Nat) : Statement (.ctrCustom o w) :=
  of_fields _ 3 2 (BitVec.ofNat 12 o ++ BitVec.ofNat 12 w) rfl rfl
theorem ctrDiscard : Statement .ctrDiscard := of_fields _ 3 3 0 rfl (by decide)

end Sys2Proof.Laws.EncodingRow
end

