-- ==== Sys2Proof/Laws/Step.lean ====
section
/-! SUPPORT. Everything a command transaction and a step can do when they have a next state, and how transcripts unfold. -/

namespace Sys2Proof.Machine

/-- A halted CORE refuses a command word whatever it is (60_exceptions.md R125). -/
theorem runCommand_halted {w : Word} {s : State} (h : s.halt = true) : runCommand w s = .next s.refuseHalted := by
  unfold runCommand
  split
  · exact exec_halted h
  · exact whenRunning_halted h _

/-- The outcomes of a command word with a next state, in the order of R127. -/
theorem runCommand_eq_next {w : Word} {s t : State} (h : runCommand w s = .next t) :
    (s.halt = true ∧ t = s.refuseHalted) ∨
    (s.halt = false ∧ (∃ e, decode w = .error e) ∧ t = s.raiseFault .illegal) ∨
    (s.halt = false ∧ ∃ i, decode w = .ok i ∧ exec i s = .next t) := by
  by_cases hh : s.halt = true
  · rw [runCommand_halted hh] at h
    cases h
    exact .inl ⟨hh, rfl⟩
  · have hh : s.halt = false := by simpa using hh
    unfold runCommand at h
    split at h
    · next i hd => exact .inr (.inr ⟨hh, i, hd, h⟩)
    · next e he =>
      rw [whenRunning_running hh] at h
      cases h
      exact .inr (.inl ⟨hh, ⟨e, he⟩, rfl⟩)

/-- What a step with a next state has done: nothing, one command, a reset, a register read or a register write. -/
theorem step_eq_next {s t : State} (h : step s = .next t) :
    (s.pending = [] ∧ t = s) ∨
    (∃ w input rest u, s.pending = .command w input :: rest ∧
      runCommand w { s with pending := rest, din := input } = .next u ∧ t = u.recordCommand) ∨
    (∃ rest, s.pending = .reset :: rest ∧ t = { s with pending := rest }.takeReset) ∨
    (∃ r rest, s.pending = .readReg r :: rest ∧ t = { s with pending := rest }.readRegister r) ∨
    (∃ r v rest, s.pending = .writeReg r v :: rest ∧ t = { s with pending := rest }) := by
  unfold step at h
  split at h
  · next hp => cases h; exact .inl ⟨hp, rfl⟩
  · next w input rest hp =>
    cases hr : runCommand w { s with pending := rest, din := input } with
    | next u => rw [hr] at h; cases h; exact .inr (.inl ⟨w, input, rest, u, hp, hr, rfl⟩)
    | fault _ => rw [hr] at h; cases h
    | refused _ => rw [hr] at h; cases h
  · next rest hp => cases h; exact .inr (.inr (.inl ⟨rest, hp, rfl⟩))
  · next r rest hp => cases h; exact .inr (.inr (.inr (.inl ⟨r, rest, hp, rfl⟩)))
  · next r v rest hp => cases h; exact .inr (.inr (.inr (.inr ⟨r, v, rest, hp, rfl⟩)))

/-- A transcript that begins with a command which has a next state. -/
theorem transcript_cons {i : Instr} {x : Bytes} {rest : List (Instr × Bytes)} {s t : State}
    (h : exec i { s with din := x } = .next t) :
    transcript ((i, x) :: rest) s = (transcript rest t).map fun r => ((t.dout, t.cc) :: r.1, r.2) := by
  rw [transcript]
  simp only [h]

end Sys2Proof.Machine
end

