-- ==== Sys2Proof/Tests/Slice0.lean ====
section
/-! SUPPORT. Tests against 95_test_vectors.md, and for each statement with hypotheses a witness that meets them. Every expected
value is the spec's: a table of section 3, a program of section 4, or a worked example of 41_sha256_224.md R74. -/

namespace Sys2Proof.Tests

open Sys2Proof.Machine

/-! ## Helpers -/

/-- The `n` bytes that a hexadecimal numeral writes out. -/
def hex (n v : Nat) : Bytes := (List.range n).map fun i => BitVec.ofNat 8 (v / 256 ^ (n - 1 - i))

/-- The letter "a" `n` times. -/
def letters (n : Nat) : Bytes := List.replicate n 0x61

/-- `TOY4` (95 section 1), with the answers that 95 3.6, 3.7, P3 and P4 print. -/
def toy4 : Prp where
  handle := 1
  pb := 4
  encAnswers :=
    [(hex 4 0xa0a0a0a0, hex 4 0xb1c2d3e4), (hex 4 0xa1d3c1f7, hex 4 0xe4e32ae5), (hex 4 0xc4c208c6, hex 4 0xd32af908),
      (hex 4 0x000000ff, hex 4 0x11223244), (hex 4 0x00000100, hex 4 0x11233344), (hex 4 0x00000101, hex 4 0x11233444),
      (hex 4 0xa1a2ffff, hex 4 0xb32132e5), (hex 4 0xa1a20000, hex 4 0xb32233e5), (hex 4 0xa1a20001, hex 4 0xb32234e5)]
  decAnswers :=
    [(hex 4 0xb1c2d3e4, hex 4 0xa0a0a0a0), (hex 4 0xe4e32ae5, hex 4 0xa1d3c1f7), (hex 4 0xd32af908, hex 4 0xc4c208c6)]

/-- The answers of a permutation of one-byte blocks that adds `k`. -/
def adding (k : Nat) : List (Bytes × Bytes) := (List.range 256).map fun v => ([BitVec.ofNat 8 v], [BitVec.ofNat 8 (v + k)])

/-- A PRP of one-byte blocks, whole: `enc` adds 1 and `dec` subtracts it. -/
def toy1 : Prp where
  handle := 7
  pb := 1
  encAnswers := adding 1
  decAnswers := adding 255

/-- A PRP whose block does not fit `PB_MAX = 16`. -/
def tooWide : Prp where
  handle := 8
  pb := 17
  encAnswers := []
  decAnswers := []

/-- A PRP whose block is as wide as `PB_MAX`. -/
def widest : Prp where
  handle := 2
  pb := 16
  encAnswers := []
  decAnswers := []

/-- The test configuration. -/
def config : Config where
  pbMax := 16
  padRule := .literal
  prpTable := [toy4, toy1, widest, tooWide]

/-- A just-reset CORE in the test configuration. -/
def fresh : State := State.resetWith config

/-- A hash context with state words `h` and the bytes `bs` buffered. -/
def hashWith (h : Vector Word 8) (bs : Bytes) : State :=
  { fresh with
    hashValid := true
    hash := { h := h, partialBuf := writeAt (Vector.replicate 64 0) 0 bs, npartial := BitVec.ofNat 7 bs.length, blocks := 0 } }

/-- A CBC context on `TOY4` with this chain. -/
def cbcWith (chain : Bytes) : State := { fresh with cbcValid := true, cbc := { prp := 1, chain := chain } }

/-- A CTR context on `TOY4`. -/
def ctrWith (nonce : Bytes) (o w : BitVec 12) (keymat : Bytes) (nkeymat : BitVec 12) : State :=
  { fresh with
    ctrValid := true
    ctr := { prp := 1, nonce := nonce, counterOffset := o, counterWidth := w, keymat := keymat, nkeymat := nkeymat } }

/-- The step that serves a command word with its `din`. -/
def serve (w : Word) (input : Bytes) (s : State) : Out := step { s with pending := [.command w input] }

/-- What one looks at after a step. -/
def after {α : Type} (view : State → α) : Out → Option α
  | .next s => some (view s)
  | .fault _ => none
  | .refused _ => none

/-- The bytes and the completion code of the command, and STATUS. -/
def reply (s : State) : Bytes × BitVec 8 × Word := (s.dout, s.cc, s.status)

/-- The hash context's `H`, fill count and block count. -/
def hashView (s : State) : Vector Word 8 × BitVec 7 × BitVec 32 := (s.hash.h, s.hash.npartial, s.hash.blocks)

/-- The CTR context's counter block, window, reservoir and its count. -/
def ctrView (s : State) : Bytes × BitVec 12 × BitVec 12 × Bytes × BitVec 12 :=
  (s.ctr.nonce, s.ctr.counterOffset, s.ctr.counterWidth, s.ctr.keymat, s.ctr.nkeymat)

/-! ## Well-formedness: each check refuses an ill-formed command (R51) -/

theorem test_wf_sha256Update : (Instr.sha256Update 16777216).wf = false ∧ (Instr.sha256Update 16777215).wf = true := by decide
theorem test_wf_sha224Update : (Instr.sha224Update 16777216).wf = false ∧ (Instr.sha224Update 16777215).wf = true := by decide
theorem test_wf_cbcEncrypt : (Instr.cbcEncrypt 16777216).wf = false ∧ (Instr.cbcEncrypt 16777215).wf = true := by decide
theorem test_wf_cbcDecrypt : (Instr.cbcDecrypt 16777216).wf = false ∧ (Instr.cbcDecrypt 16777215).wf = true := by decide
theorem test_wf_ctrCipher : (Instr.ctrCipher 16777216).wf = false ∧ (Instr.ctrCipher 16777215).wf = true := by decide
theorem test_wf_ctrCustom_offset : (Instr.ctrCustom 4096 0).wf = false ∧ (Instr.ctrCustom 4095 0).wf = true := by decide
theorem test_wf_ctrCustom_width : (Instr.ctrCustom 0 4096).wf = false ∧ (Instr.ctrCustom 0 4095).wf = true := by decide

/-! ## Decoding: words written out from R46 to R52 (95 3.1) -/

theorem test_decode_sha256Init : decode 0b0001_0000_000000000000000000000000#32 = .ok .sha256Init := rfl
theorem test_decode_sha256Update : decode 0b0001_0001_111111111111111111111111#32 = .ok (.sha256Update 16777215) := rfl
theorem test_decode_sha256Final : decode 0b0001_0010_000000000000000000000000#32 = .ok .sha256Final := rfl
theorem test_decode_sha224Init : decode 0b0001_1000_000000000000000000000000#32 = .ok .sha224Init := rfl
theorem test_decode_sha224Update : decode 0b0001_1001_000000000000000000000011#32 = .ok (.sha224Update 3) := rfl
theorem test_decode_sha224Final : decode 0b0001_1010_000000000000000000000000#32 = .ok .sha224Final := rfl
theorem test_decode_cbcInit : decode 0b0010_0000_000000000000000000000001#32 = .ok (.cbcInit 1) := rfl
theorem test_decode_cbcEncrypt : decode 0b0010_0001_000000000000000000000011#32 = .ok (.cbcEncrypt 3) := rfl
theorem test_decode_cbcDecrypt : decode 0b0010_0010_000000000000000000000011#32 = .ok (.cbcDecrypt 3) := rfl
theorem test_decode_ctrInit : decode 0b0011_0000_000000000000000000000001#32 = .ok (.ctrInit 1) := rfl
theorem test_decode_ctrCipher : decode 0b0011_0001_000000000000000000000110#32 = .ok (.ctrCipher 6) := rfl
theorem test_decode_ctrCustom : decode 0b0011_0010_000000001100_000000000100#32 = .ok (.ctrCustom 12 4) := rfl
theorem test_decode_ctrDiscard : decode 0b0011_0011_000000000000000000000000#32 = .ok .ctrDiscard := rfl

/-- 95 3.1: the illegal words. -/
theorem test_decode_illegal :
    [0x00000000, 0x10000001, 0x12000020, 0x13000000, 0x17000000, 0x1B000000, 0x1F000000, 0x23000000, 0x2F000000, 0x33000001,
      0x34000000, 0x40000000, 0xF0000000, 0xFFFFFFFF].all (fun w => (decodeTableWord 32 w).isNone) = true := by decide

/-- 95 3.1: the encoder gives the table's words. -/
theorem test_encode :
    encode (.sha256Update 0) = 0x11000000 ∧ encode .sha224Final = 0x1A000000 ∧ encode (.cbcDecrypt 3) = 0x22000003 ∧
    encode (.ctrCustom 2 2) = 0x32002002 ∧ encode (.ctrCustom 0 16) = 0x32000010 ∧ encode .ctrDiscard = 0x33000000 := by
  decide

/-- A word placed by `withFetchWord` runs as the first command after reset. -/
theorem test_withFetchWord :
    after reply (step (State.reset.withFetchWord 32 0x10000000)) = some ([], 0, 0x00000002) ∧
    after reply (step (State.reset.withFetchWord 32 0x11000003)) = some ([], 2, 0x00000201) := by
  decide

/-! ## The byte operations -/

/-- 95 3.7, D-CTR-1. -/
theorem test_beInc :
    beInc (hex 4 0x000000ff) 0 4 = hex 4 0x00000100 ∧ beInc (hex 4 0xffffffff) 0 4 = hex 4 0 ∧
    beInc (hex 5 0xaabbffffcc) 2 2 = hex 5 0xaabb0000cc ∧ beInc (hex 4 0xaabbccdd) 1 0 = hex 4 0xaabbccdd := by
  decide

/-- 95 3.4, the corner of 90 C2. -/
theorem test_padZeroes :
    padZeroes .literal 55 = 64 ∧ padZeroes .minimal 55 = 0 ∧ padZeroes .literal 54 = 1 ∧ padZeroes .minimal 120 = 63 := by
  decide

/-- 95 3.1 and R56: a stream longer than one command holds. -/
theorem test_splitStream : chunksOf 3 3 (hex 7 0x01020304050607) = [hex 3 0x010203, hex 3 0x040506, hex 1 0x07] := by decide

/-! ## The hash commands -/

/-- P1, line 1. -/
theorem test_sha256Init : after hashView (serve 0x10000000 [] (hashWith iv224 (letters 3))) = some (iv256, 0, 0) := by
  decide

/-- R77. -/
theorem test_sha224Init : after hashView (serve 0x18000000 [] fresh) = some (iv224, 0, 0) := by decide

/-- 95 section 2, V3: the byte that fills the block compresses it once. -/
theorem test_sha256Update :
    after hashView (serve 0x11000001 (letters 1) (hashWith iv256 (letters 63))) =
      some (#v[0xdf5bb81c, 0xe81e0626, 0xfb45a894, 0x4fd40f31, 0xb25e6816, 0xd6d499c1, 0xab904929, 0x00635e66], 0, 1) := by
  decide +kernel

/-- P1, line 2, with the other variant's command (R87). -/
theorem test_sha224Update :
    after (fun s => (hashView s, s.hash.buffered)) (serve 0x19000003 (hex 3 0x616263) (hashWith iv256 [])) =
      some ((iv256, 3, 0), hex 3 0x616263) := by
  decide

/-- D-SHA-1. -/
theorem test_sha256Final :
    after reply (serve 0x12000000 [] (hashWith iv256 (hex 3 0x616263))) =
      some (hex 32 0xba7816bf8f01cfea414140de5dae2223b00361a396177a9cb410ff61f20015ad, 0, 2) := by
  decide +kernel

/-- D-SHA-3, `LITERAL`: 64 zeroes and two compressions. -/
theorem test_sha256Final_literal_corner :
    after State.dout (serve 0x12000000 [] (hashWith iv256 (letters 55))) =
      some (hex 32 0x8dae2213be49843815e7ced67d8cbe7da18847dca23ed21b3ad0647012178096) := by
  decide +kernel

/-- 95 section 2, V2. -/
theorem test_sha224Final :
    after State.dout (serve 0x1A000000 [] (hashWith iv224 [])) =
      some (hex 28 0xd14a028c2a3a2bc9476102bb288234c415a2b01f828ea62ac5b3e42f) := by
  decide +kernel

/-! ## The CBC commands -/

/-- P3, line 1. -/
theorem test_cbcInit :
    after (fun s => (s.cbc, s.status)) (serve 0x20000001 (hex 4 0xa0a1a2a3) fresh) = some (⟨1, hex 4 0xa0a1a2a3⟩, 4) := by
  decide

/-- 95 3.8: no PRP has handle 9; the one with handle 8 is wider than `PB_MAX`. -/
theorem test_cbcInit_faults :
    after reply (serve 0x20000009 (letters 2) fresh) = some ([], 3, 0x00000301) ∧
    after reply (serve 0x20000008 (letters 17) fresh) = some ([], 3, 0x00000301) := by
  decide

/-- D-CBC-1. -/
theorem test_cbcEncrypt :
    after (fun s => (s.dout, s.cbc.chain, s.prpTrace))
        (serve 0x21000003 (hex 12 0x000102031011121320212223) (cbcWith (hex 4 0xa0a1a2a3))) =
      some (hex 12 0xb1c2d3e4e4e32ae5d32af908, hex 4 0xd32af908,
        [⟨1, .enc, hex 4 0xa0a0a0a0⟩, ⟨1, .enc, hex 4 0xa1d3c1f7⟩, ⟨1, .enc, hex 4 0xc4c208c6⟩]) := by
  decide

/-- 95 3.8: a fault with zero blocks too. -/
theorem test_cbcEncrypt_uninit : after reply (serve 0x21000000 [] fresh) = some ([], 2, 0x00000201) := by decide

/-- D-CBC-2. -/
theorem test_cbcDecrypt :
    after (fun s => (s.dout, s.cbc.chain, s.prpTrace))
        (serve 0x22000003 (hex 12 0xb1c2d3e4e4e32ae5d32af908) (cbcWith (hex 4 0xa0a1a2a3))) =
      some (hex 12 0x000102031011121320212223, hex 4 0xd32af908,
        [⟨1, .dec, hex 4 0xb1c2d3e4⟩, ⟨1, .dec, hex 4 0xe4e32ae5⟩, ⟨1, .dec, hex 4 0xd32af908⟩]) := by
  decide

/-! ## The CTR commands -/

/-- P4, line 1: the window is the whole block, the reservoir is emptied, its bytes stay. -/
theorem test_ctrInit :
    after ctrView (serve 0x30000001 (hex 4 0xa1a2fffe) (ctrWith (hex 4 0) 2 2 (hex 4 0x11233344) 2)) =
      some (hex 4 0xa1a2fffe, 0, 4, hex 4 0x11233344, 0) := by
  decide

/-- D-CTR-2. -/
theorem test_ctrCipher :
    after (fun s => (s.dout, s.ctr.nonce, s.ctr.keymat, s.ctr.nkeymat, s.prpTrace))
        (serve 0x31000006 (hex 6 0) (ctrWith (hex 4 0x000000ff) 0 4 [] 0)) =
      some (hex 6 0x112232441123, hex 4 0x00000101, hex 4 0x11233344, 2,
        [⟨1, .enc, hex 4 0x000000ff⟩, ⟨1, .enc, hex 4 0x00000100⟩]) := by
  decide

/-- P4, line 6: the window wraps without a carry into the bytes before it. -/
theorem test_ctrCipher_window :
    after (fun s => (s.dout, ctrView s)) (serve 0x31000009 (hex 9 0) (ctrWith (hex 4 0xa1a2ffff) 2 2 [] 0)) =
      some (hex 9 0xb32132e5b32233e5b3, (hex 4 0xa1a20002, 2, 2, hex 4 0xb32234e5, 3)) := by
  decide

/-- P4, line 3: the reservoir stays. -/
theorem test_ctrCustom :
    after ctrView (serve 0x32002002 [] (ctrWith (hex 4 0xa1a2ffff) 0 4 (hex 4 0xb32131e5) 2)) =
      some (hex 4 0xa1a2ffff, 2, 2, hex 4 0xb32131e5, 2) := by
  decide

/-- 95 3.8 and D-CTR-6: the window must fit, and the sum does not wrap. -/
theorem test_ctrCustom_window :
    after reply (serve 0x32003002 [] (ctrWith (hex 4 0) 0 4 [] 0)) = some ([], 6, 0x00000609) ∧
    after reply (serve 0x32FFFFFF [] (ctrWith (hex 4 0) 0 4 [] 0)) = some ([], 6, 0x00000609) ∧
    after reply (serve 0x32004000 [] (ctrWith (hex 4 0) 0 4 [] 0)) = some ([], 0, 0x00000008) := by
  decide

/-- P4, line 5. -/
theorem test_ctrDiscard :
    after ctrView (serve 0x33000000 [] (ctrWith (hex 4 0xa1a2ffff) 2 2 (hex 4 0xb32131e5) 1)) =
      some (hex 4 0xa1a2ffff, 2, 2, hex 4 0xb32131e5, 0) := by
  decide

/-! ## Faults, refusal and reset (95 3.8) -/

theorem test_illegal_word :
    after reply (serve 0x00000000 [] fresh) = some ([], 1, 0x00000101) ∧
    after reply (serve 0x13000000 [] (hashWith iv256 [])) = some ([], 1, 0x00000103) := by
  decide

theorem test_halted :
    after reply (serve 0x10000000 [] ((ctrWith (hex 4 0) 0 4 [] 0).raiseFault .window)) = some ([], 0xFF, 0x00000609) := by
  decide

theorem test_reset :
    after (fun s => (s.cc, s.status)) (step { (ctrWith (hex 4 0) 0 4 [] 0).raiseFault .window with pending := [.reset] })
      = some (0, 0) := by
  decide

theorem test_read_status :
    after State.observed (step { (hashWith iv256 []).raiseFault .illegal with pending := [.readReg .status] })
      = some [.register .status 0x00000103] := by
  decide

/-- R43: a transaction with a wrong number of bytes has no step. -/
theorem test_malformed : serve 0x11000002 (letters 1) (hashWith iv256 []) = .refused (.malformedTransaction 2 1) := rfl

/-! ## Witnesses: for each statement with hypotheses, a state and operands that meet them -/

theorem after_some {α : Type} {view : State → α} {o : Out} {v : α} (h : after view o = some v) :
    ∃ t, o = .next t ∧ view t = v := by
  cases o with
  | next t => exact ⟨t, rfl, by simpa [after] using h⟩
  | fault r => simp [after] at h
  | refused r => simp [after] at h

/-- A running CORE in which all three contexts are VALID, at the ends of their ranges. -/
def busy : State :=
  { fresh with
    hashValid := true, cbcValid := true, ctrValid := true
    hash := { h := iv256, partialBuf := Vector.replicate 64 0x61, npartial := 63, blocks := 0xFFFFFFFF }
    cbc := { prp := 1, chain := hex 4 0xa0a1a2a3 }
    ctr := { prp := 1, nonce := hex 4 0xa1a2ffff, counterOffset := 2, counterWidth := 2, keymat := hex 4 0xb32131e5, nkeymat := 3 } }

/-- The same CORE after a fault. -/
def stopped : State := busy.raiseFault .window

/-- The same CORE with the CTR unit on `TOY1`. -/
def onToy1 : State := { busy with cbc := { prp := 7, chain := [0x10] } }

theorem toy4_bound : bindablePrp config 1 = some toy4 := by decide
theorem toy1_bound : bindablePrp config 7 = some toy1 := by decide +kernel
theorem toy4_lookup : lookupPrp config 1 = some toy4 := by decide
theorem toy1_lookup : lookupPrp config 7 = some toy1 := by decide +kernel

theorem busy_ctr_ok : busy.ctr.Ok config :=
  ⟨toy4, toy4_bound, by decide, by decide, by decide, fun _ => by decide⟩

theorem busy_inv : busy.Inv where
  hash _ := by unfold HashCtx.Ok; decide
  cbc _ := ⟨toy4, toy4_bound, by decide⟩
  ctr _ := busy_ctr_ok
  running _ := ⟨rfl, rfl⟩
  halted h := by cases h
  drained := rfl

theorem adding_find (k : Nat) (b : Byte) :
    (adding k).find? (fun e => e.1 == [b] && e.2.length == 1) = some ([b], [b + BitVec.ofNat 8 k]) := by
  have h : (List.range 256).find? (fun v => ([BitVec.ofNat 8 v] : Bytes) == [b] && true) = some b.toNat := by
    rw [List.find?_range_eq_some]
    refine ⟨by simp, List.mem_range.2 b.isLt, fun j hj => ?_⟩
    have hb := b.isLt
    have : BitVec.ofNat 8 j ≠ b := fun e => by
      have := congrArg BitVec.toNat e
      rw [BitVec.toNat_ofNat] at this
      omega
    simp [this]
  rw [adding, List.find?_map]
  refine (congrArg (Option.map _) h).trans ?_
  simp [BitVec.ofNat_add]

theorem toy1_enc (b : Byte) : prpAnswer toy1 .enc [b] = [b + 1] := by
  have := adding_find 1 b
  rw [prpAnswer]
  simp only [prpAnswers, toy1, this]
  rfl

theorem toy1_dec (b : Byte) : prpAnswer toy1 .dec [b] = [b + 255] := by
  have := adding_find 255 b
  rw [prpAnswer]
  simp only [prpAnswers, toy1, this]
  rfl

theorem hashWith_inv : (hashWith iv256 []).Inv where
  hash _ := by unfold HashCtx.Ok; decide
  cbc h := by cases h
  ctr h := by cases h
  running _ := ⟨rfl, rfl⟩
  halted h := by cases h
  drained := rfl

/-- `dec` undoes `enc` on the one-byte blocks of `TOY1`. -/
theorem toy1_inverse : ∀ x : Bytes, x.length = toy1.pb → prpAnswer toy1 .dec (prpAnswer toy1 .enc x) = x := by
  intro x hx
  match x, hx with
  | [b], _ =>
    rw [toy1_enc, toy1_dec, BitVec.add_assoc]
    simp

/-- `dec` of `TOY1` is injective. -/
theorem toy1_injective : ∀ a b : Bytes, a.length = toy1.pb → b.length = toy1.pb →
    prpAnswer toy1 .dec a = prpAnswer toy1 .dec b → a = b := by
  intro a b ha hb e
  match a, b, ha, hb with
  | [x], [y], _, _ =>
    rw [toy1_dec, toy1_dec] at e
    simpa using e

theorem witness_DecodeOfEncodeIsTheCommand : (Instr.ctrCustom 4095 4095).wf = true ∧ (Instr.cbcEncrypt 16777215).wf = true := by
  decide

theorem witness_EncodeOfDecodeIsTheWord : decode 0x32FFFFFF = .ok (.ctrCustom 4095 4095) := rfl

theorem witness_OpcodeRowsAreDisjointAndSelectTheCommand :
    ∃ r ∈ opcodeTable, r.selects 0x1100FFFF = true ∧ decode 0x1100FFFF = .ok (.sha256Update 0xFFFF) ∧ r.mnemonic = .sha256Update :=
  ⟨⟨.sha256Update, 0x11000000, 0xFF000000⟩, by decide, by decide, rfl, rfl⟩

theorem witness_ReservedWordsAreIllegalAndFault : fresh.halt = false ∧ ∃ e, decode 0x33000001 = .error e := ⟨rfl, _, rfl⟩

theorem witness_StepRunsTheDecodedCommand :
    ∃ s : State, s.pending = .command 0x12000000 [] :: [.reset] ∧ decode 0x12000000 = .ok .sha256Final :=
  ⟨{ busy with pending := .command 0x12000000 [] :: [.reset] }, rfl, rfl⟩

theorem witness_HaltedCoreRefusesEveryCommand :
    stopped.halt = true ∧
    (∀ a : HostAction, { stopped with pending := [a] }.halt = true ∧ { stopped with pending := [a] }.pending = a :: []) ∧
    ∃ t, step { stopped with pending := [.reset] } = .next t ∧ t.halt = false :=
  ⟨rfl, fun _ => ⟨rfl, rfl⟩, _, rfl, rfl⟩

theorem witness_RaisedFaultWritesOnlyTheFaultRegisters :
    busy.halt = false ∧ ∃ t, runCommand 0x32003002 busy = .next t ∧ t.halt = true :=
  ⟨rfl, after_some (view := State.halt) (by decide)⟩

/-- The operands at which each check first applies: a window one byte too long, a full buffer, a full reservoir. -/
theorem witness_ChecksAreMadeInOrder :
    stopped.halt = true ∧ busy.halt = false ∧ (∃ e, decode 0x00000000 = .error e) ∧ decode 0x33000000 = .ok .ctrDiscard ∧
    isInit (.cbcEncrypt 0) = false ∧ fresh.valid (unitOf (.cbcEncrypt 0)) = false ∧ bindablePrp config 9 = none ∧
    busy.ctrValid = true ∧ lookupPrp busy.cfg busy.ctr.prp = some toy4 ∧ toy4.pb < 3 + 2 ∧
    (∃ s : State, s.halt = false ∧ s.hashValid = true ∧ 64 ≤ s.hash.npartial.toNat) ∧
    (∃ s : State, s.halt = false ∧ s.ctrValid = true ∧ lookupPrp s.cfg s.ctr.prp = some toy4 ∧ toy4.pb ≤ s.ctr.nkeymat.toNat) ∧
    ∃ t, step { stopped with pending := [.command 0 []] } = .next t :=
  ⟨rfl, rfl, ⟨_, rfl⟩, rfl, rfl, rfl, by decide, rfl, toy4_lookup, by decide,
    ⟨{ busy with hash := { busy.hash with npartial := 64 } }, rfl, rfl, by decide⟩,
    ⟨{ busy with ctr := { busy.ctr with nkeymat := 4 } }, rfl, rfl, toy4_lookup, by decide⟩, _, rfl⟩

theorem witness_OnlyResetClearsHaltAndValidFlags :
    ({ busy with pending := [.reset] } : State).pending = .reset :: [] ∧
    ∃ s t : State, step s = .next t ∧ s.pending ≠ .reset :: s.pending.tail ∧ s.halt = true ∧ s.hashValid = true ∧
      s.cbcValid = true ∧ s.ctrValid = true :=
  ⟨rfl, { stopped with pending := [.command 0 []] }, _, rfl, by decide, rfl, rfl, rfl, rfl⟩

theorem witness_RegisterAccessHasNoSideEffect (a : HostAction) : ({ stopped with pending := [a] } : State).pending = a :: [] := rfl

theorem witness_HashInitLoadsTheInitialVector : busy.halt = false ∧ busy.din = [] ∧ (1 : BitVec 24) ≠ 0 := by decide

theorem witness_HashUpdateCompressesTheWholeBlocks :
    (∀ n : Nat, ∃ s : State, s.halt = false ∧ s.hashValid = true ∧ s.hash.npartial.toNat < 64 ∧ s.din.length = n) ∧
    fresh.halt = false ∧ fresh.hashValid = false ∧
    ∃ s : State, s.halt = false ∧ s.hashValid = true ∧ 64 ≤ s.hash.npartial.toNat :=
  ⟨fun n => ⟨{ busy with din := letters n }, rfl, rfl, (by decide : (63 : BitVec 7).toNat < 64), by simp [letters]⟩, rfl, rfl,
    { busy with hash := { busy.hash with npartial := 64 } }, rfl, rfl, by decide⟩

theorem witness_HashFinalReturnsTheDigestOfAPaddedCopy :
    busy.halt = false ∧ busy.hashValid = true ∧ busy.hash.npartial.toNat < 64 ∧ busy.din = [] ∧ fresh.hashValid = false ∧
    (∃ s : State, s.halt = false ∧ s.hashValid = true ∧ 64 ≤ s.hash.npartial.toNat) ∧ (0xFFFFFF : BitVec 24) ≠ 0 :=
  ⟨rfl, rfl, by decide, rfl, rfl, ⟨{ busy with hash := { busy.hash with npartial := 64 } }, rfl, rfl, by decide⟩, by decide⟩

theorem witness_PaddingMakesWholeBlocks : 119 % 64 = 55 ∧ padZeroes .literal 119 ≠ padZeroes .minimal 119 := by decide

theorem witness_ChunkingOfUpdatesDoesNotChangeTheContext :
    busy.halt = false ∧ busy.hashValid = true ∧ busy.hash.npartial.toNat < 64 := by decide

theorem witness_FinalLeavesTheMessageExtendable : busy.halt = false := rfl

theorem witness_VariantsShareOneContext :
    busy.halt = false ∧ busy.hashValid = true ∧ busy.hash.npartial.toNat < 64 ∧ busy.din = [] := by decide

/-- With no input bytes, and for the commands that enter the accumulator with some. -/
theorem witness_InternalFaultsAreUnreachable :
    busy.Inv ∧ busy.halt = false ∧ (∃ t, exec (.ctrCustom 3 2) { busy with din := [] } = .next t) ∧
    (∃ t, exec (.ctrCipher 11) { busy with din := letters 11 } = .next t) ∧
    ∃ t, exec (.sha256Update 3) { hashWith iv256 [] with din := letters 3 } = .next t ∧ (hashWith iv256 []).Inv :=
  ⟨busy_inv, rfl, ⟨_, rfl⟩, (after_some (view := State.cc) (v := 0) (by decide)).imp fun _ h => h.1,
    (after_some (view := State.cc) (v := 0) (by decide)).imp fun _ h => ⟨h.1, hashWith_inv⟩⟩

theorem witness_CbcInitBindsThePrpAndLoadsTheIv :
    (∃ s : State, s.halt = false ∧ bindablePrp s.cfg 2 = some widest ∧ s.din.length = widest.pb) ∧ lookupPrp config 9 = none ∧
    ∃ p, lookupPrp config 8 = some p ∧ config.pbMax.toNat < p.pb :=
  ⟨⟨{ fresh with din := hex 16 0 }, rfl, (by decide : bindablePrp config 2 = some widest), by decide⟩, by decide, tooWide, by decide, by decide⟩

theorem witness_CbcEncryptChainsTheBlocks :
    (∃ s : State, s.halt = false ∧ s.cbcValid = true ∧ lookupPrp s.cfg s.cbc.prp = some toy4 ∧ s.din.length = 3 * toy4.pb) ∧
    (busy.halt = false ∧ busy.cbcValid = true ∧ lookupPrp busy.cfg busy.cbc.prp = some toy4 ∧ busy.din.length = 0 * toy4.pb) ∧
    fresh.cbcValid = false :=
  ⟨⟨{ busy with din := hex 12 0x000102031011121320212223 }, rfl, rfl, toy4_lookup, by decide⟩, ⟨rfl, rfl, toy4_lookup, rfl⟩, rfl⟩

theorem witness_CbcDecryptUnchainsTheBlocks :
    (∃ s : State, s.halt = false ∧ s.cbcValid = true ∧ lookupPrp s.cfg s.cbc.prp = some toy4 ∧ s.din.length = 3 * toy4.pb) ∧
    fresh.halt = false ∧ fresh.cbcValid = false :=
  ⟨⟨{ busy with din := hex 12 0xb1c2d3e4e4e32ae5d32af908 }, rfl, rfl, toy4_lookup, by decide⟩, rfl, rfl⟩

theorem witness_CbcCommandsMayBeSplit :
    busy.halt = false ∧ busy.cbcValid = true ∧ lookupPrp busy.cfg busy.cbc.prp = some toy4 ∧
    (hex 4 0x00010203).length = 1 * toy4.pb ∧ (hex 8 0x1011121320212223).length = 2 * toy4.pb :=
  ⟨rfl, rfl, toy4_lookup, by decide, by decide⟩

theorem witness_CbcDecryptUndoesEncrypt :
    fresh.halt = false ∧ busy.halt = false ∧ bindablePrp fresh.cfg 7 = some toy1 ∧ busy.cfg = fresh.cfg ∧
    (∀ x : Bytes, x.length = toy1.pb → prpAnswer toy1 .dec (prpAnswer toy1 .enc x) = x) ∧ [0xFF].length = toy1.pb ∧
    (hex 5 0x68656c6c6f).length = 5 * toy1.pb :=
  ⟨rfl, rfl, toy1_bound, rfl, toy1_inverse, rfl, by decide⟩

theorem witness_CbcErrorPropagatesToTwoBlocks :
    onToy1.halt = false ∧ onToy1.cbcValid = true ∧ lookupPrp onToy1.cfg onToy1.cbc.prp = some toy1 ∧
    onToy1.cbc.chain.length = toy1.pb ∧
    (∀ a b : Bytes, a.length = toy1.pb → b.length = toy1.pb → prpAnswer toy1 .dec a = prpAnswer toy1 .dec b → a = b) ∧
    (hex 3 0x010203).length = 3 * toy1.pb ∧ (hex 3 0x018203).length = 3 * toy1.pb ∧
    (∀ i, i < 3 → i ≠ 1 → blockAt toy1.pb (hex 3 0x010203) i = blockAt toy1.pb (hex 3 0x018203) i) ∧
    blockAt toy1.pb (hex 3 0x010203) 1 ≠ blockAt toy1.pb (hex 3 0x018203) 1 :=
  ⟨rfl, rfl, toy1_lookup, rfl, toy1_injective, by decide, by decide, by decide, by decide⟩

/-- The last block differs. -/
theorem witness_CbcErrorPropagatesToTwoBlocks_last :
    2 < 3 ∧ 2 + 1 = 3 ∧ (∀ i, i < 3 → i ≠ 2 → blockAt toy1.pb (hex 3 0x010203) i = blockAt toy1.pb (hex 3 0x010283) i) ∧
    blockAt toy1.pb (hex 3 0x010203) 2 ≠ blockAt toy1.pb (hex 3 0x010283) 2 := by decide

theorem witness_CtrInitLoadsTheNonce :
    (∃ s : State, s.halt = false ∧ bindablePrp s.cfg 2 = some widest ∧ s.din.length = widest.pb) ∧ lookupPrp config 9 = none ∧
    ∃ p, lookupPrp config 8 = some p ∧ config.pbMax.toNat < p.pb :=
  witness_CbcInitBindsThePrpAndLoadsTheIv

/-- Windows that just fit, the empty one at the end of the block too, and windows that just do not. -/
theorem witness_CtrCustomSetsAWindowThatFits :
    busy.halt = false ∧ busy.ctrValid = true ∧ lookupPrp busy.cfg busy.ctr.prp = some toy4 ∧ busy.din = [] ∧
    0 + 4 ≤ toy4.pb ∧ 4 + 0 ≤ toy4.pb ∧ toy4.pb < 0 + 5 ∧ toy4.pb < 4095 + 4095 ∧ fresh.ctrValid = false :=
  ⟨rfl, rfl, toy4_lookup, rfl, by decide, by decide, by decide, by decide, rfl⟩

theorem witness_CtrDiscardEmptiesTheReservoir :
    busy.halt = false ∧ busy.ctrValid = true ∧ busy.din = [] ∧ fresh.ctrValid = false ∧ (1 : BitVec 24) ≠ 0 := by decide

theorem witness_BigEndianIncrementCountsInTheWindow :
    2 + 2 ≤ (hex 5 0xaabb00ffcc).length ∧ 2 + (1 + 1) ≤ (hex 5 0xaabb00ffcc).length ∧
    (hex 5 0xaabb00ffcc).getD (2 + 1) 0 = 0xFF ∧ (hex 5 0xaabb01fecc).getD (2 + 1) 0 ≠ 0xFF := by decide

theorem witness_CtrCipherXorsTheKeystream :
    (∃ s : State, s.halt = false ∧ s.ctrValid = true ∧ s.ctr.Ok s.cfg ∧ lookupPrp s.cfg s.ctr.prp = some toy4 ∧
      s.din.length = 11) ∧
    fresh.halt = false ∧ fresh.ctrValid = false ∧
    ∃ s : State, s.halt = false ∧ s.ctrValid = true ∧ lookupPrp s.cfg s.ctr.prp = some toy4 ∧ toy4.pb ≤ s.ctr.nkeymat.toNat :=
  ⟨⟨{ busy with din := letters 11 }, rfl, rfl, busy_ctr_ok, toy4_lookup, by decide⟩, rfl, rfl,
    { busy with ctr := { busy.ctr with nkeymat := 4 } }, rfl, rfl, toy4_lookup, by decide⟩

theorem witness_CounterHasAClosedForm :
    busy.ctr.counterOffset.toNat + busy.ctr.counterWidth.toNat ≤ busy.ctr.nonce.length := by decide

theorem witness_KeystreamFromInitHasAClosedForm :
    fresh.halt = false ∧ bindablePrp fresh.cfg 1 = some toy4 ∧ (hex 4 0xa1a2ffff).length = toy4.pb ∧ 2 + 2 ≤ toy4.pb ∧
    4 + 0 ≤ toy4.pb :=
  ⟨rfl, toy4_bound, by decide, by decide, by decide⟩

theorem witness_BytesOutsideTheWindowNeverChange :
    busy.ctrValid = true ∧ busy.ctr.Ok busy.cfg ∧ (∀ h, Instr.ctrDiscard ≠ .ctrInit h) ∧ ∃ t, exec .ctrDiscard busy = .next t :=
  ⟨rfl, busy_ctr_ok, fun _ h => (by cases h), _, rfl⟩

/-- P4's commands, with the answers it gives to lines 2 to 5. -/
theorem witness_CtrCipherUndoesItself :
    fresh.halt = false ∧ busy.halt = false ∧ bindablePrp fresh.cfg 1 = some toy4 ∧ busy.cfg = fresh.cfg ∧
    (hex 4 0xa1a2ffff).length = toy4.pb ∧
    (∀ c ∈ [(Instr.ctrCipher 2, hex 2 0x1122), (.ctrCustom 2 2, []), (.ctrDiscard, [])], isCtrStreamCommand c.1 = true) ∧
    ∃ t, transcript [(.ctrInit 1, hex 4 0xa1a2ffff), (.ctrCipher 2, hex 2 0x1122), (.ctrCustom 2 2, []), (.ctrDiscard, [])]
        fresh = some ([([], 0), (hex 2 0xa203, 0), ([], 0), ([], 0)], t) := by
  refine ⟨rfl, rfl, toy4_bound, rfl, by decide, by decide, ?_⟩
  have h : (transcript [(.ctrInit 1, hex 4 0xa1a2ffff), (.ctrCipher 2, hex 2 0x1122), (.ctrCustom 2 2, []), (.ctrDiscard, [])]
      fresh).map Prod.fst = some [([], 0), (hex 2 0xa203, 0), ([], 0), ([], 0)] := by decide
  obtain ⟨r, h1, h2⟩ := Option.map_eq_some_iff.1 h
  exact ⟨r.2, by rw [h1, ← h2]⟩

theorem witness_CtrStreamsMayBeSplit : busy.halt = false ∧ busy.ctrValid = true ∧ busy.ctr.Ok busy.cfg :=
  ⟨rfl, rfl, busy_ctr_ok⟩

/-- Three blocks encrypted, three decrypted, and three bytes from the reservoir followed by eight from two fresh blocks. -/
theorem witness_PrpRequestsOfEachCommand :
    busy.Inv ∧ busy.halt = false ∧ lookupPrp busy.cfg busy.ctr.prp = some toy4 ∧
    (∃ t, exec (.cbcEncrypt 3) { busy with din := hex 12 0x000102031011121320212223 } = .next t ∧ t.cc = 0) ∧
    (∃ t, exec (.cbcDecrypt 3) { busy with din := hex 12 0xb1c2d3e4e4e32ae5d32af908 } = .next t ∧ t.cc = 0) ∧
    (∃ t, exec (.ctrCipher 11) { busy with din := letters 11 } = .next t ∧ t.cc = 0) ∧
    ∃ t, exec .ctrDiscard { busy with din := [] } = .next t ∧ t.cc = 0 :=
  ⟨busy_inv, rfl, toy4_lookup, after_some (view := State.cc) (by decide), after_some (view := State.cc) (by decide),
    after_some (view := State.cc) (by decide), after_some (view := State.cc) (by decide)⟩

theorem witness_CommandsTakeAndGiveExactlyTheirBytes :
    busy.Inv ∧ busy.halt = false ∧ (letters 1).length ≠ dinLen busy (.sha256Update 2) ∧
    (∃ t, exec .sha256Init { busy with din := [] } = .next t ∧ t.cc = 0) ∧
    ∃ t, exec (.ctrCustom 4 1) { busy with din := [] } = .next t ∧ t.cc = 6 :=
  ⟨busy_inv, rfl, by decide, after_some (view := State.cc) (by decide), after_some (view := State.cc) (by decide)⟩

theorem witness_LifecycleFollowsTheTransitionTable :
    ({ stopped with pending := [.reset] } : State).pending = .reset :: [] ∧
    (∃ t, exec .sha256Init fresh = .next t ∧ fresh.halt = false ∧ t.cc = 0) ∧
    (∃ t, exec .sha256Final fresh = .next t ∧ fresh.halt = false ∧ t.cc ≠ 0) ∧
    ∃ t, exec .sha256Init stopped = .next t ∧ stopped.halt = true :=
  ⟨rfl, ⟨_, rfl, rfl, rfl⟩, ⟨_, rfl, rfl, by decide⟩, _, rfl, rfl⟩

theorem witness_CommandsTouchTheirOwnContextOnly :
    unitOf .ctrDiscard ≠ .hash ∧ unitOf .ctrDiscard ≠ .cbc ∧ unitOf .sha256Init ≠ .ctr ∧ isInit .ctrDiscard = false ∧
    (∃ t, exec .ctrDiscard busy = .next t) ∧ ∃ t, exec .sha256Init busy = .next t :=
  ⟨by decide, by decide, by decide, rfl, ⟨_, rfl⟩, _, rfl⟩

theorem witness_CommandsReadTheirOwnContextOnly :
    ∃ s s' : State, s ≠ s' ∧ s'.cfg = s.cfg ∧ s'.halt = s.halt ∧ s'.din = s.din ∧
      s'.valid (unitOf .ctrDiscard) = s.valid (unitOf .ctrDiscard) ∧ unitOf .ctrDiscard = .ctr ∧ s'.ctr = s.ctr :=
  ⟨busy, { busy with hashValid := false, cbc := { prp := 5, chain := [] } },
    (fun h => absurd (congrArg State.hashValid h) (by decide)), rfl, rfl, rfl, rfl, rfl, rfl⟩

theorem witness_ConfigurationIsFixedAndHistoryGrows : ∃ t, step { busy with pending := [.command 0x33000000 []] } = .next t :=
  ⟨_, rfl⟩

theorem witness_EveryStepKeepsTheInvariant :
    ∃ s t : State, s.Inv ∧ step s = .next t ∧ t.halt = true :=
  ⟨{ busy with pending := [.command 0x32003002 []] },
    ((after_some (view := State.halt) (by decide)).imp fun _ h =>
      ⟨⟨busy_inv.hash, busy_inv.cbc, busy_inv.ctr, busy_inv.running, busy_inv.halted, busy_inv.drained⟩, h⟩)⟩

theorem witness_OnlyMalformedTransactionsHaveNoStep : busy.Inv ∧ ∃ t, step busy = .next t := ⟨busy_inv, _, rfl⟩

/-- Two states that differ in a consumed reservoir byte and in a context that is not VALID. -/
theorem witness_UnspecifiedValuesAreNeverObserved :
    ∃ s s' : State, s ≠ s' ∧ s.Inv ∧ s'.Inv ∧ s.Indistinguishable s' := by
  refine ⟨{ busy with cbcValid := false },
    { busy with cbcValid := false, cbc := CbcCtx.reset, ctr := { busy.ctr with keymat := hex 4 0x002131e5 } },
    fun h => absurd (congrArg (fun s => s.cbc.prp) h) (by decide), ?_, ?_, ?_⟩
  · exact ⟨busy_inv.hash, fun h => (by cases h), busy_inv.ctr, busy_inv.running, busy_inv.halted, rfl⟩
  · exact ⟨busy_inv.hash, fun h => (by cases h), fun _ => ⟨toy4, toy4_bound, by decide, by decide, by decide, fun _ => by decide⟩,
      busy_inv.running, busy_inv.halted, rfl⟩
  · exact ⟨rfl, rfl, rfl, rfl, rfl, rfl, rfl, rfl, rfl, rfl, rfl, rfl, rfl, fun _ => ⟨rfl, rfl, rfl, rfl⟩,
      fun h => (by cases h), fun _ => ⟨rfl, rfl, rfl, rfl, rfl, by decide⟩⟩

end Sys2Proof.Tests
end

section
/-! SUPPORT. The state family: what each unit's commands may write when they complete (10_state.md R24). -/

namespace Sys2Proof.Machine

/-- A hash command that completes writes the hash context, its flag, `dout` and CC, and has consumed its `din`. -/
theorem Completes.hash_frame {i : Instr} {s t : State} (h : Completes s t i) (hu : unitOf i = .hash) :
    ∃ c b, t = { s with hash := c, hashValid := true, din := [], dout := b, cc := 0 } := by
  cases i with
  | sha256Init | sha224Init => obtain ⟨hd, rfl⟩ := h; exact ⟨_, _, by rw [hd]⟩
  | sha256Update _ | sha224Update _ => obtain ⟨hv, -, c, -, rfl⟩ := h; exact ⟨c, [], by rw [hv]⟩
  | sha256Final | sha224Final => obtain ⟨hv, hd, -, rfl⟩ := h; exact ⟨s.hash, _, by rw [hv, hd]⟩
  | cbcInit _ | cbcEncrypt _ | cbcDecrypt _ | ctrInit _ | ctrCipher _ | ctrCustom _ _ | ctrDiscard => cases hu

/-- FINAL writes no context (R82, R83). -/
theorem Completes.final_hash {i : Instr} {s t : State} (h : Completes s t i) (hi : i = .sha256Final ∨ i = .sha224Final) :
    t.hash = s.hash := by
  rcases hi with rfl | rfl <;> (obtain ⟨-, -, -, rfl⟩ := h; rfl)

/-- A CBC command that completes writes the CBC context, its flag, `dout`, CC and the request trace, and has consumed its
`din`; only INIT binds another handle. -/
theorem Completes.cbc_frame {i : Instr} {s t : State} (h : Completes s t i) (hu : unitOf i = .cbc) :
    ∃ c b q,
      t = { s with cbc := c, cbcValid := true, din := [], dout := b, cc := 0, prpTrace := s.prpTrace ++ q } ∧
      (isInit i = false → c.prp = s.cbc.prp) := by
  cases i with
  | cbcInit hd => obtain ⟨p, -, -, rfl⟩ := h; exact ⟨_, [], [], by rw [List.append_nil], nofun⟩
  | cbcEncrypt n =>
    obtain ⟨hv, p, -, hl, rfl⟩ := h
    rw [repeatBlocks_encrypt, ← hv, ← List.drop_eq_nil_of_le hl.le]
    exact ⟨_, _, _, rfl, fun _ => rfl⟩
  | cbcDecrypt n =>
    obtain ⟨hv, p, -, hl, rfl⟩ := h
    rw [repeatBlocks_decrypt, ← hv, ← List.drop_eq_nil_of_le hl.le]
    exact ⟨_, _, _, rfl, fun _ => rfl⟩
  | sha256Init | sha256Update _ | sha256Final | sha224Init | sha224Update _ | sha224Final | ctrInit _ | ctrCipher _
  | ctrCustom _ _ | ctrDiscard => cases hu

/-- A CTR command that completes writes the CTR context, its flag, `dout`, CC and the request trace, and has consumed its
`din`; only INIT binds another handle. -/
theorem Completes.ctr_frame {i : Instr} {s t : State} (h : Completes s t i) (hu : unitOf i = .ctr) :
    ∃ c b q,
      t = { s with ctr := c, ctrValid := true, din := [], dout := b, cc := 0, prpTrace := s.prpTrace ++ q } ∧
      (isInit i = false → c.prp = s.ctr.prp) := by
  cases i with
  | ctrInit hd => obtain ⟨p, -, -, rfl⟩ := h; exact ⟨_, [], [], by rw [List.append_nil], nofun⟩
  | ctrCipher n =>
    obtain ⟨hv, hl, p, out, r, -, hx, rfl⟩ := h
    obtain ⟨j, hj⟩ := accXor_ctx hx
    rw [hj, ← hv, ← List.drop_eq_nil_of_le hl.le]
    exact ⟨_, _, _, rfl, fun _ => rfl⟩
  | ctrCustom o w =>
    obtain ⟨hv, hd, p, -, -, rfl⟩ := h
    exact ⟨{ s.ctr with counterOffset := BitVec.ofNat 12 o, counterWidth := BitVec.ofNat 12 w }, [], [],
      by rw [hv, hd, List.append_nil], fun _ => rfl⟩
  | ctrDiscard =>
    obtain ⟨hv, hd, rfl⟩ := h
    exact ⟨{ s.ctr with nkeymat := 0 }, [], [], by rw [hv, hd, List.append_nil], fun _ => rfl⟩
  | sha256Init | sha256Update _ | sha256Final | sha224Init | sha224Update _ | sha224Final | cbcInit _ | cbcEncrypt _
  | cbcDecrypt _ => cases hu

/-- A command that completes has consumed its `din` (20_memory.md R43). -/
theorem Completes.din_eq {i : Instr} {s t : State} (h : Completes s t i) : t.din = [] := by
  cases hu : unitOf i with
  | hash => obtain ⟨c, b, rfl⟩ := h.hash_frame hu; rfl
  | cbc => obtain ⟨c, b, q, rfl, -⟩ := h.cbc_frame hu; rfl
  | ctr => obtain ⟨c, b, q, rfl, -⟩ := h.ctr_frame hu; rfl

/-- A command that completes only appends to the request trace. -/
theorem Completes.prpTrace_prefix {i : Instr} {s t : State} (h : Completes s t i) : s.prpTrace <+: t.prpTrace := by
  cases hu : unitOf i with
  | hash => obtain ⟨c, b, rfl⟩ := h.hash_frame hu; exact List.prefix_rfl
  | cbc => obtain ⟨c, b, q, rfl, -⟩ := h.cbc_frame hu; exact List.prefix_append _ q
  | ctr => obtain ⟨c, b, q, rfl, -⟩ := h.ctr_frame hu; exact List.prefix_append _ q

/-- A command with a next state keeps the configuration, the pending list and the record, and only appends to the trace. -/
theorem exec_host_side {i : Instr} {s t : State} (h : exec i s = .next t) :
    t.cfg = s.cfg ∧ t.pending = s.pending ∧ t.observed = s.observed ∧ t.freeReads = s.freeReads ∧
      s.prpTrace <+: t.prpTrace := by
  obtain ⟨-, rfl⟩ | ⟨-, f, -, rfl⟩ | ⟨-, hc⟩ := exec_cases h
  · exact ⟨rfl, rfl, rfl, rfl, List.prefix_rfl⟩
  · exact ⟨rfl, rfl, rfl, rfl, List.prefix_rfl⟩
  · obtain ⟨-, hcfg, hpend, hobs, hfree, -, -⟩ := completes_keeps hc
    exact ⟨hcfg, hpend, hobs, hfree, hc.prpTrace_prefix⟩

/-- The same for a command word, legal or not. -/
theorem runCommand_host_side {w : Word} {s t : State} (h : runCommand w s = .next t) :
    t.cfg = s.cfg ∧ t.pending = s.pending ∧ t.observed = s.observed ∧ s.prpTrace <+: t.prpTrace := by
  obtain ⟨-, rfl⟩ | ⟨-, -, rfl⟩ | ⟨-, i, -, hx⟩ := runCommand_eq_next h
  · exact ⟨rfl, rfl, rfl, List.prefix_rfl⟩
  · exact ⟨rfl, rfl, rfl, List.prefix_rfl⟩
  · obtain ⟨hcfg, hpend, hobs, -, htrace⟩ := exec_host_side hx
    exact ⟨hcfg, hpend, hobs, htrace⟩

/-- A register read appends one observation to the record. -/
theorem State.readRegister_observed_prefix (r : ReadReg) (s : State) : s.observed <+: (s.readRegister r).observed := by
  cases r <;> exact List.prefix_append _ _

/-- Settles O42: the three frames, one for each unit. -/
theorem commandsTouchTheirOwnContextOnly : Obligations.CommandsTouchTheirOwnContextOnly := by
  intro i s t h
  obtain ⟨hcfg, hpend, hobs, hfree, -⟩ := exec_host_side h
  obtain ⟨-, rfl⟩ | ⟨-, f, -, rfl⟩ | ⟨-, hc⟩ := exec_cases h
  · simp
  · simp
  · cases hu : unitOf i with
    | hash =>
      have hfinal := hc.final_hash
      obtain ⟨c, b, rfl⟩ := hc.hash_frame hu
      simpa using hfinal
    | cbc => obtain ⟨c, b, q, rfl, hprp⟩ := hc.cbc_frame hu; simpa using hprp
    | ctr => obtain ⟨c, b, q, rfl, hprp⟩ := hc.ctr_frame hu; simpa using hprp

/-- Settles O44, by the cases of a step. -/
theorem configurationIsFixedAndHistoryGrows : Obligations.ConfigurationIsFixedAndHistoryGrows := by
  intro s t h
  obtain ⟨hp, rfl⟩ | ⟨w, input, rest, u, hp, hx, rfl⟩ | ⟨rest, hp, rfl⟩ | ⟨r, rest, hp, rfl⟩ | ⟨r, v, rest, hp, rfl⟩ :=
    step_eq_next h
  · exact ⟨rfl, by rw [hp]; rfl, List.prefix_rfl, List.prefix_rfl⟩
  · obtain ⟨hcfg, hpend, hobs, htrace⟩ := runCommand_host_side hx
    rw [hp]
    exact ⟨hcfg, hpend, hobs ▸ List.prefix_append u.observed _, htrace⟩
  · rw [hp]
    exact ⟨rfl, rfl, List.prefix_rfl, List.prefix_rfl⟩
  · rw [hp]
    exact ⟨by simp, by simp, State.readRegister_observed_prefix r { s with pending := rest }, by simp⟩
  · rw [hp]
    exact ⟨rfl, rfl, List.prefix_rfl, List.prefix_rfl⟩

end Sys2Proof.Machine
end

section
/-! SUPPORT. The state invariant (10_state.md R19) along a step. -/

namespace Sys2Proof.Machine

/-- The part of the invariant that speaks of the contexts, I-H, I-P and I-T: it does not read `din`, so it holds of the state
a command runs on. -/
structure State.ContextsOk (s : State) : Prop where
  hash : s.hashValid = true → s.hash.Ok
  cbc : s.cbcValid = true → s.cbc.Ok s.cfg
  ctr : s.ctrValid = true → s.ctr.Ok s.cfg

theorem State.Inv.contextsOk {s : State} (h : s.Inv) : s.ContextsOk := ⟨h.hash, h.cbc, h.ctr⟩

/-- The invariant does not read the host's side of the state. -/
theorem State.Inv.with_host_side {s : State} (h : s.Inv) (pending : List HostAction) (observed : List Observation)
    (prpTrace : List PrpRequest) (freeReads : Nat) :
    { s with pending := pending, observed := observed, prpTrace := prpTrace, freeReads := freeReads }.Inv :=
  ⟨h.hash, h.cbc, h.ctr, h.running, h.halted, h.drained⟩

/-- A just-reset CORE meets the invariant, whatever its configuration: no context is VALID. -/
theorem State.resetWith_inv (c : Config) : (State.resetWith c).Inv where
  hash := nofun
  cbc := nofun
  ctr := nofun
  running _ := ⟨rfl, rfl⟩
  halted := nofun
  drained := rfl

/-! ## Completed commands -/

theorem Completes.hash_ok {i : Instr} {s t : State} (h : Completes s t i) (hu : unitOf i = .hash)
    (hok : s.hashValid = true → s.hash.Ok) : t.hash.Ok := by
  cases i with
  | sha256Init | sha224Init => obtain ⟨-, rfl⟩ := h; exact Nat.zero_lt_succ 63
  | sha256Update _ | sha224Update _ =>
    obtain ⟨hv, -, c, hc, rfl⟩ := h
    obtain ⟨d, hd, hfed⟩ := hashFeed_fed (hok hv) s.din
    obtain rfl : c = d := Option.some.inj (hc.symm.trans hd)
    exact hfed.lt
  | sha256Final | sha224Final => obtain ⟨-, -, hn, rfl⟩ := h; exact hn
  | cbcInit _ | cbcEncrypt _ | cbcDecrypt _ | ctrInit _ | ctrCipher _ | ctrCustom _ _ | ctrDiscard => cases hu

theorem chainBefore_length {first : Bytes} {c : Nat → Bytes} {b n : Nat} (h0 : first.length = b)
    (h : ∀ i, i < n → (c i).length = b) : (chainBefore first c n).length = b := by
  cases n with
  | zero => exact h0
  | succ n => exact h n n.lt_succ_self

theorem Completes.cbc_ok {i : Instr} {s t : State} (h : Completes s t i) (hu : unitOf i = .cbc)
    (hok : s.cbcValid = true → s.cbc.Ok s.cfg) : t.cbc.Ok t.cfg := by
  cases i with
  | cbcInit hd => obtain ⟨p, hp, hl, rfl⟩ := h; exact ⟨p, hp, hl⟩
  | cbcEncrypt n =>
    obtain ⟨hv, p, hp, -, rfl⟩ := h
    obtain ⟨q, hq, hlen⟩ := hok hv
    obtain rfl : p = q := Option.some.inj (hp.symm.trans (bindablePrp_eq_some.1 hq).1)
    rw [repeatBlocks_encrypt]
    exact ⟨p, hq, chainBefore_length hlen fun i _ => cbcCipherBlock_length p _ _ i⟩
  | cbcDecrypt n =>
    obtain ⟨hv, p, hp, hl, rfl⟩ := h
    obtain ⟨q, hq, hlen⟩ := hok hv
    obtain rfl : p = q := Option.some.inj (hp.symm.trans (bindablePrp_eq_some.1 hq).1)
    rw [repeatBlocks_decrypt]
    exact ⟨p, hq, chainBefore_length hlen fun i hi => blockAt_length hl hi⟩
  | sha256Init | sha256Update _ | sha256Final | sha224Init | sha224Update _ | sha224Final | ctrInit _ | ctrCipher _
  | ctrCustom _ _ | ctrDiscard => cases hu

/-- A CIPHER that completes on a context that meets the invariant, in closed form (43_ctr.md R107). -/
theorem Completes.ciphered {n : Nat} {s t : State} (h : Completes s t (.ctrCipher n)) (hok : s.ctr.Ok s.cfg) :
    ∃ p out d, lookupPrp s.cfg s.ctr.prp = some p ∧ Ciphered p s.ctr s.din out d ∧
      t = { s with
        ctr := d, din := [], dout := out, cc := 0
        prpTrace := s.prpTrace ++
          (List.range (blocksNeeded s.ctr p.pb s.din.length)).map fun j => ⟨s.ctr.prp, .enc, counterAfter s.ctr j⟩ } := by
  obtain ⟨-, rfl, p, out, r, hp, hx, rfl⟩ := h
  obtain ⟨hpb, -, hn, -, hfull⟩ := hok.bound hp
  obtain ⟨out', r', hx', hctx, hc⟩ := accXor_ciphered (s := { s with dout := [] }) hpb hn hfull s.din
  obtain ⟨rfl, rfl⟩ := Prod.mk.inj (Option.some.inj (hx.symm.trans hx'))
  refine ⟨p, out, _, hp, hc, ?_⟩
  simp only [hctx, contextAfter_keystream, List.drop_length, List.nil_append]

theorem Completes.ctr_ok {i : Instr} {s t : State} (h : Completes s t i) (hu : unitOf i = .ctr)
    (hok : s.ctrValid = true → s.ctr.Ok s.cfg) : t.ctr.Ok t.cfg := by
  cases i with
  | ctrInit hd => obtain ⟨p, hp, hl, rfl⟩ := h; exact CtrCtx.ok_init hp hl
  | ctrCipher n =>
    obtain ⟨p, out, d, hp, hc, rfl⟩ := h.ciphered (hok h.1)
    exact hc.ok (hok h.1) hp
  | ctrCustom o w =>
    obtain ⟨hv, -, p, hp, hw, rfl⟩ := h
    obtain ⟨q, hq, hnonce, hn, -, hfull⟩ := hok hv
    obtain rfl : p = q := Option.some.inj (hp.symm.trans (bindablePrp_eq_some.1 hq).1)
    have hpb := (bindablePrp_pb hq).2
    refine ⟨p, hq, hnonce, hn, ?_, hfull⟩
    rw [toNat_ofNat_12 (by omega), toNat_ofNat_12 (by omega)]
    exact hw
  | ctrDiscard =>
    obtain ⟨hv, -, rfl⟩ := h
    obtain ⟨q, hq, hnonce, hn, hw, -⟩ := hok hv
    exact ⟨q, hq, hnonce, Nat.zero_lt_of_lt hn, hw, fun h0 => absurd rfl h0⟩
  | sha256Init | sha256Update _ | sha256Final | sha224Init | sha224Update _ | sha224Final | cbcInit _ | cbcEncrypt _
  | cbcDecrypt _ => cases hu

/-- A command that completes keeps I-H, I-P and I-T: its own context by the unit's lemma, the other two by its frame. -/
theorem Completes.contextsOk {i : Instr} {s t : State} (h : Completes s t i) (hs : s.ContextsOk) : t.ContextsOk := by
  cases hu : unitOf i with
  | hash =>
    have hok := h.hash_ok hu hs.hash
    obtain ⟨c, b, rfl⟩ := h.hash_frame hu
    exact ⟨fun _ => hok, hs.cbc, hs.ctr⟩
  | cbc =>
    have hok := h.cbc_ok hu hs.cbc
    obtain ⟨c, b, q, rfl, -⟩ := h.cbc_frame hu
    exact ⟨hs.hash, fun _ => hok, hs.ctr⟩
  | ctr =>
    have hok := h.ctr_ok hu hs.ctr
    obtain ⟨c, b, q, rfl, -⟩ := h.ctr_frame hu
    exact ⟨hs.hash, hs.cbc, fun _ => hok⟩

/-! ## Faults and refusals -/

/-- In a state whose contexts are fit no command has reason to raise F_ACC or F_PAD (R80, R121). -/
theorem FaultReason.not_internal {i : Instr} {s : State} {f : FaultCode} (h : FaultReason i s f) (hs : s.ContextsOk) :
    f ≠ .acc ∧ f ≠ .pad := by
  cases f with
  | acc =>
    obtain ⟨-, -, hv, hn⟩ | ⟨n, p, -, hv, hp, hn⟩ := h
    · have hlt : s.hash.npartial.toNat < 64 := hs.hash hv
      omega
    · obtain ⟨-, -, hlt, -⟩ := (hs.ctr hv).bound hp
      omega
  | pad => cases h
  | illegal | uninit | prp | window => exact ⟨nofun, nofun⟩

/-- Raising one of the four reachable faults leaves a state that meets the invariant (R124). -/
theorem State.ContextsOk.raiseFault_inv {s : State} (hs : s.ContextsOk) {f : FaultCode} (hf : f ≠ .acc ∧ f ≠ .pad) :
    (s.raiseFault f).Inv :=
  ⟨hs.hash, hs.cbc, hs.ctr, nofun, fun _ => ⟨⟨f, hf.1, hf.2, rfl⟩, .inl rfl⟩, rfl⟩

/-- So does refusing a command because the CORE is halted (R125). -/
theorem State.Inv.refuseHalted_inv {s : State} (hs : s.Inv) (hh : s.halt = true) (input : Bytes) :
    { s with din := input }.refuseHalted.Inv :=
  ⟨hs.hash, hs.cbc, hs.ctr, fun h => absurd (hh.symm.trans h) nofun, fun _ => ⟨(hs.halted hh).1, .inr rfl⟩, rfl⟩

/-! ## Commands and steps -/

/-- A command given any input bytes keeps the invariant. -/
theorem exec_keeps_inv {i : Instr} {s t : State} {input : Bytes} (hs : s.Inv)
    (h : exec i { s with din := input } = .next t) : t.Inv := by
  have hok : State.ContextsOk { s with din := input } := ⟨hs.hash, hs.cbc, hs.ctr⟩
  obtain ⟨hh, rfl⟩ | ⟨-, f, hf, rfl⟩ | ⟨hh, hc⟩ := exec_cases h
  · exact hs.refuseHalted_inv hh input
  · exact hok.raiseFault_inv (hf.not_internal hok)
  · obtain ⟨hash, cbc, ctr⟩ := hc.contextsOk hok
    obtain ⟨hhalt, -, -, -, -, hcc, hfcode⟩ := completes_keeps hc
    exact ⟨hash, cbc, ctr, fun _ => ⟨hfcode.trans (hs.running hh).1, hcc⟩,
      fun ht => absurd (ht.symm.trans (hhalt.trans hh)) nofun, hc.din_eq⟩

/-- So does a command word, legal or not. -/
theorem runCommand_keeps_inv {w : Word} {s t : State} {input : Bytes} (hs : s.Inv)
    (h : runCommand w { s with din := input } = .next t) : t.Inv := by
  obtain ⟨hh, rfl⟩ | ⟨-, -, rfl⟩ | ⟨-, i, -, hx⟩ := runCommand_eq_next h
  · exact hs.refuseHalted_inv hh input
  · exact hs.contextsOk.raiseFault_inv (f := .illegal) ⟨nofun, nofun⟩
  · exact exec_keeps_inv hs hx

/-- Settles O45, by the cases of a step. -/
theorem everyStepKeepsTheInvariant : Obligations.EveryStepKeepsTheInvariant := by
  intro s t hs h
  obtain ⟨-, rfl⟩ | ⟨w, input, rest, u, -, hx, rfl⟩ | ⟨rest, -, rfl⟩ | ⟨r, rest, -, rfl⟩ | ⟨r, v, rest, -, rfl⟩ :=
    step_eq_next h
  · exact hs
  · exact (runCommand_keeps_inv (hs.with_host_side rest s.observed s.prpTrace s.freeReads) hx).with_host_side _ _ _ _
  · exact (State.resetWith_inv s.cfg).with_host_side _ _ _ _
  · cases r <;> exact hs.with_host_side _ _ _ _
  · exact hs.with_host_side _ _ _ _

/-- The six faults have six codes (R121). -/
theorem FaultCode.code_injective {f g : FaultCode} (h : f.code = g.code) : f = g := by
  cases f <;> cases g <;> simp [FaultCode.code] at h ⊢

/-- Settles O22: the next state meets the invariant, which leaves FCODE 0 or a code of the other four faults. -/
theorem internalFaultsAreUnreachable : Obligations.InternalFaultsAreUnreachable := by
  intro i s t input hs _ h
  have ht := exec_keeps_inv hs h
  cases hh : t.halt with
  | false => rw [(ht.running hh).1]; decide
  | true =>
    obtain ⟨⟨f, hacc, hpad, hf⟩, -⟩ := ht.halted hh
    rw [hf]
    exact ⟨fun h => hacc (FaultCode.code_injective h), fun h => hpad (FaultCode.code_injective h)⟩

/-- Settles O46. -/
theorem resetStateMeetsTheInvariant : Obligations.ResetStateMeetsTheInvariant :=
  ⟨State.resetWith_inv Config.installed, State.resetWith_inv⟩

/-! ## The registers -/

/-- Settles O11. -/
theorem resetStateHasTheSpecValues : Obligations.ResetStateHasTheSpecValues :=
  ⟨rfl, rfl, rfl, rfl, rfl, rfl, rfl, rfl⟩

/-- The bits of STATUS (R15). -/
theorem State.status_getLsbD (s : State) (i : Nat) :
    s.status.getLsbD i =
      if i = 0 then s.halt else if i = 1 then s.hashValid else if i = 2 then s.cbcValid else if i = 3 then s.ctrValid
      else if i < 8 then false else s.fcode.getLsbD (i - 8) := by
  simp only [State.status, bit, BitVec.getLsbD_append, BitVec.getLsbD_ofBool]
  rcases i with _ | _ | _ | _ | i
  · simp
  · simp
  · simp
  · simp
  · by_cases hlow : i < 4
    · simp [hlow]
    · have hhigh : ¬ i + 4 < 8 := by omega
      by_cases hcode : i - 4 < 8
      · simp [hlow, hcode, hhigh]
      · simp [hlow, hcode, BitVec.getLsbD_of_ge s.fcode (i - 4) (by omega)]

/-- Settles O12, field by field from the bits of STATUS. -/
theorem statusWordHoldsTheFlags : Obligations.StatusWordHoldsTheFlags := by
  intro s
  refine ⟨s.status_getLsbD 0, s.status_getLsbD 1, s.status_getLsbD 2, s.status_getLsbD 3, ?_, ?_, ?_⟩ <;>
    refine BitVec.eq_of_getLsbD_eq fun i hi => ?_ <;>
    rw [BitVec.getLsbD_extractLsb', State.status_getLsbD]
  · simp [hi, show 4 + i < 8 by omega, show 4 + i ≠ 1 by omega, show 4 + i ≠ 2 by omega, show 4 + i ≠ 3 by omega]
  · simp [hi, show 8 + i ≠ 1 by omega, show 8 + i ≠ 2 by omega, show 8 + i ≠ 3 by omega]
  · simp [hi, show 16 + i ≠ 1 by omega, show 16 + i ≠ 2 by omega, show 16 + i ≠ 3 by omega,
      show 8 ≤ 16 + i - 8 by omega]

/-- Settles O13: a register read and a write to a read-only register are the step's own arms. -/
theorem registerAccessHasNoSideEffect : Obligations.RegisterAccessHasNoSideEffect := by
  intro s rest
  refine ⟨fun hp => ?_, fun hp => ?_, fun r v hp => ?_⟩ <;> (unfold step; rw [hp]; rfl)

end Sys2Proof.Machine
end

section
/-! SUPPORT. Two COREs side by side: what the checks of a command read (60_exceptions.md R127), and when two COREs answer a
command in the same way. -/

namespace Sys2Proof.Machine

/-- Two answers of one kind: next states related by `R`, one and the same fault, which `F` allows, or the same refusal. -/
inductive AnswerAlike (R : State → State → Prop) (F : Fault → Prop) : Out → Out → Prop where
  | next {t t' : State} (h : R t t') : AnswerAlike R F (.next t) (.next t')
  | fault {f : Fault} (h : F f) : AnswerAlike R F (.fault f) (.fault f)
  | refused (r : Refusal) : AnswerAlike R F (.refused r) (.refused r)

/-- Why the model's own fault arises: a VALID mode context is bound to a handle that names no PRP (log entry 7). -/
def SilentPort (s : State) : Fault → Prop
  | .prpPortSilent h =>
    lookupPrp s.cfg h = none ∧ (s.cbcValid = true ∧ s.cbc.prp = h ∨ s.ctrValid = true ∧ s.ctr.prp = h)

/-- I-P rules it out. -/
theorem State.ContextsOk.not_silentPort {s : State} (hs : s.ContextsOk) (f : Fault) : ¬ SilentPort s f := by
  obtain ⟨hd⟩ := f
  rintro ⟨hnone, ⟨hv, rfl⟩ | ⟨hv, rfl⟩⟩
  · obtain ⟨p, hp, -⟩ := hs.cbc hv
    exact absurd (hnone.symm.trans (bindablePrp_eq_some.1 hp).1) nofun
  · obtain ⟨p, hp, -⟩ := hs.ctr hv
    exact absurd (hnone.symm.trans (bindablePrp_eq_some.1 hp).1) nofun

/-- The next states of two COREs after one verdict of the checks: both refuse, both raise one fault, or neither is halted. -/
inductive SameVerdict (s s' : State) : State → State → Prop where
  | halted : SameVerdict s s' s.refuseHalted s'.refuseHalted
  | raised (f : FaultCode) : SameVerdict s s' (s.raiseFault f) (s'.raiseFault f)
  | running {t t' : State} (h : t.halt = false) (h' : t'.halt = false) : SameVerdict s s' t t'

/-- All that the checks of a command of unit `u` read of the state. -/
structure State.ChecksAgree (u : CoreUnit) (s s' : State) : Prop where
  cfg : s.cfg = s'.cfg
  halt : s.halt = s'.halt
  din : s.din = s'.din
  valid : s.valid u = s'.valid u
  hash : u = .hash → s.hashValid = true → s.hash.npartial = s'.hash.npartial
  cbc : u = .cbc → s.cbcValid = true → s.cbc.prp = s'.cbc.prp
  ctr : u = .ctr → s.ctrValid = true → s.ctr.prp = s'.ctr.prp ∧ s.ctr.nkeymat = s'.ctr.nkeymat

/-! ## The common checks on two COREs -/

section Checks

variable {R : State → State → Prop} {F : Fault → Prop} {s s' : State} {body body' : State → Out}

theorem whenRunning_alike (hh : s.halt = s'.halt)
    (hb : s.halt = false →
      AnswerAlike (SameVerdict s s') F (body { s with dout := [] }) (body' { s' with dout := [] })) :
    AnswerAlike (SameVerdict s s') F (whenRunning s body) (whenRunning s' body') := by
  cases hs : s.halt with
  | true => rw [whenRunning_halted hs, whenRunning_halted (hh ▸ hs)]; exact .next .halted
  | false => rw [whenRunning_running hs, whenRunning_running (hh ▸ hs)]; exact hb hs

theorem whenValid_alike {v v' : Bool} (hv : v = v') (hf : R (s.raiseFault .uninit) (s'.raiseFault .uninit))
    (hb : v = true → AnswerAlike R F (body s) (body' s')) : AnswerAlike R F (whenValid v s body) (whenValid v' s' body') := by
  subst hv
  cases v with
  | true => exact hb rfl
  | false => exact .next hf

theorem withDin_alike {n : Nat} (hd : s.din = s'.din) (hb : s.din.length = n → AnswerAlike R F (body s) (body' s')) :
    AnswerAlike R F (withDin n s body) (withDin n s' body') := by
  by_cases hl : s.din.length = n
  · rw [withDin_of_eq hl, withDin_of_eq (hd ▸ hl)]; exact hb hl
  · rw [withDin_of_ne hl, withDin_of_ne (hd ▸ hl), hd]; exact .refused _

theorem whenBindable_alike {h : Handle} {body body' : Prp → Out} (hc : s.cfg = s'.cfg)
    (hf : R (s.raiseFault .prp) (s'.raiseFault .prp)) (hb : ∀ p, AnswerAlike R F (body p) (body' p)) :
    AnswerAlike R F (whenBindable h s body) (whenBindable h s' body') := by
  cases hp : bindablePrp s.cfg h with
  | some p => rw [whenBindable_some hp, whenBindable_some (hc ▸ hp)]; exact hb p
  | none => rw [whenBindable_none hp, whenBindable_none (hc ▸ hp)]; exact .next hf

theorem withBoundPrp_alike {h h' : Handle} {body body' : Prp → Out} (hc : s.cfg = s'.cfg) (hh : h = h')
    (hf : lookupPrp s.cfg h = none → F (.prpPortSilent h)) (hb : ∀ p, AnswerAlike R F (body p) (body' p)) :
    AnswerAlike R F (withBoundPrp h s body) (withBoundPrp h' s' body') := by
  subst hh
  cases hp : lookupPrp s.cfg h with
  | some p => rw [withBoundPrp_some hp, withBoundPrp_some (hc ▸ hp)]; exact hb p
  | none => rw [withBoundPrp_none hp, withBoundPrp_none (hc ▸ hp)]; exact .fault (hf hp)

end Checks

/-! ## Each command on two COREs that its checks cannot tell apart -/

section Commands

variable {s s' : State}

theorem hashInit_alike (v : Variant) (h : s.ChecksAgree .hash s') :
    AnswerAlike (SameVerdict s s') (SilentPort s) (hashInit v s) (hashInit v s') :=
  whenRunning_alike h.halt fun hh => withDin_alike h.din fun _ => .next (.running hh (h.halt ▸ hh))

theorem hashUpdate_alike (n : Nat) (h : s.ChecksAgree .hash s') :
    AnswerAlike (SameVerdict s s') (SilentPort s) (hashUpdate n s) (hashUpdate n s') := by
  refine whenRunning_alike h.halt fun hh => whenValid_alike h.valid (.raised _) fun hv => ?_
  have hn := congrArg BitVec.toNat (h.hash rfl hv)
  by_cases hlt : s.hash.npartial.toNat < 64
  · obtain ⟨c, hc, -⟩ := hashFeed_fed hlt s.din
    obtain ⟨c', hc', -⟩ := hashFeed_fed (hn ▸ hlt) s'.din
    simp only [hc, hc']
    exact withDin_alike h.din fun _ => .next (.running hh (h.halt ▸ hh))
  · simp only [hashFeed_eq_none (c := s.hash) (by omega), hashFeed_eq_none (c := s'.hash) (by omega)]
    exact .next (.raised _)

theorem hashFinal_alike (v : Variant) (h : s.ChecksAgree .hash s') :
    AnswerAlike (SameVerdict s s') (SilentPort s) (hashFinal v s) (hashFinal v s') := by
  refine whenRunning_alike h.halt fun hh => whenValid_alike h.valid (.raised _) fun hv => ?_
  have hn := congrArg BitVec.toNat (h.hash rfl hv)
  by_cases hlt : s.hash.npartial.toNat < 64
  · simp only [hashFinalCore_ok hlt, hashFinalCore_ok (hn ▸ hlt)]
    exact withDin_alike h.din fun _ => .next (.running hh (h.halt ▸ hh))
  · simp only [hashFinalCore_acc (c := s.hash) (by omega), hashFinalCore_acc (c := s'.hash) (by omega)]
    exact .next (.raised _)

theorem execCbcInit_alike (hd : Handle) (h : s.ChecksAgree .cbc s') :
    AnswerAlike (SameVerdict s s') (SilentPort s) (execCbcInit hd s) (execCbcInit hd s') :=
  whenRunning_alike h.halt fun hh => whenBindable_alike h.cfg (.raised _) fun _ =>
    withDin_alike h.din fun _ => .next (.running hh (h.halt ▸ hh))

theorem cbcBlocks_alike {block : Prp → State → State} (hblock : ∀ p n t, (repeatBlocks (block p) n t).halt = t.halt)
    (n : Nat) (h : s.ChecksAgree .cbc s') :
    AnswerAlike (SameVerdict s s') (SilentPort s) (cbcBlocks block n s) (cbcBlocks block n s') :=
  whenRunning_alike h.halt fun hh => whenValid_alike h.valid (.raised _) fun hv =>
    withBoundPrp_alike h.cfg (h.cbc rfl hv) (fun hp => ⟨hp, .inl ⟨hv, rfl⟩⟩) fun _ => withDin_alike h.din fun _ =>
      .next (.running ((hblock _ _ _).trans hh) ((hblock _ _ _).trans (h.halt ▸ hh)))

theorem execCtrInit_alike (hd : Handle) (h : s.ChecksAgree .ctr s') :
    AnswerAlike (SameVerdict s s') (SilentPort s) (execCtrInit hd s) (execCtrInit hd s') :=
  whenRunning_alike h.halt fun hh => whenBindable_alike h.cfg (.raised _) fun _ =>
    withDin_alike h.din fun _ => .next (.running hh (h.halt ▸ hh))

/-- Below the block size XOR mode answers, and its keystream requests leave HALT as it is. -/
theorem accXor_keystream_some {p : Prp} {km : Bytes} {n : Nat} (input : Bytes) (h : ¬ p.pb ≤ n) :
    ∃ out r, accXor p.pb (keystreamBlock p) input (Reservoir.mk km n s) = some (out, r) ∧ r.ctx.halt = s.halt := by
  obtain ⟨⟨out, r⟩, hx⟩ : ∃ x, accXor p.pb (keystreamBlock p) input (Reservoir.mk km n s) = some x := ⟨_, if_neg h⟩
  obtain ⟨j, hj⟩ := accXor_ctx hx
  exact ⟨out, r, hx, by rw [hj]⟩

theorem execCtrCipher_alike (n : Nat) (h : s.ChecksAgree .ctr s') :
    AnswerAlike (SameVerdict s s') (SilentPort s) (execCtrCipher n s) (execCtrCipher n s') := by
  refine whenRunning_alike h.halt fun hh => whenValid_alike h.valid (.raised _) fun hv => ?_
  obtain ⟨hprp, hn⟩ := h.ctr rfl hv
  refine withBoundPrp_alike h.cfg hprp (fun hp => ⟨hp, .inr ⟨hv, rfl⟩⟩) fun p => ?_
  have hn := congrArg BitVec.toNat hn
  by_cases hle : p.pb ≤ s.ctr.nkeymat.toNat
  · have hnone := accXor_eq_none (makeBlock := keystreamBlock p)
      (r := Reservoir.mk s.ctr.keymat s.ctr.nkeymat.toNat { s with dout := [] }) hle s.din
    have hnone' := accXor_eq_none (makeBlock := keystreamBlock p)
      (r := Reservoir.mk s'.ctr.keymat s'.ctr.nkeymat.toNat { s' with dout := [] }) (hn ▸ hle) s'.din
    simp only [hnone, hnone']
    exact .next (.raised _)
  · obtain ⟨out, r, hx, hr⟩ := accXor_keystream_some (s := { s with dout := [] }) (km := s.ctr.keymat) s.din hle
    obtain ⟨out', r', hx', hr'⟩ :=
      accXor_keystream_some (s := { s' with dout := [] }) (km := s'.ctr.keymat) s'.din (hn ▸ hle)
    simp only [hx, hx']
    exact withDin_alike h.din fun _ => .next (.running (hr.trans hh) (hr'.trans (h.halt ▸ hh)))

theorem execCtrCustom_alike (o w : Nat) (h : s.ChecksAgree .ctr s') :
    AnswerAlike (SameVerdict s s') (SilentPort s) (execCtrCustom o w s) (execCtrCustom o w s') := by
  refine whenRunning_alike h.halt fun hh => whenValid_alike h.valid (.raised _) fun hv =>
    withBoundPrp_alike h.cfg (h.ctr rfl hv).1 (fun hp => ⟨hp, .inr ⟨hv, rfl⟩⟩) fun p => ?_
  split
  · exact withDin_alike h.din fun _ => .next (.running hh (h.halt ▸ hh))
  · exact .next (.raised _)

theorem execCtrDiscard_alike (h : s.ChecksAgree .ctr s') :
    AnswerAlike (SameVerdict s s') (SilentPort s) (execCtrDiscard s) (execCtrDiscard s') :=
  whenRunning_alike h.halt fun hh => whenValid_alike h.valid (.raised _) fun _ =>
    withDin_alike h.din fun _ => .next (.running hh (h.halt ▸ hh))

/-- Two COREs that the checks of a command cannot tell apart come to one verdict (R127). -/
theorem exec_sameVerdict {i : Instr} (h : s.ChecksAgree (unitOf i) s') :
    AnswerAlike (SameVerdict s s') (SilentPort s) (exec i s) (exec i s') := by
  cases i with
  | sha256Init | sha224Init => exact hashInit_alike _ h
  | sha256Update n | sha224Update n => exact hashUpdate_alike n h
  | sha256Final | sha224Final => exact hashFinal_alike _ h
  | cbcInit hd => exact execCbcInit_alike hd h
  | cbcEncrypt n => exact cbcBlocks_alike (fun p n t => by rw [repeatBlocks_encrypt]) n h
  | cbcDecrypt n => exact cbcBlocks_alike (fun p n t => by rw [repeatBlocks_decrypt]) n h
  | ctrInit hd => exact execCtrInit_alike hd h
  | ctrCipher n => exact execCtrCipher_alike n h
  | ctrCustom o w => exact execCtrCustom_alike o w h
  | ctrDiscard => exact execCtrDiscard_alike h

end Commands

/-- A command whose next state is not halted has completed. -/
theorem completes_of_running {i : Instr} {s t : State} (h : exec i s = .next t) (ht : t.halt = false) :
    Completes s t i := by
  obtain ⟨hh, rfl⟩ | ⟨-, f, -, rfl⟩ | ⟨-, hc⟩ := exec_cases h
  · exact absurd (hh.symm.trans ht) nofun
  · cases ht
  · exact hc

/-- Two COREs that the checks cannot tell apart answer alike up to `R` when refusals, faults and completions do. -/
theorem exec_alike {R : State → State → Prop} {i : Instr} {s s' : State} (h : s.ChecksAgree (unitOf i) s')
    (hhalted : R s.refuseHalted s'.refuseHalted) (hraised : ∀ f, R (s.raiseFault f) (s'.raiseFault f))
    (hdone : ∀ t t', Completes s t i → Completes s' t' i → R t t') :
    AnswerAlike R (SilentPort s) (exec i s) (exec i s') := by
  have hv := exec_sameVerdict h
  generalize ho : exec i s = o at hv ⊢
  generalize ho' : exec i s' = o' at hv ⊢
  cases hv with
  | next hv =>
    cases hv with
    | halted => exact .next hhalted
    | raised f => exact .next (hraised f)
    | running ht ht' => exact .next (hdone _ _ (completes_of_running ho ht) (completes_of_running ho' ht'))
  | fault hf => exact .fault hf
  | refused r => exact .refused r

end Sys2Proof.Machine
end

section
/-! SUPPORT. What a command that completes leaves in its own unit, as a function of that unit's context (10_state.md R24,
R21), and that stale bytes do not enter it (93 U5). -/

namespace Sys2Proof.Machine

section Completions

variable {i : Instr} {s s' t t' : State}

/-! ## The hash unit -/

/-- Where feeding answers, it has the effect of R78. -/
theorem hashFeed_eq_some {c d : HashCtx} {input : Bytes} (h : hashFeed input c = some d) : HashFed c input d := by
  by_cases hn : c.npartial.toNat < 64
  · obtain ⟨e, he, hf⟩ := hashFeed_fed hn input
    obtain rfl : d = e := Option.some.inj (h.symm.trans he)
    exact hf
  · rw [hashFeed_eq_none (by omega)] at h
    cases h

/-- Contexts that are the same but for stale bytes stay so, and the digests are equal. -/
theorem Completes.hash_same (h : Completes s t i) (h' : Completes s' t' i) (hu : unitOf i = .hash) (hcfg : s.cfg = s'.cfg)
    (hdin : s.din = s'.din) (hs : s.hashValid = true → s.hash.Same s'.hash) : t.hash.Same t'.hash ∧ t.dout = t'.dout := by
  cases i with
  | sha256Init | sha224Init =>
    obtain ⟨-, rfl⟩ := h
    obtain ⟨-, rfl⟩ := h'
    exact ⟨HashCtx.Same.refl _, rfl⟩
  | sha256Update _ | sha224Update _ =>
    obtain ⟨hv, -, c, hc, rfl⟩ := h
    obtain ⟨-, -, c', hc', rfl⟩ := h'
    exact ⟨(hashFeed_eq_some hc).unique (hs hv) (hdin ▸ hashFeed_eq_some hc'), rfl⟩
  | sha256Final | sha224Final =>
    obtain ⟨hv, -, -, rfl⟩ := h
    obtain ⟨-, -, -, rfl⟩ := h'
    exact ⟨hs hv, by simp only [hcfg, digestOf_same (hs hv)]⟩
  | cbcInit _ | cbcEncrypt _ | cbcDecrypt _ | ctrInit _ | ctrCipher _ | ctrCustom _ _ | ctrDiscard => cases hu

/-- Equal contexts stay equal, stale bytes included. -/
theorem Completes.hash_eq (h : Completes s t i) (h' : Completes s' t' i) (hu : unitOf i = .hash) (hdin : s.din = s'.din)
    (hs : s.hash = s'.hash) : t.hash = t'.hash := by
  cases i with
  | sha256Init | sha224Init =>
    obtain ⟨-, rfl⟩ := h
    obtain ⟨-, rfl⟩ := h'
    rfl
  | sha256Update _ | sha224Update _ =>
    obtain ⟨-, -, c, hc, rfl⟩ := h
    obtain ⟨-, -, c', hc', rfl⟩ := h'
    rw [hs, hdin] at hc
    exact Option.some.inj (hc.symm.trans hc')
  | sha256Final => rw [h.final_hash (.inl rfl), h'.final_hash (.inl rfl), hs]
  | sha224Final => rw [h.final_hash (.inr rfl), h'.final_hash (.inr rfl), hs]
  | cbcInit _ | cbcEncrypt _ | cbcDecrypt _ | ctrInit _ | ctrCipher _ | ctrCustom _ _ | ctrDiscard => cases hu

/-! ## The CBC unit -/

/-- Equal CBC contexts stay equal, the output is the same, and so are the requests made. -/
theorem Completes.cbc_eq (h : Completes s t i) (h' : Completes s' t' i) (hu : unitOf i = .cbc) (hcfg : s.cfg = s'.cfg)
    (hdin : s.din = s'.din) (hs : s.cbcValid = true → s.cbc = s'.cbc) :
    t.cbc = t'.cbc ∧ t.dout = t'.dout ∧ ∃ q, t.prpTrace = s.prpTrace ++ q ∧ t'.prpTrace = s'.prpTrace ++ q := by
  cases i with
  | cbcInit hd =>
    obtain ⟨p, -, -, rfl⟩ := h
    obtain ⟨p', -, -, rfl⟩ := h'
    exact ⟨by simp only [hdin], rfl, [], by simp⟩
  | cbcEncrypt n =>
    obtain ⟨hv, p, hp, -, rfl⟩ := h
    obtain ⟨-, p', hp', -, rfl⟩ := h'
    rw [hcfg, hs hv] at hp
    obtain rfl : p = p' := Option.some.inj (hp.symm.trans hp')
    rw [repeatBlocks_encrypt, repeatBlocks_encrypt, ← hdin, ← hs hv]
    exact ⟨rfl, rfl, _, rfl, rfl⟩
  | cbcDecrypt n =>
    obtain ⟨hv, p, hp, -, rfl⟩ := h
    obtain ⟨-, p', hp', -, rfl⟩ := h'
    rw [hcfg, hs hv] at hp
    obtain rfl : p = p' := Option.some.inj (hp.symm.trans hp')
    rw [repeatBlocks_decrypt, repeatBlocks_decrypt, ← hdin, ← hs hv]
    exact ⟨rfl, rfl, _, rfl, rfl⟩
  | sha256Init | sha256Update _ | sha256Final | sha224Init | sha224Update _ | sha224Final | ctrInit _ | ctrCipher _
  | ctrCustom _ _ | ctrDiscard => cases hu

/-! ## The CTR unit -/

/-- XOR mode with the keystream callback reads nothing of the state but its CTR context. -/
theorem accXor_keystream_congr {p : Prp} {km km' : Bytes} {n n' : Nat} {input input' out out' : Bytes}
    {r r' : Reservoir State} (hk : km = km') (hn : n = n') (hin : input = input') (hs : s.ctr = s'.ctr)
    (h : accXor p.pb (keystreamBlock p) input (Reservoir.mk km n s) = some (out, r))
    (h' : accXor p.pb (keystreamBlock p) input' (Reservoir.mk km' n' s') = some (out', r')) :
    out = out' ∧ r.keymat = r'.keymat ∧ r.n = r'.n ∧ r.ctx.ctr = r'.ctx.ctr := by
  subst hk hn hin
  have hblock : ∀ c c' : State, c.ctr = c'.ctr → (keystreamBlock p c).1 = (keystreamBlock p c').1 ∧
      (keystreamBlock p c).2.ctr = (keystreamBlock p c').2.ctr := fun c c' hc => by
    simp only [keystreamBlock, prpRequest, hc, and_self]
  have hrel := xorBytewise_related p.pb (keystreamBlock p) (fun c c' => c.ctr = c'.ctr) hblock input km n s s' hs
  by_cases hle : p.pb ≤ n
  · rw [accXor_eq_none hle] at h
    cases h
  · rw [accXor, if_neg hle, Option.some.injEq] at h h'
    rwa [h, h'] at hrel

/-- Equal CTR contexts stay equal, and the output is the same. -/
theorem Completes.ctr_eq (h : Completes s t i) (h' : Completes s' t' i) (hu : unitOf i = .ctr) (hcfg : s.cfg = s'.cfg)
    (hdin : s.din = s'.din) (hs : s.ctr = s'.ctr) : t.ctr = t'.ctr ∧ t.dout = t'.dout := by
  cases i with
  | ctrInit hd =>
    obtain ⟨p, hp, -, rfl⟩ := h
    obtain ⟨p', hp', -, rfl⟩ := h'
    obtain rfl : p = p' := Option.some.inj (hp.symm.trans (hcfg ▸ hp'))
    exact ⟨by simp only [hs, hdin], rfl⟩
  | ctrCipher n =>
    obtain ⟨-, -, p, out, r, hp, hx, rfl⟩ := h
    obtain ⟨-, -, p', out', r', hp', hx', rfl⟩ := h'
    rw [hcfg, hs] at hp
    obtain rfl : p = p' := Option.some.inj (hp.symm.trans hp')
    obtain ⟨rfl, hk, hn, hc⟩ := accXor_keystream_congr (s := { s with dout := [] }) (s' := { s' with dout := [] })
      (congrArg CtrCtx.keymat hs) (congrArg (fun c => c.nkeymat.toNat) hs) hdin hs hx hx'
    obtain ⟨j, hj⟩ := accXor_ctx hx
    obtain ⟨j', hj'⟩ := accXor_ctx hx'
    exact ⟨by simp only [hk, hn, hc], by simp only [hj, hj']⟩
  | ctrCustom o w =>
    obtain ⟨-, -, p, -, -, rfl⟩ := h
    obtain ⟨-, -, p', -, -, rfl⟩ := h'
    exact ⟨by simp only [hs], rfl⟩
  | ctrDiscard =>
    obtain ⟨-, -, rfl⟩ := h
    obtain ⟨-, -, rfl⟩ := h'
    exact ⟨by simp only [hs], rfl⟩
  | sha256Init | sha256Update _ | sha256Final | sha224Init | sha224Update _ | sha224Final | cbcInit _ | cbcEncrypt _
  | cbcDecrypt _ => cases hu

theorem CtrCtx.unconsumed_of_empty {c : CtrCtx} (h : c.nkeymat = 0) (pb : Nat) : c.unconsumed pb = [] := by
  rw [CtrCtx.unconsumed, h]
  exact List.take_zero

/-- CTR contexts that are alike but for consumed reservoir bytes stay so; output and requests are the same. -/
theorem Completes.ctr_alike (h : Completes s t i) (h' : Completes s' t' i) (hu : unitOf i = .ctr) (hcfg : s.cfg = s'.cfg)
    (hdin : s.din = s'.din) (hok : s.ctrValid = true → s.ctr.Ok s.cfg) (hok' : s'.ctrValid = true → s'.ctr.Ok s'.cfg)
    (hs : s.ctrValid = true → s.ctr.Alike (blockSize s.cfg s.ctr.prp) s'.ctr) :
    t.ctr.Alike (blockSize t.cfg t.ctr.prp) t'.ctr ∧ t.dout = t'.dout ∧
      ∃ q, t.prpTrace = s.prpTrace ++ q ∧ t'.prpTrace = s'.prpTrace ++ q := by
  cases i with
  | ctrInit hd =>
    obtain ⟨p, hp, -, rfl⟩ := h
    obtain ⟨p', hp', -, rfl⟩ := h'
    obtain rfl : p = p' := Option.some.inj (hp.symm.trans (hcfg ▸ hp'))
    refine ⟨⟨rfl, hdin, rfl, rfl, rfl, ?_⟩, rfl, [], by simp⟩
    rw [CtrCtx.unconsumed_of_empty rfl, CtrCtx.unconsumed_of_empty rfl]
  | ctrCipher n =>
    obtain ⟨hv, hv'⟩ : s.ctrValid = true ∧ s'.ctrValid = true := ⟨h.1, h'.1⟩
    obtain ⟨p, out, d, hp, hc, rfl⟩ := Completes.ciphered h (hok hv)
    obtain ⟨p', out', d', hp', hc', rfl⟩ := Completes.ciphered h' (hok' hv')
    have A := hs hv
    rw [blockSize_eq hp] at A
    rw [← hcfg, ← A.prp] at hp'
    obtain rfl : p = p' := Option.some.inj (hp.symm.trans hp')
    rw [← hdin] at hc'
    obtain ⟨ho, ho', -, hd⟩ := Ciphered.alike A rfl hc hc'
    refine ⟨?_, ho.trans ho'.symm, _, rfl, ?_⟩
    · rwa [show blockSize s.cfg d.prp = p.pb by rw [hc.prp, blockSize_eq hp]]
    · simp only [blocksNeeded, hdin, A.nkeymat, A.prp, counterAfter_congr A.nonce A.counterOffset A.counterWidth]
  | ctrCustom o w =>
    obtain ⟨hv, -, p, -, -, rfl⟩ := h
    obtain ⟨-, -, p', -, -, rfl⟩ := h'
    obtain ⟨hprp, hnonce, -, -, hn, hunc⟩ := hs hv
    exact ⟨⟨hprp, hnonce, rfl, rfl, hn, hunc⟩, rfl, [], by simp⟩
  | ctrDiscard =>
    obtain ⟨hv, -, rfl⟩ := h
    obtain ⟨-, -, rfl⟩ := h'
    obtain ⟨hprp, hnonce, ho, hw, -, -⟩ := hs hv
    refine ⟨⟨hprp, hnonce, ho, hw, rfl, ?_⟩, rfl, [], by simp⟩
    rw [CtrCtx.unconsumed_of_empty rfl, CtrCtx.unconsumed_of_empty rfl]
  | sha256Init | sha256Update _ | sha256Final | sha224Init | sha224Update _ | sha224Final | cbcInit _ | cbcEncrypt _
  | cbcDecrypt _ => cases hu

end Completions

end Sys2Proof.Machine
end

section
/-! SUPPORT. Noninterference: a command reads the context of its own unit only (10_state.md R24, R21), and what the spec leaves
unspecified is never observed (R23, R126, 93 U4, U5). -/

namespace Sys2Proof.Machine

/-! ## The other units -/

/-- Two COREs of one configuration agree on HALT, on the input, and on the context and the flag of unit `u`. -/
structure State.AgreesOn (u : CoreUnit) (s s' : State) : Prop where
  cfg : s.cfg = s'.cfg
  halt : s.halt = s'.halt
  din : s.din = s'.din
  valid : s.valid u = s'.valid u
  hash : u = .hash → s.hash = s'.hash
  cbc : u = .cbc → s.cbc = s'.cbc
  ctr : u = .ctr → s.ctr = s'.ctr

/-- The same, and what the host received is the same. -/
structure State.RepliesAndAgreesOn (u : CoreUnit) (t t' : State) : Prop extends State.AgreesOn u t t' where
  dout : t.dout = t'.dout
  cc : t.cc = t'.cc

theorem State.AgreesOn.checksAgree {u : CoreUnit} {s s' : State} (h : s.AgreesOn u s') : s.ChecksAgree u s' where
  cfg := h.cfg
  halt := h.halt
  din := h.din
  valid := h.valid
  hash hu _ := by rw [h.hash hu]
  cbc hu _ := by rw [h.cbc hu]
  ctr hu _ := by rw [h.ctr hu]; exact ⟨rfl, rfl⟩

/-- Completing a command keeps the agreement on its unit. -/
theorem State.AgreesOn.completes {i : Instr} {s s' t t' : State} (h : s.AgreesOn (unitOf i) s') (hc : Completes s t i)
    (hc' : Completes s' t' i) : State.RepliesAndAgreesOn (unitOf i) t t' := by
  cases hu : unitOf i with
  | hash =>
    have hctx := hc.hash_eq hc' hu h.din (h.hash hu)
    have hdout := (hc.hash_same hc' hu h.cfg h.din fun _ => h.hash hu ▸ HashCtx.Same.refl _).2
    obtain ⟨c, b, rfl⟩ := hc.hash_frame hu
    obtain ⟨c', b', rfl⟩ := hc'.hash_frame hu
    exact ⟨⟨h.cfg, h.halt, rfl, rfl, fun _ => hctx, nofun, nofun⟩, hdout, rfl⟩
  | cbc =>
    obtain ⟨hctx, hdout, -⟩ := hc.cbc_eq hc' hu h.cfg h.din fun _ => h.cbc hu
    obtain ⟨c, b, q, rfl, -⟩ := hc.cbc_frame hu
    obtain ⟨c', b', q', rfl, -⟩ := hc'.cbc_frame hu
    exact ⟨⟨h.cfg, h.halt, rfl, rfl, nofun, fun _ => hctx, nofun⟩, hdout, rfl⟩
  | ctr =>
    obtain ⟨hctx, hdout⟩ := hc.ctr_eq hc' hu h.cfg h.din (h.ctr hu)
    obtain ⟨c, b, q, rfl, -⟩ := hc.ctr_frame hu
    obtain ⟨c', b', q', rfl, -⟩ := hc'.ctr_frame hu
    exact ⟨⟨h.cfg, h.halt, rfl, rfl, nofun, nofun, fun _ => hctx⟩, hdout, rfl⟩

@[simp] theorem State.refuseHalted_valid (u : CoreUnit) (s : State) : s.refuseHalted.valid u = s.valid u := by
  cases u <;> rfl

@[simp] theorem State.raiseFault_valid (f : FaultCode) (u : CoreUnit) (s : State) :
    (s.raiseFault f).valid u = s.valid u := by
  cases u <;> rfl

/-- A command answers alike on two COREs that agree on its unit. -/
theorem State.AgreesOn.exec_alike {i : Instr} {s s' : State} (h : s.AgreesOn (unitOf i) s') :
    AnswerAlike (State.RepliesAndAgreesOn (unitOf i)) (SilentPort s) (exec i s) (exec i s') := by
  refine Machine.exec_alike h.checksAgree ?_ (fun f => ?_) fun t t' => h.completes
  · exact ⟨⟨h.cfg, h.halt, rfl, by simpa using h.valid, h.hash, h.cbc, h.ctr⟩, rfl, rfl⟩
  · exact ⟨⟨h.cfg, rfl, rfl, by simpa using h.valid, h.hash, h.cbc, h.ctr⟩, rfl, rfl⟩

/-- Settles O43. -/
theorem commandsReadTheirOwnContextOnly : Obligations.CommandsReadTheirOwnContextOnly := by
  intro i s s' hcfg hhalt hdin hvalid hhash hcbc hctr
  have hagree : s.AgreesOn (unitOf i) s' := ⟨hcfg.symm, hhalt.symm, hdin.symm, hvalid.symm, fun hu => (hhash hu).symm,
    fun hu => (hcbc hu).symm, fun hu => (hctr hu).symm⟩
  have h := hagree.exec_alike
  generalize exec i s = o at h ⊢
  generalize exec i s' = o' at h ⊢
  cases h with
  | next h =>
    exact .inl ⟨_, _, rfl, rfl, h.dout.symm, h.cc.symm, h.halt.symm, h.valid.symm, fun hu => (h.hash hu).symm,
      fun hu => (h.cbc hu).symm, fun hu => (h.ctr hu).symm⟩
  | fault _ => exact .inr (.inl ⟨_, rfl, rfl⟩)
  | refused r => exact .inr (.inr ⟨r, rfl, rfl⟩)

/-! ## What is unspecified -/

/-- The CTR clause of `State.Indistinguishable`. -/
theorem State.Indistinguishable.ctr_alike {s s' : State} (h : s.Indistinguishable s') (hv : s.ctrValid = true) :
    s.ctr.Alike (blockSize s.cfg s.ctr.prp) s'.ctr := by
  obtain ⟨hprp, hnonce, ho, hw, hn, hunc⟩ := h.ctr hv
  exact ⟨hprp, hnonce, ho, hw, hn, hunc⟩

theorem State.Indistinguishable.checksAgree {s s' : State} (h : s.Indistinguishable s') (u : CoreUnit) :
    s.ChecksAgree u s' where
  cfg := h.cfg
  halt := h.halt
  din := h.din
  valid := by cases u; exacts [h.hashValid, h.cbcValid, h.ctrValid]
  hash _ hv := by obtain ⟨-, hn, -, -⟩ := h.hash hv; exact hn
  cbc _ hv := by rw [h.cbc hv]
  ctr _ hv := ⟨(h.ctr_alike hv).prp, (h.ctr_alike hv).nkeymat⟩

theorem State.Indistinguishable.refuseHalted {s s' : State} (h : s.Indistinguishable s') :
    s.refuseHalted.Indistinguishable s'.refuseHalted :=
  { h with cc := rfl, din := rfl, dout := rfl }

theorem State.Indistinguishable.raiseFault {s s' : State} (h : s.Indistinguishable s') (f : FaultCode) :
    (s.raiseFault f).Indistinguishable (s'.raiseFault f) :=
  { h with halt := rfl, fcode := rfl, cc := rfl, din := rfl, dout := rfl }

theorem State.Indistinguishable.recordCommand {s s' : State} (h : s.Indistinguishable s') :
    s.recordCommand.Indistinguishable s'.recordCommand :=
  { h with observed := by simp [h.observed, h.dout, h.cc] }

theorem State.Indistinguishable.with_pending {s s' : State} (h : s.Indistinguishable s') (rest : List HostAction) :
    State.Indistinguishable { s with pending := rest } { s' with pending := rest } :=
  { h with pending := rfl }

theorem State.Indistinguishable.with_din {s s' : State} (h : s.Indistinguishable s') (input : Bytes) :
    State.Indistinguishable { s with din := input } { s' with din := input } :=
  { h with din := rfl }

theorem State.Indistinguishable.status_eq {s s' : State} (h : s.Indistinguishable s') : s.status = s'.status := by
  rw [State.status, State.status, h.fcode, h.ctrValid, h.cbcValid, h.hashValid, h.halt]

theorem State.Indistinguishable.readRegister {s s' : State} (h : s.Indistinguishable s') (r : ReadReg) :
    (s.readRegister r).Indistinguishable (s'.readRegister r) := by
  cases r with
  | status => exact { h with observed := by simp [State.readRegister, h.observed, h.status_eq] }
  | cc => exact { h with observed := by simp [State.readRegister, h.observed, h.cc] }
  | cmd | din =>
    exact { h with
      observed := by simp [State.readRegister, h.observed, h.freeReads]
      freeReads := by simp [State.readRegister, h.freeReads] }

/-- After reset nothing that differed is left. -/
theorem State.Indistinguishable.takeReset {s s' : State} (h : s.Indistinguishable s') :
    s.takeReset.Indistinguishable s'.takeReset :=
  ⟨h.cfg, rfl, rfl, rfl, rfl, rfl, rfl, rfl, rfl, h.pending, h.observed, h.prpTrace, h.freeReads, nofun, nofun, nofun⟩

/-- Completing a command keeps two states indistinguishable. -/
theorem State.Indistinguishable.completes {i : Instr} {s s' t t' : State} (h : s.Indistinguishable s')
    (hs : s.ContextsOk) (hs' : s'.ContextsOk) (hc : Completes s t i) (hc' : Completes s' t' i) :
    t.Indistinguishable t' := by
  cases hu : unitOf i with
  | hash =>
    obtain ⟨hctx, hdout⟩ := hc.hash_same hc' hu h.cfg h.din h.hash
    obtain ⟨c, b, rfl⟩ := hc.hash_frame hu
    obtain ⟨c', b', rfl⟩ := hc'.hash_frame hu
    exact { h with hashValid := rfl, cc := rfl, din := rfl, dout := hdout, hash := fun _ => hctx }
  | cbc =>
    obtain ⟨hctx, hdout, r, hr, hr'⟩ := hc.cbc_eq hc' hu h.cfg h.din h.cbc
    obtain ⟨c, b, q, rfl, -⟩ := hc.cbc_frame hu
    obtain ⟨c', b', q', rfl, -⟩ := hc'.cbc_frame hu
    exact { h with
      cbcValid := rfl, cc := rfl, din := rfl, dout := hdout, cbc := fun _ => hctx
      prpTrace := by rw [hr, hr', h.prpTrace] }
  | ctr =>
    obtain ⟨hctx, hdout, r, hr, hr'⟩ := hc.ctr_alike hc' hu h.cfg h.din hs.ctr hs'.ctr fun hv => h.ctr_alike hv
    obtain ⟨c, b, q, rfl, -⟩ := hc.ctr_frame hu
    obtain ⟨c', b', q', rfl, -⟩ := hc'.ctr_frame hu
    exact { h with
      ctrValid := rfl, cc := rfl, din := rfl, dout := hdout
      ctr := fun _ => ⟨hctx.prp, hctx.nonce, hctx.counterOffset, hctx.counterWidth, hctx.nkeymat, hctx.unconsumed⟩
      prpTrace := by rw [hr, hr', h.prpTrace] }

/-- A command word on two states the host cannot tell apart. -/
theorem State.Indistinguishable.runCommand_alike {s s' : State} (h : s.Indistinguishable s') (hs : s.ContextsOk)
    (hs' : s'.ContextsOk) (w : Word) :
    AnswerAlike State.Indistinguishable (SilentPort s) (runCommand w s) (runCommand w s') := by
  unfold runCommand
  split
  · next i _ =>
    exact exec_alike (h.checksAgree _) h.refuseHalted h.raiseFault fun t t' => h.completes hs hs'
  · cases hh : s.halt with
    | true =>
      rw [whenRunning_halted hh, whenRunning_halted (h.halt ▸ hh)]
      exact .next h.refuseHalted
    | false =>
      rw [whenRunning_running hh, whenRunning_running (h.halt ▸ hh)]
      exact .next (h.raiseFault .illegal)

/-- Settles O48, by the host's next action. -/
theorem unspecifiedValuesAreNeverObserved : Obligations.UnspecifiedValuesAreNeverObserved := by
  intro s s' hs hs' h
  have hpend := h.pending
  unfold step
  rw [← hpend]
  split
  · exact .inl ⟨s, s', rfl, rfl, h⟩
  · next w input rest _ =>
    have hok : State.ContextsOk { s with pending := rest, din := input } := ⟨hs.hash, hs.cbc, hs.ctr⟩
    have hok' : State.ContextsOk { s' with pending := rest, din := input } := ⟨hs'.hash, hs'.cbc, hs'.ctr⟩
    have hrun := ((h.with_pending rest).with_din input).runCommand_alike hok hok' w
    generalize runCommand w { s with pending := rest, din := input } = o at hrun ⊢
    generalize runCommand w { s' with pending := rest, din := input } = o' at hrun ⊢
    cases hrun with
    | next ht => exact .inl ⟨_, _, rfl, rfl, ht.recordCommand⟩
    | fault hf => exact absurd hf (hok.not_silentPort _)
    | refused r => exact .inr ⟨r, rfl, rfl⟩
  · next rest _ => exact .inl ⟨_, _, rfl, rfl, (h.with_pending rest).takeReset⟩
  · next r rest _ => exact .inl ⟨_, _, rfl, rfl, (h.with_pending rest).readRegister r⟩
  · next r v rest _ => exact .inl ⟨_, _, rfl, rfl, h.with_pending rest⟩

end Sys2Proof.Machine
end

section
/-! SUPPORT. The stream lengths of a command (20_memory.md R43): the bytes one that completes has taken and given, and that a
wrong `DinLen` is the only reason a state that meets the invariant has no next state. -/

namespace Sys2Proof.Machine

/-- `DinLen` reads neither what the host is still going to do nor the bytes it supplies. -/
@[simp] theorem dinLen_with_transaction (s : State) (rest : List HostAction) (input : Bytes) (i : Instr) :
    dinLen { s with pending := rest, din := input } i = dinLen s i := by
  cases i <;> rfl

/-- `DoutLen` does not read the bytes supplied. -/
@[simp] theorem doutLen_with_din (s : State) (input : Bytes) (i : Instr) :
    doutLen { s with din := input } i = doutLen s i := by
  cases i <;> rfl

/-- `OK` is no fault code (R121, R123). -/
theorem FaultCode.code_ne_zero (f : FaultCode) : f.code ≠ 0 := by
  cases f <;> decide

/-! ## Completed commands -/

/-- A command that completes was given `DinLen` bytes. -/
theorem Completes.din_length {i : Instr} {s t : State} (h : Completes s t i) : s.din.length = dinLen s i := by
  cases i with
  | sha256Init | sha224Init => obtain ⟨hd, -⟩ := h; exact congrArg List.length hd
  | sha256Update _ | sha224Update _ => obtain ⟨-, hl, -⟩ := h; exact hl
  | sha256Final | sha224Final | ctrCustom _ _ | ctrDiscard => obtain ⟨-, hd, -⟩ := h; exact congrArg List.length hd
  | cbcInit hd | ctrInit hd =>
    obtain ⟨p, hp, hl, -⟩ := h
    rw [hl, dinLen, blockSize_eq (bindablePrp_eq_some.1 hp).1]
  | cbcEncrypt n | cbcDecrypt n =>
    obtain ⟨-, p, hp, hl, -⟩ := h
    rw [hl, dinLen, blockSize_eq hp]
  | ctrCipher _ => obtain ⟨-, hl, -⟩ := h; exact hl

/-- A command that completes gives `DoutLen` bytes. -/
theorem Completes.dout_length {i : Instr} {s t : State} (h : Completes s t i) (hs : s.ContextsOk) :
    t.dout.length = doutLen s i := by
  cases i with
  | sha256Init | sha224Init => obtain ⟨-, rfl⟩ := h; rfl
  | sha256Update _ | sha224Update _ => obtain ⟨-, -, c, -, rfl⟩ := h; rfl
  | sha256Final => obtain ⟨-, -, -, rfl⟩ := h; exact digestOf_length _ _
  | sha224Final => obtain ⟨-, -, -, rfl⟩ := h; simp [doutLen, hashDescriptor]
  | cbcInit _ | ctrInit _ => obtain ⟨p, -, -, rfl⟩ := h; rfl
  | cbcEncrypt n =>
    obtain ⟨-, p, hp, -, rfl⟩ := h
    rw [repeatBlocks_encrypt, doutLen, blockSize_eq hp]
    exact joinBlocks_length fun i _ => cbcCipherBlock_length p _ _ i
  | cbcDecrypt n =>
    obtain ⟨hv, p, hp, hl, rfl⟩ := h
    obtain ⟨q, hq, hchain⟩ := hs.cbc hv
    obtain rfl : p = q := Option.some.inj (hp.symm.trans (bindablePrp_eq_some.1 hq).1)
    rw [repeatBlocks_decrypt, doutLen, blockSize_eq hp]
    refine joinBlocks_length fun i hi => ?_
    have hbefore := chainBefore_length (n := i) hchain fun j hj => blockAt_length hl (hj.trans hi)
    rw [xorBytes_length, prpAnswer_length, hbefore, Nat.min_self]
  | ctrCipher n =>
    obtain ⟨hv, hl⟩ : s.ctrValid = true ∧ s.din.length = n := ⟨h.1, h.2.1⟩
    obtain ⟨p, out, d, -, hc, rfl⟩ := h.ciphered (hs.ctr hv)
    exact hc.out_length.trans hl
  | ctrCustom _ _ => obtain ⟨-, -, p, -, -, rfl⟩ := h; rfl
  | ctrDiscard => obtain ⟨-, -, rfl⟩ := h; rfl

/-! ## Where a refusal comes from -/

/-- The answer `o` to a transaction on `s` is no refusal but for a `din` that is not `n` bytes long. -/
def RefusesOnlyLength (n : Nat) (s : State) (o : Out) : Prop :=
  ∀ r, o = .refused r → s.din.length ≠ n ∧ r = .malformedTransaction n s.din.length

section Checks

variable {n : Nat} {s : State} {body : State → Out}

theorem RefusesOnlyLength.next (t : State) : RefusesOnlyLength n s (.next t) := nofun

theorem whenRunning_refusesOnlyLength
    (hb : RefusesOnlyLength n { s with dout := [] } (body { s with dout := [] })) :
    RefusesOnlyLength n s (whenRunning s body) := by
  cases hh : s.halt with
  | true => rw [whenRunning_halted hh]; exact .next _
  | false => rw [whenRunning_running hh]; exact hb

theorem whenValid_refusesOnlyLength {v : Bool} (hb : RefusesOnlyLength n s (body s)) :
    RefusesOnlyLength n s (whenValid v s body) := by
  cases v with
  | true => exact hb
  | false => exact .next _

/-- Past the length check every command has a next state, so a refusal is the check's own. -/
theorem withDin_refusesOnlyLength (hb : ∀ r, body s ≠ .refused r) : RefusesOnlyLength n s (withDin n s body) := by
  intro r h
  by_cases hl : s.din.length = n
  · rw [withDin_of_eq hl] at h; exact absurd h (hb r)
  · rw [withDin_of_ne hl] at h; cases h; exact ⟨hl, rfl⟩

theorem whenBindable_refusesOnlyLength {hd : Handle} {body : Prp → Out}
    (hb : ∀ p, blockSize s.cfg hd = p.pb → RefusesOnlyLength n s (body p)) :
    RefusesOnlyLength n s (whenBindable hd s body) := by
  cases hp : bindablePrp s.cfg hd with
  | some p => rw [whenBindable_some hp]; exact hb p (blockSize_eq (bindablePrp_eq_some.1 hp).1)
  | none => rw [whenBindable_none hp]; exact .next _

theorem withBoundPrp_refusesOnlyLength {hd : Handle} {body : Prp → Out}
    (hb : ∀ p, blockSize s.cfg hd = p.pb → RefusesOnlyLength n s (body p)) :
    RefusesOnlyLength n s (withBoundPrp hd s body) := by
  cases hp : lookupPrp s.cfg hd with
  | some p => rw [withBoundPrp_some hp]; exact hb p (blockSize_eq hp)
  | none => rw [withBoundPrp_none hp]; exact nofun

end Checks

section Commands

variable (s : State)

theorem hashInit_refusesOnlyLength (v : Variant) : RefusesOnlyLength 0 s (hashInit v s) :=
  whenRunning_refusesOnlyLength (withDin_refusesOnlyLength nofun)

theorem hashUpdate_refusesOnlyLength (n : Nat) : RefusesOnlyLength n s (hashUpdate n s) := by
  refine whenRunning_refusesOnlyLength (whenValid_refusesOnlyLength ?_)
  split
  · exact .next _
  · exact withDin_refusesOnlyLength nofun

theorem hashFinal_refusesOnlyLength (v : Variant) : RefusesOnlyLength 0 s (hashFinal v s) := by
  refine whenRunning_refusesOnlyLength (whenValid_refusesOnlyLength ?_)
  split
  · exact .next _
  · exact withDin_refusesOnlyLength nofun

theorem execCbcInit_refusesOnlyLength (hd : Handle) :
    RefusesOnlyLength (blockSize s.cfg hd) s (execCbcInit hd s) :=
  whenRunning_refusesOnlyLength <| whenBindable_refusesOnlyLength fun _ hp => hp ▸ withDin_refusesOnlyLength nofun

theorem cbcBlocks_refusesOnlyLength (block : Prp → State → State) (n : Nat) :
    RefusesOnlyLength (n * blockSize s.cfg s.cbc.prp) s (cbcBlocks block n s) :=
  whenRunning_refusesOnlyLength <| whenValid_refusesOnlyLength <| withBoundPrp_refusesOnlyLength fun _ hp =>
    hp ▸ withDin_refusesOnlyLength nofun

theorem execCtrInit_refusesOnlyLength (hd : Handle) :
    RefusesOnlyLength (blockSize s.cfg hd) s (execCtrInit hd s) :=
  whenRunning_refusesOnlyLength <| whenBindable_refusesOnlyLength fun _ hp => hp ▸ withDin_refusesOnlyLength nofun

theorem execCtrCipher_refusesOnlyLength (n : Nat) : RefusesOnlyLength n s (execCtrCipher n s) := by
  refine whenRunning_refusesOnlyLength <| whenValid_refusesOnlyLength <| withBoundPrp_refusesOnlyLength fun _ _ => ?_
  split
  · exact .next _
  · exact withDin_refusesOnlyLength nofun

theorem execCtrCustom_refusesOnlyLength (o w : Nat) : RefusesOnlyLength 0 s (execCtrCustom o w s) := by
  refine whenRunning_refusesOnlyLength <| whenValid_refusesOnlyLength <| withBoundPrp_refusesOnlyLength fun _ _ => ?_
  split
  · exact withDin_refusesOnlyLength nofun
  · exact .next _

theorem execCtrDiscard_refusesOnlyLength : RefusesOnlyLength 0 s (execCtrDiscard s) :=
  whenRunning_refusesOnlyLength (whenValid_refusesOnlyLength (withDin_refusesOnlyLength nofun))

/-- A command is refused only for a `din` that is not `DinLen` bytes long. -/
theorem exec_refusesOnlyLength (i : Instr) : RefusesOnlyLength (dinLen s i) s (exec i s) := by
  cases i with
  | sha256Init | sha224Init => exact hashInit_refusesOnlyLength s _
  | sha256Update n | sha224Update n => exact hashUpdate_refusesOnlyLength s n
  | sha256Final | sha224Final => exact hashFinal_refusesOnlyLength s _
  | cbcInit hd => exact execCbcInit_refusesOnlyLength s hd
  | cbcEncrypt n | cbcDecrypt n => exact cbcBlocks_refusesOnlyLength s _ n
  | ctrInit hd => exact execCtrInit_refusesOnlyLength s hd
  | ctrCipher n => exact execCtrCipher_refusesOnlyLength s n
  | ctrCustom o w => exact execCtrCustom_refusesOnlyLength s o w
  | ctrDiscard => exact execCtrDiscard_refusesOnlyLength s

end Commands

/-! ## Progress -/

theorem State.AgreesOn.refl (u : CoreUnit) (s : State) : s.AgreesOn u s :=
  ⟨rfl, rfl, rfl, rfl, fun _ => rfl, fun _ => rfl, fun _ => rfl⟩

/-- The model's own fault has no other cause than `SilentPort`: a command answers like itself. -/
theorem exec_eq_fault {i : Instr} {s : State} {f : Fault} (h : exec i s = .fault f) : SilentPort s f := by
  have hself := exec_sameVerdict (State.AgreesOn.refl (unitOf i) s).checksAgree
  rw [h] at hself
  cases hself with
  | fault hf => exact hf

/-- With fit contexts a command has a next state, or its transaction is malformed. -/
theorem State.ContextsOk.exec_progress {s : State} (hs : s.ContextsOk) (i : Instr) :
    (∃ t, exec i s = .next t) ∨
    (s.din.length ≠ dinLen s i ∧ exec i s = .refused (.malformedTransaction (dinLen s i) s.din.length)) := by
  cases hx : exec i s with
  | next t => exact .inl ⟨t, rfl⟩
  | fault f => exact absurd (exec_eq_fault hx) (hs.not_silentPort f)
  | refused r =>
    obtain ⟨hl, rfl⟩ := exec_refusesOnlyLength s i r hx
    exact .inr ⟨hl, rfl⟩

/-- An illegal word always has a next state: it is refused by a halted CORE and faults on a running one. -/
theorem runCommand_illegal {w : Word} {s : State} {e : DecodeReject} (he : decode w = .error e) :
    ∃ t, runCommand w s = .next t := by
  unfold runCommand
  rw [he]
  cases hh : s.halt with
  | true => exact ⟨_, whenRunning_halted hh _⟩
  | false => exact ⟨_, whenRunning_running hh _⟩

theorem runCommand_legal {w : Word} {i : Instr} (hi : decode w = .ok i) (s : State) : runCommand w s = exec i s := by
  rw [runCommand, hi]

/-- Settles O40: the first part by the cases of a command with a next state, the second by progress. -/
theorem commandsTakeAndGiveExactlyTheirBytes : Obligations.CommandsTakeAndGiveExactlyTheirBytes := by
  intro i s hs input
  have hok : State.ContextsOk { s with din := input } := ⟨hs.hash, hs.cbc, hs.ctr⟩
  have hlen : dinLen { s with din := input } i = dinLen s i := dinLen_with_transaction s s.pending input i
  refine ⟨fun t h => ?_, fun hne hrun => ?_⟩
  · obtain ⟨-, rfl⟩ | ⟨-, f, -, rfl⟩ | ⟨-, hc⟩ := exec_cases h
    · exact ⟨rfl, fun hcc => absurd hcc (by decide : ccHalted ≠ 0), fun _ => rfl⟩
    · exact ⟨rfl, fun hcc => absurd hcc f.code_ne_zero, fun _ => rfl⟩
    · obtain ⟨-, -, -, -, -, hcc, -⟩ := completes_keeps hc
      exact ⟨hc.din_eq, fun _ => ⟨hc.din_length.trans hlen, (hc.dout_length hok).trans (doutLen_with_din s input i)⟩,
        fun hne => absurd hcc hne⟩
  · obtain ⟨t, h⟩ | ⟨-, h⟩ := hok.exec_progress i
    · obtain ⟨hh, -⟩ | ⟨-, f, -, rfl⟩ | ⟨-, hc⟩ := exec_cases h
      · exact absurd (hh.symm.trans hrun) nofun
      · exact .inl ⟨f, h⟩
      · exact absurd (hc.din_length.trans hlen) hne
    · exact .inr (hlen ▸ h)

/-- Settles O47, by the host's next action: only a command can lack a next state. -/
theorem onlyMalformedTransactionsHaveNoStep : Obligations.OnlyMalformedTransactionsHaveNoStep := by
  intro s hs
  unfold step
  split
  · exact .inl ⟨_, rfl⟩
  · next w input rest hp =>
    cases hd : decode w with
    | error e =>
      obtain ⟨t, h⟩ := runCommand_illegal (s := { s with pending := rest, din := input }) hd
      exact .inl ⟨_, by rw [h]; rfl⟩
    | ok i =>
      have hok : State.ContextsOk { s with pending := rest, din := input } := ⟨hs.hash, hs.cbc, hs.ctr⟩
      rw [runCommand_legal hd]
      obtain ⟨t, h⟩ | ⟨hl, h⟩ := hok.exec_progress i
      · exact .inl ⟨_, by rw [h]; rfl⟩
      · rw [dinLen_with_transaction] at hl h
        exact .inr ⟨w, i, input, rest, hp, hd, hl, by rw [h]; rfl⟩
  · exact .inl ⟨_, rfl⟩
  · exact .inl ⟨_, rfl⟩
  · exact .inl ⟨_, rfl⟩

end Sys2Proof.Machine
end

section
/-! SUPPORT. The encoding family: encode and decode undo each other (30_encoding.md R57), and the rows of the opcode map (R52)
split the words into the encodings of well-formed commands and the illegal words of R53. -/

namespace Sys2Proof

/-! ## From the command to its word and back -/

/-- Settles O2, by the command: its word's fields name its operation, and operands in range survive their field. -/
theorem decodeOfEncodeIsTheCommand : Obligations.DecodeOfEncodeIsTheCommand := by
  intro i hi
  cases i with
  | sha256Init | sha256Final | sha224Init | sha224Final | ctrDiscard => simp only [encode, decode_noOperand]; rfl
  | cbcInit h | ctrInit h => simp only [encode, decode_operand]
  | sha256Update n | sha224Update n | cbcEncrypt n | cbcDecrypt n | ctrCipher n =>
    have hn : n < 2 ^ 24 := of_decide_eq_true hi
    simp only [encode, decode_operand, BitVec.toNat_ofNat, Nat.mod_eq_of_lt hn]
  | ctrCustom o w =>
    simp only [Instr.wf, Bool.and_eq_true, decide_eq_true_eq] at hi
    obtain ⟨ho, hw⟩ := hi
    simp only [encode, decode_operand, window_fields_hi, window_fields_lo, BitVec.toNat_ofNat,
      Nat.mod_eq_of_lt ho, Nat.mod_eq_of_lt hw]

/-! ## The rows of the opcode map -/

/-- The row of the opcode map that a command's word selects is its own, and no other (R52). -/
theorem encode_selects : (i : Instr) → Laws.EncodingRow.Statement i
  | .sha256Init => Laws.EncodingRow.sha256Init
  | .sha256Update n => Laws.EncodingRow.sha256Update n
  | .sha256Final => Laws.EncodingRow.sha256Final
  | .sha224Init => Laws.EncodingRow.sha224Init
  | .sha224Update n => Laws.EncodingRow.sha224Update n
  | .sha224Final => Laws.EncodingRow.sha224Final
  | .cbcInit h => Laws.EncodingRow.cbcInit h
  | .cbcEncrypt n => Laws.EncodingRow.cbcEncrypt n
  | .cbcDecrypt n => Laws.EncodingRow.cbcDecrypt n
  | .ctrInit h => Laws.EncodingRow.ctrInit h
  | .ctrCipher n => Laws.EncodingRow.ctrCipher n
  | .ctrCustom o w => Laws.EncodingRow.ctrCustom o w
  | .ctrDiscard => Laws.EncodingRow.ctrDiscard

/-- A row is a fixed `UNIT` and `OP`, and a zero `ARG` where its mask is full. -/
theorem OpcodeRow.selects_iff {r : OpcodeRow} (hr : r ∈ opcodeTable) (w : Word) :
    r.selects w = true ↔ unitField w = unitField r.pattern ∧ opField w = opField r.pattern ∧
      (r.mask = 0xFFFFFFFF → argField w = 0) := by
  have hrow : ∀ r ∈ opcodeTable, r.pattern = commandWord (unitField r.pattern) (opField r.pattern) 0 ∧
      (r.mask = 0xFF000000 ∨ r.mask = 0xFFFFFFFF) := by decide
  obtain ⟨hp, hm⟩ := hrow r hr
  obtain ⟨m, p, k⟩ := r
  generalize unitField p = u, opField p = o at hp
  dsimp only at hp hm ⊢
  subst hp
  rw [← commandWord_fields w]
  obtain rfl | rfl := hm
  · rw [Laws.EncodingRow.selects_operand]; simp
  · rw [Laws.EncodingRow.selects_fixed]; simp [and_assoc]

/-- The word is the encoding of a well-formed command. -/
def IsEncoding (w : Word) : Prop := ∃ i : Instr, i.wf = true ∧ encode i = w

/-- A row with an operand selects encodings only, if every `ARG` encodes a well-formed command of the row. -/
theorem IsEncoding.of_operand {m : Mnemonic} {u o : BitVec 4} {w : Word} (c : BitVec 24 → Instr)
    (hc : ∀ a, (c a).wf = true ∧ encode (c a) = commandWord u o a)
    (h : OpcodeRow.selects ⟨m, commandWord u o 0, 0xFF000000⟩ w = true) : IsEncoding w := by
  rw [← commandWord_fields w, Laws.EncodingRow.selects_operand, Bool.and_eq_true, decide_eq_true_eq,
    decide_eq_true_eq] at h
  obtain ⟨hu, ho⟩ := h
  refine ⟨c (argField w), (hc _).1, ?_⟩
  rw [(hc _).2, ← hu, ← ho, commandWord_fields]

/-- A row without operand selects the encoding of its one command only. -/
theorem IsEncoding.of_fixed {m : Mnemonic} {p w : Word} (i : Instr) (hi : i.wf = true ∧ encode i = p)
    (h : OpcodeRow.selects ⟨m, p, 0xFFFFFFFF⟩ w = true) : IsEncoding w := by
  rw [OpcodeRow.selects, and_fullMask, beq_iff_eq] at h
  exact ⟨i, hi.1, hi.2.trans h.symm⟩

/-- The number in `ARG` is a count in range and is encoded as that `ARG` (R51). -/
theorem count_of_arg (u o : BitVec 4) (a : BitVec 24) :
    decide (a.toNat < 2 ^ 24) = true ∧ commandWord u o (BitVec.ofNat 24 a.toNat) = commandWord u o a :=
  ⟨decide_eq_true a.isLt, by rw [BitVec.ofNat_toNat, BitVec.setWidth_eq]⟩

/-- The two window fields of any `ARG` are in range and are encoded as that `ARG` (R51). -/
theorem window_of_arg (a : BitVec 24) :
    (Instr.ctrCustom (a.extractLsb' 12 12).toNat (a.extractLsb' 0 12).toNat).wf = true ∧
      encode (.ctrCustom (a.extractLsb' 12 12).toNat (a.extractLsb' 0 12).toNat) = commandWord 3 2 a := by
  refine ⟨by simp only [Instr.wf, BitVec.isLt, decide_true, Bool.and_self], ?_⟩
  rw [encode, BitVec.ofNat_toNat, BitVec.ofNat_toNat, BitVec.setWidth_eq, BitVec.setWidth_eq, window_fields_eq]

/-- Every word that selects a row is the encoding of a well-formed command. -/
theorem isEncoding_of_selects {w : Word} : ∀ r ∈ opcodeTable, r.selects w = true → IsEncoding w := by
  rw [Laws.EncodingRow.opcodeTable_eq]
  simp only [List.forall_mem_cons]
  exact ⟨.of_fixed .sha256Init ⟨rfl, rfl⟩, .of_operand (.sha256Update ·.toNat) (count_of_arg _ _),
    .of_fixed .sha256Final ⟨rfl, rfl⟩, .of_fixed .sha224Init ⟨rfl, rfl⟩,
    .of_operand (.sha224Update ·.toNat) (count_of_arg _ _), .of_fixed .sha224Final ⟨rfl, rfl⟩,
    .of_operand .cbcInit fun _ => ⟨rfl, rfl⟩, .of_operand (.cbcEncrypt ·.toNat) (count_of_arg _ _),
    .of_operand (.cbcDecrypt ·.toNat) (count_of_arg _ _), .of_operand .ctrInit fun _ => ⟨rfl, rfl⟩,
    .of_operand (.ctrCipher ·.toNat) (count_of_arg _ _), .of_operand _ window_of_arg,
    .of_fixed .ctrDiscard ⟨rfl, rfl⟩, nofun⟩

/-! ## The illegal words -/

/-- A `UNIT` and `OP` that no row has (R53). -/
def ReservedOpcode (u o : BitVec 4) : Prop :=
  (u = 0 ∨ 4 ≤ u.toNat) ∨ (u = 1 ∧ 3 ≤ (o.extractLsb' 0 3).toNat) ∨ (u = 2 ∧ 3 ≤ o.toNat) ∨ (u = 3 ∧ 4 ≤ o.toNat)

/-- The `UNIT` and `OP` of a command without operand, whose `ARG` must be zero (R51). -/
def TakesNoOperand (u o : BitVec 4) : Prop :=
  (u = 1 ∧ (o = 0 ∨ o = 2 ∨ o = 8 ∨ o = 10)) ∨ (u = 3 ∧ o = 3)

/-- R53: why the fields of a word make it illegal. -/
def ReservedFields (u o : BitVec 4) (a : BitVec 24) : Prop := ReservedOpcode u o ∨ (a ≠ 0 ∧ TakesNoOperand u o)

theorem noOperand_of_ne_zero {a : BitVec 24} (ha : a ≠ 0) (i : Instr) : noOperand a i = .error .argNotZero := if_neg ha

theorem decode_reservedOpcode {u o : BitVec 4} (a : BitVec 24) (h : ReservedOpcode u o) :
    ∃ e, decode (commandWord u o a) = .error e := by
  obtain hu | ⟨rfl, ho⟩ | ⟨rfl, ho⟩ | ⟨rfl, ho⟩ := h
  · exact ⟨_, decode_reservedUnit (hu.imp_left (congrArg BitVec.toNat ·))⟩
  · exact ⟨_, decode_hash_reservedOp ho⟩
  · exact ⟨_, decode_cbc_reservedOp ho⟩
  · exact ⟨_, decode_ctr_reservedOp ho⟩

theorem decode_argNotZero {u o : BitVec 4} {a : BitVec 24} (ha : a ≠ 0) (h : TakesNoOperand u o) :
    ∃ e, decode (commandWord u o a) = .error e := by
  obtain ⟨rfl, rfl | rfl | rfl | rfl⟩ | ⟨rfl, rfl⟩ := h <;>
    exact ⟨.argNotZero, by simp only [decode_noOperand, noOperand_of_ne_zero ha]⟩

theorem decode_reservedFields {w : Word} (h : ReservedFields (unitField w) (opField w) (argField w)) :
    ∃ e, decode w = .error e := by
  rw [← commandWord_fields w]
  obtain h | ⟨ha, h⟩ := h
  · exact decode_reservedOpcode _ h
  · exact decode_argNotZero ha h

/-- Every `UNIT` and `OP` is reserved or stands in a row, and then in one with a full mask only where `ARG` must be zero. -/
theorem reservedOpcode_or_row : ∀ u o : BitVec 4, ReservedOpcode u o ∨
    ∃ r ∈ opcodeTable, u = unitField r.pattern ∧ o = opField r.pattern ∧
      (r.mask = 0xFFFFFFFF → TakesNoOperand u o) := by
  unfold ReservedOpcode TakesNoOperand
  decide

/-- Where no row selects the word, its opcode is reserved, or it is in a row and `ARG` should have been zero. -/
theorem reservedFields_of_no_row {w : Word} (h : ∀ r ∈ opcodeTable, r.selects w = false) :
    ReservedFields (unitField w) (opField w) (argField w) := by
  obtain hres | ⟨r, hr, hu, ho, hfixed⟩ := reservedOpcode_or_row (unitField w) (opField w)
  · exact .inl hres
  · have hsel : ¬ r.selects w = true := by simp [h r hr]
    rw [OpcodeRow.selects_iff hr] at hsel
    by_cases hm : r.mask = 0xFFFFFFFF
    · exact .inr ⟨fun ha => hsel ⟨hu, ho, fun _ => ha⟩, hfixed hm⟩
    · exact absurd ⟨hu, ho, fun h => absurd h hm⟩ hsel

/-! ## The statements -/

/-- Settles O3: a word that decodes selects a row, so it is an encoding, and decoding gives its command back. -/
theorem encodeOfDecodeIsTheWord : Obligations.EncodeOfDecodeIsTheWord := by
  intro w i hd
  by_cases hsel : ∃ r ∈ opcodeTable, r.selects w = true
  · obtain ⟨r, hr, hs⟩ := hsel
    obtain ⟨j, hj, rfl⟩ := isEncoding_of_selects r hr hs
    obtain rfl : j = i := Except.ok.inj ((decodeOfEncodeIsTheCommand j hj).symm.trans hd)
    exact ⟨hj, rfl⟩
  · have hno : ∀ r ∈ opcodeTable, r.selects w = false := by simpa using hsel
    obtain ⟨e, he⟩ := decode_reservedFields (reservedFields_of_no_row hno)
    exact absurd (he.symm.trans hd) nofun

/-- A word selects a row exactly when it decodes to a command of that row. -/
theorem selects_iff_decode {r : OpcodeRow} (hr : r ∈ opcodeTable) (w : Word) :
    r.selects w = true ↔ ∃ i, decode w = .ok i ∧ i.mnemonic = r.mnemonic := by
  constructor
  · intro hs
    obtain ⟨i, hi, rfl⟩ := isEncoding_of_selects r hr hs
    rw [encode_selects i r hr, decide_eq_true_eq] at hs
    exact ⟨i, decodeOfEncodeIsTheCommand i hi, hs.symm⟩
  · rintro ⟨i, hd, hm⟩
    obtain ⟨-, rfl⟩ := encodeOfDecodeIsTheWord w i hd
    rw [encode_selects i r hr, decide_eq_true_eq]
    exact hm.symm

/-- Settles O4: a word's row is the row of the command it decodes to, and no two rows share a name. -/
theorem opcodeRowsAreDisjointAndSelectTheCommand : Obligations.OpcodeRowsAreDisjointAndSelectTheCommand := by
  refine ⟨rfl, fun w r q hr hq hrw hqw => ?_, fun w r hr => selects_iff_decode hr w⟩
  have hname : ∀ r ∈ opcodeTable, ∀ q ∈ opcodeTable, r.mnemonic = q.mnemonic → r = q := by decide
  obtain ⟨i, hi, hir⟩ := (selects_iff_decode hr w).1 hrw
  obtain ⟨j, hj, hjq⟩ := (selects_iff_decode hq w).1 hqw
  obtain rfl : i = j := Except.ok.inj (hi.symm.trans hj)
  exact hname r hr q hq (hir.symm.trans hjq)

/-- A word has no command exactly when it selects no row. -/
theorem decode_error_iff_no_row (w : Word) : (∃ e, decode w = .error e) ↔ ∀ r ∈ opcodeTable, r.selects w = false := by
  refine ⟨fun ⟨e, he⟩ r hr => ?_, fun h => decode_reservedFields (reservedFields_of_no_row h)⟩
  refine Bool.eq_false_iff.2 fun hs => ?_
  obtain ⟨i, hi, -⟩ := (selects_iff_decode hr w).1 hs
  exact absurd (he.symm.trans hi) nofun

/-- A word has no command exactly when R53 lists its fields. -/
theorem decode_error_iff_reserved (w : Word) :
    (∃ e, decode w = .error e) ↔ ReservedFields (unitField w) (opField w) (argField w) :=
  ⟨fun h => reservedFields_of_no_row ((decode_error_iff_no_row w).1 h), decode_reservedFields⟩

/-- An illegal word raises `F_ILLEGAL` on a running CORE (60_exceptions.md R127). -/
theorem runCommand_illegal_running {w : Word} {s : Machine.State} (hs : s.halt = false)
    (h : ∃ e, decode w = .error e) : Machine.runCommand w s = .next (s.raiseFault .illegal) := by
  obtain ⟨e, he⟩ := h
  rw [Machine.runCommand, he]
  exact Machine.whenRunning_running hs _

/-- Settles O5: an illegal word selects no row, and its fields are those that no row has. -/
theorem reservedWordsAreIllegalAndFault : Obligations.ReservedWordsAreIllegalAndFault := by
  refine ⟨decode_error_iff_no_row, fun w => ?_, ⟨_, rfl⟩, ⟨_, rfl⟩, fun a => ?_,
    fun s w hs h => runCommand_illegal_running hs h⟩
  · simp only [decode_error_iff_reserved, ReservedFields, ReservedOpcode, TakesNoOperand, or_assoc]
  · obtain ⟨-, -, hcbcInit, -, -, hctrInit, -, hctrCustom⟩ := decode_operand a
    exact ⟨⟨_, hcbcInit⟩, ⟨_, hctrInit⟩, ⟨_, hctrCustom⟩⟩

/-- Settles O1: the kernel decodes the eight words. -/
theorem decodesTheSpecWords : Obligations.DecodesTheSpecWords := ⟨rfl, rfl, rfl, rfl, rfl, rfl, rfl, rfl⟩

end Sys2Proof
end

section
/-! SUPPORT. The hash family (41_sha256_224.md): what each command answers, said once for both variants, and what transcripts of
hash commands leave. -/

namespace Sys2Proof

/-- A command word is its `UNIT` and `OP` with `ARG` in the low bits (R46). -/
theorem commandWord_eq_or (u o : BitVec 4) (a : BitVec 24) : commandWord u o a = commandWord u o 0 ||| a.setWidth 32 := by
  refine BitVec.eq_of_getLsbD_eq fun i hi => ?_
  rw [BitVec.getLsbD_or, commandWord_getLsbD, commandWord_getLsbD, BitVec.getLsbD_setWidth]
  by_cases h : i < 24
  · simp [h, hi]
  · simp [h, BitVec.getLsbD_of_ge a i (by omega)]

end Sys2Proof

namespace Sys2Proof.Machine

/-! ## What the commands answer -/

/-- What INIT of a variant loads (R76, R77). -/
def HashCtx.initial (v : Variant) : HashCtx :=
  { h := (hashDescriptor v).iv, partialBuf := Vector.replicate 64 0, npartial := 0, blocks := 0 }

/-- The bytes FINAL of a variant delivers (R82, R83). -/
def hashDigest (v : Variant) (rule : PadRule) (c : HashCtx) : Bytes := (digestOf rule c).take (hashDescriptor v).hashsz

@[simp] theorem hashDigest_length (v : Variant) (rule : PadRule) (c : HashCtx) :
    (hashDigest v rule c).length = (hashDescriptor v).hashsz := by
  cases v <;> simp [hashDigest, hashDescriptor]

/-- The digest does not depend on stale bytes. -/
theorem hashDigest_same {c d : HashCtx} (h : c.Same d) (v : Variant) (rule : PadRule) :
    hashDigest v rule c = hashDigest v rule d := by
  rw [hashDigest, hashDigest, digestOf_same h]

/-- SHA256.FINAL cuts nothing off. -/
theorem hashDigest_sha256 (rule : PadRule) (c : HashCtx) : hashDigest .sha256 rule c = digestOf rule c :=
  List.take_of_length_le (digestOf_length rule c).le

/-- `s` with what an UPDATE or FINAL that completes writes: the context `c`, the drained `din`, the reply `b` and CC. -/
def State.hashReply (s : State) (c : HashCtx) (b : Bytes) : State :=
  { s with hash := c, din := [], dout := b, cc := 0 }

section Commands

variable {s : State} (v : Variant)

theorem exec_hashInit (hh : s.halt = false) :
    exec (hashDescriptor v).init { s with din := [] } =
      .next ({ s with hashValid := true }.hashReply (HashCtx.initial v) []) := by
  cases v <;> exact exec_of_completes hh ⟨rfl, rfl⟩

theorem exec_hashUpdate (hh : s.halt = false) (hv : s.hashValid = true) {x : Bytes} {c : HashCtx}
    (hc : hashFeed x s.hash = some c) :
    exec ((hashDescriptor v).update x.length) { s with din := x } = .next (s.hashReply c []) := by
  cases v <;> exact exec_of_completes hh ⟨hv, rfl, c, hc, rfl⟩

theorem exec_hashFinal (hh : s.halt = false) (hv : s.hashValid = true) (hn : s.hash.npartial.toNat < 64) :
    exec (hashDescriptor v).final { s with din := [] } =
      .next (s.hashReply s.hash (hashDigest v s.cfg.padRule s.hash)) := by
  cases v with
  | sha256 => exact exec_of_completes hh ⟨hv, rfl, hn, by rw [hashDigest_sha256]; rfl⟩
  | sha224 => exact exec_of_completes hh ⟨hv, rfl, hn, rfl⟩

/-- UPDATE raises F_ACC on a VALID context whose count is not below 64 (R61). -/
theorem hashUpdate_acc (n : Nat) (hh : s.halt = false) (hv : s.hashValid = true) (hn : 64 ≤ s.hash.npartial.toNat) :
    hashUpdate n s = .next (s.raiseFault .acc) := by
  rw [hashUpdate, whenRunning_running hh, whenValid_of_valid (by exact hv)]
  simp only [hashFeed_eq_none hn, raiseFault_clear_dout]

/-- So does FINAL. -/
theorem hashFinal_acc (hh : s.halt = false) (hv : s.hashValid = true) (hn : 64 ≤ s.hash.npartial.toNat) :
    hashFinal v s = .next (s.raiseFault .acc) := by
  rw [hashFinal, whenRunning_running hh, whenValid_of_valid (by exact hv)]
  simp only [hashFinalCore_acc hn, raiseFault_clear_dout]

end Commands

/-! ## One command at a time -/

/-- Settles O14: INIT completes whatever the context held. -/
theorem hashInitLoadsTheInitialVector : Obligations.HashInitLoadsTheInitialVector := by
  refine ⟨fun s hh hd => ⟨exec_of_completes hh ⟨hd, rfl⟩, exec_of_completes hh ⟨hd, rfl⟩⟩, rfl, rfl,
    fun a s hh ha => ?_⟩
  exact ⟨runCommand_illegal_running hh (decode_argNotZero ha (.inl ⟨rfl, .inl rfl⟩)),
    runCommand_illegal_running hh (decode_argNotZero ha (.inl ⟨rfl, .inr (.inr (.inl rfl))⟩))⟩

/-- Settles O15, from what feeding does to a hash context. -/
theorem hashUpdateCompressesTheWholeBlocks : Obligations.HashUpdateCompressesTheWholeBlocks := by
  intro n up hup
  have hexec : ∀ s, exec (up n) s = hashUpdate n s := by rcases hup with rfl | rfl <;> exact fun s => rfl
  simp only [hexec]
  refine ⟨fun s hh hv hn hl => ?_, fun s hh hv => exec_uninit (i := .sha256Update n) hh rfl hv,
    fun s hh hv hn => hashUpdate_acc n hh hv hn, commandWord_eq_or 1 1 _, commandWord_eq_or 1 9 _⟩
  obtain ⟨c, hc, hfed⟩ := hashFeed_fed hn s.din
  refine ⟨c, ?_, hfed.h, hfed.blocks, hl ▸ hfed.npartial, hfed.buffered, fun h0 => ?_⟩
  · exact exec_of_completes (i := .sha256Update n) hh ⟨hv, hl, c, hc, rfl⟩
  · rw [List.eq_nil_of_length_eq_zero (hl.trans h0), hashFeed_nil hn] at hc
    exact (Option.some.inj hc).symm

/-- Settles O16: FINAL computes on a copy, so a context fit for it stays as it is. -/
theorem hashFinalReturnsTheDigestOfAPaddedCopy : Obligations.HashFinalReturnsTheDigestOfAPaddedCopy := by
  refine ⟨fun s hh hv hn hd => ?_, fun s hh hv => ?_, fun s hh hv hn => ?_, rfl, rfl, fun a s hh ha => ?_⟩
  · exact ⟨exec_of_completes hh ⟨hv, hd, hn, rfl⟩, exec_of_completes hh ⟨hv, hd, hn, rfl⟩, digestOf_length _ _⟩
  · exact ⟨exec_uninit hh rfl hv, exec_uninit hh rfl hv⟩
  · exact ⟨hashFinal_acc .sha256 hh hv hn, hashFinal_acc .sha224 hh hv hn⟩
  · exact ⟨runCommand_illegal_running hh (decode_argNotZero ha (.inl ⟨rfl, .inr (.inl rfl)⟩)),
      runCommand_illegal_running hh (decode_argNotZero ha (.inl ⟨rfl, .inr (.inr (.inr rfl))⟩))⟩

/-- The digest is the first seven state words followed by the eighth. -/
theorem digestBytes_eq (h : Vector Word 8) : digestBytes h =
    (be32 h[0] ++ be32 h[1] ++ be32 h[2] ++ be32 h[3] ++ be32 h[4] ++ be32 h[5] ++ be32 h[6]) ++ be32 h[7] := by
  have hlist : h.toList = [h[0], h[1], h[2], h[3], h[4], h[5], h[6], h[7]] :=
    List.ext_getElem (by simp) fun i h1 h2 => by
      simp only [List.length_cons, List.length_nil] at h2
      interval_cases i <;> rfl
  rw [digestBytes, hlist]
  simp only [List.flatMap_cons, List.flatMap_nil, List.append_nil, List.append_assoc]

/-- The 28 bytes of SHA-224 are the first seven state words (R83). -/
theorem digestBytes_take (h : Vector Word 8) : (digestBytes h).take 28 =
    be32 h[0] ++ be32 h[1] ++ be32 h[2] ++ be32 h[3] ++ be32 h[4] ++ be32 h[5] ++ be32 h[6] := by
  rw [digestBytes_eq]
  exact List.take_left' (by simp only [List.length_append, be32_length])

/-- Settles O21: both FINALs cut the digest of the same computation. -/
theorem variantsShareOneContext : Obligations.VariantsShareOneContext := by
  refine ⟨fun n s => rfl, fun s hh hv hn hd => ?_⟩
  refine ⟨(blocksOf 64 (s.hash.buffered ++ paddingOf s.cfg.padRule (digestedBytes s.hash))).foldl compress s.hash.h, _, _,
    exec_of_completes hh ⟨hv, hd, hn, rfl⟩, exec_of_completes hh ⟨hv, hd, hn, rfl⟩, rfl, digestBytes_take _, ?_, rfl⟩
  simp only [digestOf, digestBytes_take]
  exact digestBytes_eq _

/-! ## Padding -/

theorem padZeroes_literal (n : Nat) : padZeroes .literal n = 64 - (n + 9) % 64 := rfl

theorem padZeroes_minimal (n : Nat) : padZeroes .minimal n = (64 - (n + 9) % 64) % 64 := rfl

/-- Settles O17: arithmetic modulo 64. -/
theorem paddingMakesWholeBlocks : Obligations.PaddingMakesWholeBlocks := by
  intro n
  refine ⟨fun rule => ?_, ?_⟩
  · have := padZeroes_completes rule n
    omega
  · rw [padZeroes_literal, padZeroes_minimal]
    refine ⟨by omega, by omega, by omega, by omega, by omega, ?_, ?_⟩ <;> split <;> omega

/-- Settles O18: the kernel computes the two compressions. -/
theorem compressGivesTheWorkedExample : Obligations.CompressGivesTheWorkedExample := by
  unfold Obligations.CompressGivesTheWorkedExample
  decide +kernel

/-! ## Transcripts -/

/-- One command that has a next state. -/
theorem transcript_one {i : Instr} {x : Bytes} {s t : State} (h : exec i { s with din := x } = .next t) :
    transcript [(i, x)] s = some ([(t.dout, t.cc)], t) := by
  rw [transcript_cons h]
  rfl

/-- A transcript may be cut anywhere. -/
theorem transcript_append {xs ys : List (Instr × Bytes)} {s t u : State} {r q : List Reply}
    (hx : transcript xs s = some (r, t)) (hy : transcript ys t = some (q, u)) :
    transcript (xs ++ ys) s = some (r ++ q, u) := by
  induction xs generalizing s r with
  | nil => cases hx; exact hy
  | cons c xs ih =>
    obtain ⟨i, x⟩ := c
    cases he : exec i { s with din := x } with
    | next s' =>
      rw [transcript_cons he, Option.map_eq_some_iff] at hx
      obtain ⟨⟨r', t'⟩, hrest, heq⟩ := hx
      obtain ⟨rfl, rfl⟩ := Prod.mk.inj heq
      rw [List.cons_append, transcript_cons he, ih hrest]
      rfl
    | fault f => simp only [transcript, he] at hx; cases hx
    | refused f => simp only [transcript, he] at hx; cases hx

section Transcripts

variable {s : State} (v : Variant)

theorem transcript_hashFinal (hh : s.halt = false) (hv : s.hashValid = true) (hn : s.hash.npartial.toNat < 64) :
    transcript [((hashDescriptor v).final, [])] s =
      some ([(hashDigest v s.cfg.padRule s.hash, 0)], s.hashReply s.hash (hashDigest v s.cfg.padRule s.hash)) :=
  transcript_one (exec_hashFinal v hh hv hn)

theorem transcript_update_final (hh : s.halt = false) (hv : s.hashValid = true) {x : Bytes} {c : HashCtx}
    (hc : hashFeed x s.hash = some c) :
    transcript [((hashDescriptor v).update x.length, x), ((hashDescriptor v).final, [])] s =
      some ([([], 0), (hashDigest v s.cfg.padRule c, 0)], s.hashReply c (hashDigest v s.cfg.padRule c)) :=
  transcript_append (transcript_one (exec_hashUpdate v hh hv hc))
    (transcript_hashFinal (s := s.hashReply c []) v hh hv (hashFeed_eq_some hc).lt)

theorem transcript_init_update_final (hh : s.halt = false) {x : Bytes} {c : HashCtx}
    (hc : hashFeed x (HashCtx.initial v) = some c) :
    transcript [((hashDescriptor v).init, []), ((hashDescriptor v).update x.length, x), ((hashDescriptor v).final, [])] s =
      some ([([], 0), ([], 0), (hashDigest v s.cfg.padRule c, 0)],
        { s with hashValid := true }.hashReply c (hashDigest v s.cfg.padRule c)) :=
  transcript_append (transcript_one (exec_hashInit v hh))
    (transcript_update_final (s := { s with hashValid := true }.hashReply (HashCtx.initial v) []) v hh rfl hc)

end Transcripts

/-- UPDATEs in sequence feed the joined chunks (R64); only the hash context, the ports and CC change. -/
theorem transcript_hashUpdates (chunks : List (Variant × Bytes)) {s : State} (hh : s.halt = false)
    (hv : s.hashValid = true) (hn : s.hash.npartial.toNat < 64) :
    ∃ (replies : List Reply) (t : State),
      transcript (chunks.map fun c => ((hashDescriptor c.1).update c.2.length, c.2)) s = some (replies, t) ∧
      HashFed s.hash (chunks.map Prod.snd).flatten t.hash ∧ (∀ r ∈ replies, r = ([], 0)) ∧
      t = { s with hash := t.hash, din := t.din, dout := t.dout, cc := t.cc } := by
  induction chunks generalizing s with
  | nil => exact ⟨[], s, rfl, hashFeed_eq_some (hashFeed_nil hn), nofun, rfl⟩
  | cons chunk chunks ih =>
    obtain ⟨v, x⟩ := chunk
    obtain ⟨c, hc, hfed⟩ := hashFeed_fed hn x
    obtain ⟨replies, t, htr, hrest, hreplies, ht⟩ := ih (s := s.hashReply c []) hh hv hfed.lt
    exact ⟨([], 0) :: replies, t, transcript_append (transcript_one (exec_hashUpdate v hh hv hc)) htr,
      hfed.append hrest, List.forall_mem_cons.2 ⟨rfl, hreplies⟩, ht⟩

/-- Settles O19: both runs feed the same bytes to the same context, which determines what they leave but for stale bytes. -/
theorem chunkingOfUpdatesDoesNotChangeTheContext : Obligations.ChunkingOfUpdatesDoesNotChangeTheContext := by
  intro s chunks hh hv hn
  obtain ⟨replies, t, htr, hfed, hreplies, ht⟩ := transcript_hashUpdates chunks hh hv hn
  obtain ⟨c, hc, hfed'⟩ := hashFeed_fed hn (chunks.map Prod.snd).flatten
  have hsame : t.hash.Same c := hfed.unique (HashCtx.Same.refl _) hfed'
  have hhalt : t.halt = false := by rw [ht]; exact hh
  have hvalid : t.hashValid = true := by rw [ht]; exact hv
  have hcfg : t.cfg = s.cfg := by rw [ht]
  refine ⟨replies, t, s.hashReply c [], htr, exec_hashUpdate .sha256 hh hv hc, hsame, fun v => ?_, hreplies, ht⟩
  have hfinal := transcript_hashFinal v hhalt hvalid hfed.lt
  rw [hcfg, hashDigest_same hsame] at hfinal
  exact ⟨_, _, _, hfinal, transcript_hashFinal (s := s.hashReply c []) v hh hv hfed'.lt⟩

/-- Settles O20: FINAL leaves the context as it is, and feeding `a` and then `b` is feeding `a ++ b` (R64). -/
theorem finalLeavesTheMessageExtendable : Obligations.FinalLeavesTheMessageExtendable := by
  intro s v a b hh
  have hinit : (HashCtx.initial v).npartial.toNat < 64 := Nat.zero_lt_succ 63
  obtain ⟨c, hc, hfa⟩ := hashFeed_fed hinit a
  obtain ⟨d, hd, hfb⟩ := hashFeed_fed hfa.lt b
  obtain ⟨e, he, hfab⟩ := hashFeed_fed hinit (a ++ b)
  have hsame : e.Same d := hfab.unique (HashCtx.Same.refl _) (hfa.append hfb)
  have hfirst := transcript_init_update_final v hh hc
  have hwhole := transcript_init_update_final v hh he
  rw [hashDigest_same hsame] at hwhole
  have hsecond := transcript_update_final v
    (s := { s with hashValid := true }.hashReply c (hashDigest v s.cfg.padRule c)) hh rfl hd
  exact ⟨_, _, _, _, _, transcript_append hfirst hsecond, hfirst, hwhole, hashDigest_length _ _ _, hashDigest_length _ _ _⟩

end Sys2Proof.Machine
end

section
/-! SUPPORT. The CBC family (42_cbc.md): what ENCRYPT and DECRYPT answer, said once for both kinds, and the requests each
command makes. -/

namespace Sys2Proof.Machine

/-! ## Xor -/

/-- Two byte strings that give the same under one mask are the same. -/
theorem xorBytes_right_cancel {a b m : Bytes} (ha : a.length ≤ m.length) (hb : b.length ≤ m.length)
    (h : xorBytes a m = xorBytes b m) : a = b := by
  rw [← xorBytes_self_cancel a m ha, h, xorBytes_self_cancel b m hb]

/-- Where two masks are as long as the bytes they hide, the hidden bytes differ exactly where the masks do. -/
theorem xorBytes_getD_ne_iff {a m m' : Bytes} {k : Nat} (ha : k < a.length) (hm : k < m.length) (hm' : k < m'.length) :
    (xorBytes a m).getD k 0 ≠ (xorBytes a m').getD k 0 ↔ m.getD k 0 ≠ m'.getD k 0 := by
  rw [xorBytes_getD _ _ _ ha hm, xorBytes_getD _ _ _ ha hm']
  exact not_congr (BitVec.xor_right_inj _)

/-! ## The two kinds of command -/

/-- The command that makes requests of one direction (R92, R93). -/
def cbcCommand : Dir → Nat → Instr
  | .enc => .cbcEncrypt
  | .dec => .cbcDecrypt

/-- The ciphertext blocks `C_i` of a command on the input `x`: what ENCRYPT makes, what DECRYPT is given. -/
def cbcCipher (p : Prp) (first x : Bytes) : Dir → Nat → Bytes
  | .enc => cbcCipherBlock p first (blockAt p.pb x)
  | .dec => blockAt p.pb x

/-- The block a command sends to the PRP for the input block `b` when the chain is `c`. -/
def cbcQuery (b c : Bytes) : Dir → Bytes
  | .enc => xorBytes b c
  | .dec => b

/-- The block a command delivers for the input block `b` when the chain is `c`. -/
def cbcOutput (p : Prp) (b c : Bytes) : Dir → Bytes
  | .enc => prpAnswer p .enc (xorBytes b c)
  | .dec => xorBytes (prpAnswer p .dec b) c

/-- The chain before block `i` (R92, R93). -/
def cbcChain (p : Prp) (d : Dir) (first x : Bytes) (i : Nat) : Bytes := chainBefore first (cbcCipher p first x d) i

/-- What a command on `n` blocks `x` delivers. -/
def cbcDout (p : Prp) (d : Dir) (first x : Bytes) (n : Nat) : Bytes :=
  joinBlocks n fun i => cbcOutput p (blockAt p.pb x i) (cbcChain p d first x i) d

/-- The requests it makes to the handle `h` (R95). -/
def cbcRequests (h : Handle) (p : Prp) (d : Dir) (first x : Bytes) (n : Nat) : List PrpRequest :=
  (List.range n).map fun i => ⟨h, d, cbcQuery (blockAt p.pb x i) (cbcChain p d first x i) d⟩

/-- The state it leaves. -/
def State.cbcReply (s : State) (p : Prp) (d : Dir) (x : Bytes) (n : Nat) : State :=
  { s with
    cbc := { s.cbc with chain := cbcChain p d s.cbc.chain x n }
    din := [], dout := cbcDout p d s.cbc.chain x n, cc := 0
    prpTrace := s.prpTrace ++ cbcRequests s.cbc.prp p d s.cbc.chain x n }

/-- ENCRYPT delivers its ciphertext blocks. -/
theorem cbcDout_enc (p : Prp) (first x : Bytes) (n : Nat) :
    cbcDout p .enc first x n = joinBlocks n (cbcCipherBlock p first (blockAt p.pb x)) :=
  joinBlocks_congr fun i _ => chainBefore_cipher p first (blockAt p.pb x) i

/-- A command of either kind that completes leaves `State.cbcReply`. -/
theorem Completes.cbc_reply {d : Dir} {n : Nat} {s t : State} (h : Completes s t (cbcCommand d n)) :
    ∃ p, lookupPrp s.cfg s.cbc.prp = some p ∧ t = s.cbcReply p d s.din n := by
  cases d with
  | enc =>
    obtain ⟨-, p, hp, hl, rfl⟩ := h
    refine ⟨p, hp, ?_⟩
    rw [repeatBlocks_encrypt, List.drop_eq_nil_of_le hl.le, State.cbcReply, cbcDout_enc]
    rfl
  | dec =>
    obtain ⟨-, p, hp, hl, rfl⟩ := h
    refine ⟨p, hp, ?_⟩
    rw [repeatBlocks_decrypt, List.drop_eq_nil_of_le hl.le]
    rfl

/-- On a VALID context with whole blocks a command of either kind completes. -/
theorem exec_cbcCommand {d : Dir} {n : Nat} {p : Prp} {s : State} {x : Bytes} (hh : s.halt = false)
    (hv : s.cbcValid = true) (hp : lookupPrp s.cfg s.cbc.prp = some p) (hl : x.length = n * p.pb) :
    exec (cbcCommand d n) { s with din := x } = .next (s.cbcReply p d x n) := by
  have hdone : ∃ t, Completes { s with din := x } t (cbcCommand d n) := by
    cases d <;> exact ⟨_, hv, p, hp, hl, rfl⟩
  obtain ⟨t, ht⟩ := hdone
  obtain ⟨q, hq, rfl⟩ := ht.cbc_reply
  obtain rfl : p = q := Option.some.inj (hp.symm.trans hq)
  exact exec_of_completes hh ht

/-! ## One command at a time -/

/-- INIT raises F_PRP for a handle that cannot be bound, whatever `din` is (R91). -/
theorem execCbcInit_prp {h : Handle} {s : State} (hh : s.halt = false) (hp : bindablePrp s.cfg h = none) :
    execCbcInit h s = .next (s.raiseFault .prp) := by
  rw [execCbcInit, whenRunning_running hh, whenBindable_none (by exact hp), raiseFault_clear_dout]

/-- Settles O23: the check of the handle comes before anything is written. -/
theorem cbcInitBindsThePrpAndLoadsTheIv : Obligations.CbcInitBindsThePrpAndLoadsTheIv := by
  refine ⟨fun h p s hh hp hl => exec_of_completes hh ⟨p, hp, hl, rfl⟩, fun h s hh hp => ?_, commandWord_eq_or 2 0⟩
  exact execCbcInit_prp hh (bindablePrp_eq_none.2 hp)

/-- Settles O24: the closed form of `exec_cbcCommand`, with the delivered blocks named `C_i`. -/
theorem cbcEncryptChainsTheBlocks : Obligations.CbcEncryptChainsTheBlocks := by
  refine ⟨fun n p s hh hv hp hl => ?_, fun n s hh hv => exec_uninit hh rfl hv, fun n => commandWord_eq_or 2 1 _⟩
  have hexec := exec_cbcCommand (d := .enc) hh hv hp hl
  rw [State.cbcReply, cbcDout_enc] at hexec
  exact hexec

/-- Settles O25: the closed form of `exec_cbcCommand`. -/
theorem cbcDecryptUnchainsTheBlocks : Obligations.CbcDecryptUnchainsTheBlocks :=
  ⟨fun _ _ _ hh hv hp hl => exec_cbcCommand (d := .dec) hh hv hp hl, fun _ _ hh hv => exec_uninit hh rfl hv,
    fun _ => commandWord_eq_or 2 2 _⟩

/-! ## Splitting a command -/

section Split

variable {p : Prp} {d : Dir} {first x y : Bytes} {a b i : Nat} (hx : x.length = a * p.pb)
include hx

theorem cbcCipher_append_left (hi : i < a) : cbcCipher p first (x ++ y) d i = cbcCipher p first x d i := by
  cases d with
  | enc => exact cbcCipherBlock_congr p first i fun j hj => blockAt_append_left hx (hj.trans_lt hi)
  | dec => exact blockAt_append_left hx hi

theorem cbcChain_append_left (hi : i ≤ a) : cbcChain p d first (x ++ y) i = cbcChain p d first x i :=
  chainBefore_congr first i fun _ hj => cbcCipher_append_left hx (hj.trans_le hi)

/-- Past `x` the ciphertext goes on from the chain that `x` left. -/
theorem cbcCipher_append_right (i : Nat) :
    cbcCipher p first (x ++ y) d (a + i) = cbcCipher p (cbcChain p d first x a) y d i := by
  cases d with
  | enc =>
    have hchain : chainBefore first (cbcCipherBlock p first (blockAt p.pb (x ++ y))) a = cbcChain p .enc first x a :=
      cbcChain_append_left (d := .enc) hx le_rfl
    rw [cbcCipher, cbcCipherBlock_add, hchain]
    exact cbcCipherBlock_congr p _ i fun _ _ => blockAt_append_right hx
  | dec => exact blockAt_append_right hx

theorem cbcChain_append_right (i : Nat) :
    cbcChain p d first (x ++ y) (a + i) = cbcChain p d (cbcChain p d first x a) y i := by
  rw [cbcChain, chainBefore_add, ← cbcChain, cbcChain_append_left hx le_rfl]
  exact chainBefore_congr _ i fun j _ => cbcCipher_append_right hx j

theorem cbcDout_append : cbcDout p d first (x ++ y) (a + b) =
    cbcDout p d first x a ++ cbcDout p d (cbcChain p d first x a) y b := by
  rw [cbcDout, joinBlocks_add]
  congr 1
  · exact joinBlocks_congr fun i hi => by rw [blockAt_append_left hx hi, cbcChain_append_left hx hi.le]
  · exact joinBlocks_congr fun i _ => by rw [blockAt_append_right hx, cbcChain_append_right hx]

theorem cbcRequests_append (h : Handle) : cbcRequests h p d first (x ++ y) (a + b) =
    cbcRequests h p d first x a ++ cbcRequests h p d (cbcChain p d first x a) y b := by
  rw [cbcRequests, List.range_add, List.map_append, List.map_map]
  congr 1
  · refine List.map_congr_left fun i hi => ?_
    have hi := List.mem_range.1 hi
    rw [blockAt_append_left hx hi, cbcChain_append_left hx hi.le]
  · refine List.map_congr_left fun i _ => ?_
    rw [Function.comp_apply, blockAt_append_right hx, cbcChain_append_right hx]

/-- One command on the joined input leaves what two commands leave, and delivers what they deliver together. -/
theorem State.cbcReply_append (s : State) : s.cbcReply p d (x ++ y) (a + b) =
    { (s.cbcReply p d x a).cbcReply p d y b with
      dout := (s.cbcReply p d x a).dout ++ ((s.cbcReply p d x a).cbcReply p d y b).dout } := by
  simp only [State.cbcReply, cbcChain_append_right hx, cbcDout_append hx, cbcRequests_append hx, List.append_assoc]

end Split

theorem eq_cbcCommand {c : Nat → Instr} (h : c = Instr.cbcEncrypt ∨ c = Instr.cbcDecrypt) :
    ∃ d, c = cbcCommand d := by
  obtain rfl | rfl := h
  · exact ⟨.enc, rfl⟩
  · exact ⟨.dec, rfl⟩

/-- Settles O26: both kinds go on from the chain alone. -/
theorem cbcCommandsMayBeSplit : Obligations.CbcCommandsMayBeSplit := by
  intro s p a b x y first second hfirst hsecond hh hv hp hx hy
  obtain ⟨d, rfl⟩ := eq_cbcCommand hfirst
  obtain ⟨e, rfl⟩ := eq_cbcCommand hsecond
  have hone := transcript_one (exec_cbcCommand (d := d) hh hv hp hx)
  have hnext : ∀ k, exec (cbcCommand k b) { s.cbcReply p d x a with din := y } =
      .next ((s.cbcReply p d x a).cbcReply p k y b) := fun k => exec_cbcCommand hh hv hp hy
  have hjoined : exec (cbcCommand d (a + b)) { s with din := x ++ y } = .next (s.cbcReply p d (x ++ y) (a + b)) :=
    exec_cbcCommand hh hv hp (by rw [List.length_append, hx, hy, Nat.add_mul])
  rw [State.cbcReply_append hx] at hjoined
  refine ⟨⟨_, _, _, _, transcript_append hone (transcript_one (hnext d)), hjoined, rfl, rfl, rfl, rfl⟩, ?_⟩
  exact ⟨_, _, _, _, _, hone, transcript_one (hnext e),
    exec_cbcCommand (s := { s with cbc := (s.cbcReply p d x a).cbc }) hh hv hp hy, rfl, rfl⟩

/-! ## Decrypting -/

/-- What a DECRYPT delivers for block `i`. -/
theorem blockAt_cbcDout_dec {p : Prp} {first x : Bytes} {n i : Nat} (hf : first.length = p.pb) (hx : x.length = n * p.pb)
    (hi : i < n) : blockAt p.pb (cbcDout p .dec first x n) i =
      xorBytes (prpAnswer p .dec (blockAt p.pb x i)) (chainBefore first (blockAt p.pb x) i) := by
  refine blockAt_joinBlocks (fun j hj => ?_) hi
  have hchain := chainBefore_length (n := j) hf fun k hk => blockAt_length hx (hk.trans hj)
  rw [cbcOutput, xorBytes_length, prpAnswer_length, cbcChain, cbcCipher, hchain, Nat.min_self]

/-- Decrypting what was encrypted from the same chain gives the plaintext back. -/
theorem cbcDout_dec_enc {p : Prp} {first plain : Bytes} {n : Nat} (hf : first.length = p.pb)
    (hl : plain.length = n * p.pb)
    (hinv : ∀ x : Bytes, x.length = p.pb → prpAnswer p .dec (prpAnswer p .enc x) = x) :
    cbcDout p .dec first (cbcDout p .enc first plain n) n = plain := by
  have hblock : ∀ i, i < n → blockAt p.pb (cbcDout p .enc first plain n) i =
      cbcCipherBlock p first (blockAt p.pb plain) i := fun i hi => by
    rw [cbcDout_enc, blockAt_joinBlocks (fun j _ => cbcCipherBlock_length p _ _ j) hi]
  calc cbcDout p .dec first (cbcDout p .enc first plain n) n
    _ = joinBlocks n (blockAt p.pb plain) := joinBlocks_congr fun i hi => ?_
    _ = plain := joinBlocks_blockAt hl
  have hchain : cbcChain p .dec first (cbcDout p .enc first plain n) i =
      chainBefore first (cbcCipherBlock p first (blockAt p.pb plain)) i :=
    chainBefore_congr first i fun j hj => hblock j (hj.trans hi)
  have hclen := chainBefore_length (n := i) hf fun j _ => cbcCipherBlock_length p first (blockAt p.pb plain) j
  have hplen := blockAt_length hl hi
  have hquery := xorBytes_length (blockAt p.pb plain i) (chainBefore first (cbcCipherBlock p first (blockAt p.pb plain)) i)
  rw [hplen, hclen, Nat.min_self] at hquery
  rw [cbcOutput, hchain, hblock i hi, ← chainBefore_cipher, hinv _ hquery,
    xorBytes_self_cancel _ _ (hplen.trans hclen.symm).le]

/-- The state INIT leaves (R91). -/
def State.cbcBound (s : State) (h : Handle) (iv : Bytes) : State :=
  { s with cbc := { prp := h, chain := iv }, cbcValid := true, din := [], dout := [], cc := 0 }

/-- INIT with an IV and one command of either kind. -/
theorem transcript_cbcInit {d : Dir} {h : Handle} {n : Nat} {p : Prp} {s : State} {iv x : Bytes} (hh : s.halt = false)
    (hp : bindablePrp s.cfg h = some p) (hiv : iv.length = p.pb) (hx : x.length = n * p.pb) :
    transcript [(.cbcInit h, iv), (cbcCommand d n, x)] s =
      some ([([], 0), (cbcDout p d iv x n, 0)], (s.cbcBound h iv).cbcReply p d x n) := by
  have hinit : exec (.cbcInit h) { s with din := iv } = .next (s.cbcBound h iv) :=
    exec_of_completes hh ⟨p, hp, hiv, rfl⟩
  have hcommand : exec (cbcCommand d n) { s.cbcBound h iv with din := x } = .next ((s.cbcBound h iv).cbcReply p d x n) :=
    exec_cbcCommand hh rfl (bindablePrp_eq_some.1 hp).1 hx
  exact transcript_append (transcript_one hinit) (transcript_one hcommand)

/-- Settles O27: both transcripts in closed form, then block by block. -/
theorem cbcDecryptUndoesEncrypt : Obligations.CbcDecryptUndoesEncrypt := by
  intro s s' h p n iv plain hh hh' hp hcfg hinv hiv hl
  have hlen : (cbcDout p .enc iv plain n).length = n * p.pb := by
    rw [cbcDout_enc, joinBlocks_length fun i _ => cbcCipherBlock_length p _ _ i]
  have hback := transcript_cbcInit (d := .dec) hh' (hcfg ▸ hp) hiv hlen
  rw [cbcDout_dec_enc hiv hl hinv] at hback
  refine ⟨_, _, _, hlen, ?_, ?_, transcript_cbcInit (d := .enc) hh hp hiv hl, hback⟩
  · exact hh
  · rfl

/-- Settles O28: block `i` of the plaintext depends on the ciphertext blocks `i` and `i - 1` only. -/
theorem cbcErrorPropagatesToTwoBlocks : Obligations.CbcErrorPropagatesToTwoBlocks := by
  intro s p n j x y hh hv hp hf hinj hx hy hj hsame hdiff
  have hchain : ∀ i, i < n → i ≠ j + 1 →
      chainBefore s.cbc.chain (blockAt p.pb x) i = chainBefore s.cbc.chain (blockAt p.pb y) i := fun i hi hne => by
    cases i with
    | zero => rfl
    | succ i => exact hsame i (by omega) (by omega)
  have hclen := chainBefore_length (n := j) hf fun i hi => blockAt_length hx (hi.trans hj)
  have hxj := blockAt_length hx hj
  have hyj := blockAt_length hy hj
  refine ⟨_, _, exec_cbcCommand (d := .dec) hh hv hp hx, exec_cbcCommand (d := .dec) hh hv hp hy, ?_⟩
  simp only [State.cbcReply]
  refine ⟨fun i hi hij hij' => ?_, fun heq => hdiff ?_, ?_, fun hj' => ?_, fun hlast => ?_⟩
  · rw [blockAt_cbcDout_dec hf hx hi, blockAt_cbcDout_dec hf hy hi, hsame i hi hij, hchain i hi hij']
  · rw [blockAt_cbcDout_dec hf hx hj, blockAt_cbcDout_dec hf hy hj, ← hchain j hj (by omega)] at heq
    exact hinj _ _ hxj hyj (xorBytes_right_cancel (by simp [hclen]) (by simp [hclen]) heq)
  · rw [blockAt_cbcDout_dec hf hy hj, hchain j hj (by omega)]
  · rw [blockAt_cbcDout_dec hf hx hj', blockAt_cbcDout_dec hf hy hj', hsame (j + 1) hj' (by omega)]
    simp only [chainBefore]
    refine ⟨by rw [xorBytes_self_cancel _ _ (by simp [hxj])], fun k hk => ?_⟩
    exact xorBytes_getD_ne_iff (by simpa using hk) (hk.trans_eq hxj.symm) (hk.trans_eq hyj.symm)
  · rw [← hlast]; rfl

/-! ## The requests of every command -/

/-- Only ENCRYPT, DECRYPT and CIPHER make requests (R95, R100, R109). -/
theorem Completes.prpTrace_same {i : Instr} {s t : State} (h : Completes s t i) (he : ∀ n, i ≠ .cbcEncrypt n)
    (hd : ∀ n, i ≠ .cbcDecrypt n) (hc : ∀ n, i ≠ .ctrCipher n) : t.prpTrace = s.prpTrace := by
  cases i with
  | sha256Init | sha256Update _ | sha256Final | sha224Init | sha224Update _ | sha224Final =>
    obtain ⟨c, b, rfl⟩ := h.hash_frame rfl; rfl
  | cbcInit _ | ctrInit _ => obtain ⟨p, -, -, rfl⟩ := h; rfl
  | ctrCustom _ _ => obtain ⟨-, -, p, -, -, rfl⟩ := h; rfl
  | ctrDiscard => obtain ⟨-, -, rfl⟩ := h; rfl
  | cbcEncrypt n => exact absurd rfl (he n)
  | cbcDecrypt n => exact absurd rfl (hd n)
  | ctrCipher n => exact absurd rfl (hc n)

/-- The requests of a CBC command: one for each block, to one handle, in one direction. -/
theorem cbcRequests_spec (h : Handle) (p : Prp) (d : Dir) (first x : Bytes) (n : Nat) :
    (cbcRequests h p d first x n).length = n ∧ ∀ q ∈ cbcRequests h p d first x n, q.handle = h ∧ q.dir = d := by
  simp [cbcRequests]

/-- Settles O39: a halted CORE and a fault do not answer `OK`, so the command completes. -/
theorem prpRequestsOfEachCommand : Obligations.PrpRequestsOfEachCommand := by
  intro i s t p input hs hh h hcc
  obtain ⟨hhalt, -⟩ | ⟨-, f, -, rfl⟩ | ⟨-, hc⟩ := exec_cases h
  · exact absurd (hhalt.symm.trans hh) nofun
  · exact absurd hcc f.code_ne_zero
  cases i with
  | cbcEncrypt n =>
    obtain ⟨q, -, rfl⟩ := Completes.cbc_reply (d := .enc) hc
    refine ⟨_, rfl, ?_, nofun, nofun, fun hne => absurd rfl (hne n)⟩
    rintro _ ⟨⟩
    exact cbcRequests_spec _ _ _ _ _ _
  | cbcDecrypt n =>
    obtain ⟨q, -, rfl⟩ := Completes.cbc_reply (d := .dec) hc
    refine ⟨_, rfl, nofun, ?_, nofun, fun _ hne => absurd rfl (hne n)⟩
    rintro _ ⟨⟩
    exact cbcRequests_spec _ _ _ _ _ _
  | ctrCipher n =>
    obtain ⟨hv, hlen⟩ : s.ctrValid = true ∧ input.length = n := ⟨hc.1, hc.2.1⟩
    obtain ⟨q, out, c, hq, -, rfl⟩ := hc.ciphered (hs.ctr hv)
    refine ⟨_, rfl, nofun, nofun, ?_, fun _ _ hne => absurd rfl (hne n)⟩
    rintro _ ⟨⟩ hp
    obtain rfl : p = q := Option.some.inj (hp.symm.trans hq)
    simp [hlen]
  | sha256Init | sha256Update _ | sha256Final | sha224Init | sha224Update _ | sha224Final | cbcInit _ | ctrInit _
  | ctrCustom _ _ | ctrDiscard =>
    have hsame := hc.prpTrace_same nofun nofun nofun
    exact ⟨[], hsame.trans (List.append_nil _).symm, nofun, nofun, nofun, fun _ _ _ => rfl⟩

end Sys2Proof.Machine
end

section
/-! SUPPORT. The counter block of the CTR unit (43_ctr.md R106, R113): what `BeInc` does to the window, byte by byte and as a
number, and where repeated increments lead. -/

namespace Sys2Proof.Machine

/-! ## Outside the window -/

/-- A byte of the first `n` bytes is that byte of the string. -/
theorem take_getD {n k : Nat} (s : Bytes) (hk : k < n) : (s.take n).getD k 0 = s.getD k 0 := by
  rw [List.getD_eq_getElem?_getD, List.getElem?_take_of_lt hk, List.getD_eq_getElem?_getD]

/-- A byte of what follows the first `n` bytes. -/
theorem drop_getD (n k : Nat) (s : Bytes) : (s.drop n).getD k 0 = s.getD (n + k) 0 := by
  rw [List.getD_eq_getElem?_getD, List.getElem?_drop, List.getD_eq_getElem?_getD]

/-- Replacing the window leaves the bytes before and after it. -/
theorem withWindow_getD_outside {buf : Bytes} {o w : Nat} (h : o + w ≤ buf.length) (v : Nat) {k : Nat}
    (hk : k < o ∨ o + w ≤ k) : (withWindow buf o w v).getD k 0 = buf.getD k 0 := by
  obtain hlt | hge := hk
  · rw [← take_getD _ hlt, withWindow_take h, take_getD _ hlt]
  · obtain ⟨j, rfl⟩ := Nat.exists_eq_add_of_le hge
    rw [← drop_getD, withWindow_drop h, drop_getD]

/-! ## Byte by byte -/

/-- `BeInc` on a buffer cut at the ends of its window. -/
theorem beInc_append (a s c : Bytes) :
    beInc (a ++ s ++ c) a.length s.length = a ++ beBytes s.length ((beValue s + 1) % 256 ^ s.length) ++ c := by
  rw [beInc, ← List.length_append, List.drop_left, List.append_assoc a s c, List.take_left, List.drop_left,
    List.take_left]

/-- A last byte that is not `0xFF` takes the increment alone. -/
theorem beBytes_inc_of_ne (s : Bytes) {b : Byte} (hb : b ≠ 0xFF) :
    beBytes (s.length + 1) ((beValue (s ++ [b]) + 1) % 256 ^ (s.length + 1)) = s ++ [b + 1] := by
  have hlt : b.toNat + 1 < 256 := by
    have hne : b.toNat ≠ 255 := fun h => hb (BitVec.eq_of_toNat_eq h)
    have hle := b.isLt
    omega
  have hinc : beValue (s ++ [b]) + 1 = beValue (s ++ [b + 1]) := by
    rw [beValue_concat, beValue_concat, BitVec.toNat_add_of_lt (by simpa using hlt), Nat.add_assoc]
    rfl
  have hval := beValue_lt (s ++ [b + 1])
  have hback := beBytes_beValue (s ++ [b + 1])
  rw [List.length_append, List.length_singleton] at hval hback
  rw [hinc, Nat.mod_eq_of_lt hval, hback]

/-- A last byte that is `0xFF` becomes 0 and passes the carry to the window without it. -/
theorem beBytes_inc_of_eq (s : Bytes) :
    beBytes (s.length + 1) ((beValue (s ++ [0xFF]) + 1) % 256 ^ (s.length + 1))
      = beBytes s.length ((beValue s + 1) % 256 ^ s.length) ++ [0] := by
  have hinc : beValue (s ++ [0xFF]) + 1 = (beValue s + 1) * 256 := by
    rw [beValue_concat, Nat.add_mul]
    rfl
  have hlow : ∀ n, BitVec.ofNat 8 (n * 256) = 0 := fun n =>
    BitVec.eq_of_toNat_eq ((BitVec.toNat_ofNat _ _).trans (Nat.mul_mod_left n 256))
  rw [hinc, pow_succ, Nat.mul_mod_mul_right, beBytes_succ, Nat.mul_div_cancel _ (by omega), hlow]

/-- A buffer cut at the ends of a window of at least one byte, and before its last byte. -/
theorem exists_window_split {buf : Bytes} {o w : Nat} (h : o + (w + 1) ≤ buf.length) :
    ∃ (a s : Bytes) (b : Byte) (c : Bytes), buf = a ++ s ++ b :: c ∧ a.length = o ∧ s.length = w := by
  refine ⟨buf.take o, (buf.drop o).take w, buf[o + w], buf.drop (o + w + 1), ?_, ?_, ?_⟩
  · rw [← List.drop_eq_getElem_cons, List.append_assoc, ← List.drop_drop, List.take_append_drop,
      List.take_append_drop]
  · rw [List.length_take]; omega
  · rw [List.length_take, List.length_drop]; omega

/-- Settles O32: the window's value by `withWindow`, the bytes by cutting the buffer before the last byte of the window. -/
theorem bigEndianIncrementCountsInTheWindow : Obligations.BigEndianIncrementCountsInTheWindow := by
  refine ⟨fun buf o w h => ?_, fun buf o w h => ?_⟩
  · rw [beInc_eq_withWindow]
    refine ⟨withWindow_length h _, ?_, fun k hk => withWindow_getD_outside h _ hk, ?_⟩
    · rw [windowValue_withWindow h, Nat.mod_mod]
    · rintro rfl
      rw [withWindow, beBytes_zero, List.append_nil, Nat.add_zero, List.take_append_drop]
  · obtain ⟨a, s, b, c, rfl, rfl, rfl⟩ := exists_window_split h
    have hget : (a ++ s ++ b :: c).getD (a.length + s.length) 0 = b := by
      rw [← List.length_append, List.getD_append_right _ _ _ _ le_rfl, Nat.sub_self, List.getD_cons_zero]
    have hinc := beInc_append a (s ++ [b]) c
    rw [List.length_append, List.length_singleton, List.append_assoc, List.append_assoc, List.singleton_append,
      ← List.append_assoc] at hinc
    rw [hget, hinc]
    have hset : ∀ (s' : Bytes) (y : Byte), s'.length = s.length →
        (a ++ s' ++ b :: c).set (a.length + s.length) y = a ++ (s' ++ [y]) ++ c := fun s' y hs => by
      rw [← hs, ← List.length_append, List.set_append_right _ _ le_rfl, Nat.sub_self, List.set_cons_zero]
      simp
    refine ⟨fun hb => ?_, ?_⟩
    · rw [beBytes_inc_of_ne s hb, hset s _ rfl]
    · rintro rfl
      rw [beBytes_inc_of_eq, beInc_append, hset _ _ (beBytes_length _ _)]

/-! ## Repeated increments -/

/-- The counter block after `j` increments (R113). -/
theorem counterAfter_eq_withWindow {c : CtrCtx} (h : c.counterOffset.toNat + c.counterWidth.toNat ≤ c.nonce.length)
    (j : Nat) : counterAfter c j = withWindow c.nonce c.counterOffset.toNat c.counterWidth.toNat
      ((windowValue c.nonce c.counterOffset.toNat c.counterWidth.toNat + j) % 256 ^ c.counterWidth.toNat) := by
  induction j with
  | zero => rw [Nat.add_zero, Nat.mod_eq_of_lt (windowValue_lt h), withWindow_self h, counterAfter_zero]
  | succ j ih =>
    rw [counterAfter, ih, beInc_eq_withWindow, withWindow_withWindow h, windowValue_withWindow h, Nat.mod_mod,
      Nat.mod_add_mod, Nat.add_assoc]

/-- A counter value has period `256^w`. -/
theorem counterValue_period (v j w : Nat) : (v + (j + 256 ^ w)) % 256 ^ w = (v + j) % 256 ^ w := by
  rw [← Nat.add_assoc, Nat.add_mod_right]

/-- Settles O34, by induction on the increments. -/
theorem counterHasAClosedForm : Obligations.CounterHasAClosedForm := by
  intro c j h
  refine ⟨counterAfter_eq_withWindow h j, ?_⟩
  rw [counterAfter_eq_withWindow h, counterAfter_eq_withWindow h, counterValue_period]

/-- Increments never touch a byte outside the window (R112). -/
theorem counterAfter_getD_outside {c : CtrCtx} (h : c.counterOffset.toNat + c.counterWidth.toNat ≤ c.nonce.length)
    (j : Nat) {k : Nat} (hk : k < c.counterOffset.toNat ∨ c.counterOffset.toNat + c.counterWidth.toNat ≤ k) :
    (counterAfter c j).getD k 0 = c.nonce.getD k 0 := by
  rw [counterAfter_eq_withWindow h, withWindow_getD_outside h _ hk]

end Sys2Proof.Machine
end

section
/-! SUPPORT. The CTR family (43_ctr.md): what each command answers, where a stream starts, and what transcripts of CTR commands
deliver and leave. -/

namespace Sys2Proof.Machine

/-! ## What the commands answer -/

/-- The PRP a context that meets its invariant is bound to. -/
theorem CtrCtx.Ok.lookup {cfg : Config} {c : CtrCtx} (h : c.Ok cfg) : ∃ p, lookupPrp cfg c.prp = some p := by
  obtain ⟨p, hp, -⟩ := h
  exact ⟨p, (bindablePrp_eq_some.1 hp).1⟩

/-- The requests a CIPHER of `n` bytes makes (R109). -/
def ctrRequests (c : CtrCtx) (p : Prp) (n : Nat) : List PrpRequest :=
  (List.range (blocksNeeded c p.pb n)).map fun j => ⟨c.prp, .enc, counterAfter c j⟩

/-- The state a CIPHER of `n` bytes leaves that delivers `out` and leaves the context `d` (R107). -/
def State.ctrReply (s : State) (p : Prp) (n : Nat) (out : Bytes) (d : CtrCtx) : State :=
  { s with ctr := d, din := [], dout := out, cc := 0, prpTrace := s.prpTrace ++ ctrRequests s.ctr p n }

/-- The state INIT with a nonce leaves, or INIT followed by CUSTOM, with the window `[o, o+w)` (R103, R104). -/
def State.ctrBound (s : State) (h : Handle) (nonce : Bytes) (o w : Nat) : State :=
  { s with
    ctr := { s.ctr with
      prp := h, nonce := nonce, counterOffset := BitVec.ofNat 12 o, counterWidth := BitVec.ofNat 12 w, nkeymat := 0 }
    ctrValid := true, din := [], dout := [], cc := 0 }

section Commands

variable {s : State} {p : Prp}

/-- INIT completes for a PRP that can be bound and one block of nonce. -/
theorem exec_ctrInit {h : Handle} {nonce : Bytes} (hh : s.halt = false) (hp : bindablePrp s.cfg h = some p)
    (hl : nonce.length = p.pb) : exec (.ctrInit h) { s with din := nonce } = .next (s.ctrBound h nonce 0 p.pb) :=
  exec_of_completes hh ⟨p, hp, hl, rfl⟩

/-- INIT raises F_PRP for a handle that cannot be bound, whatever `din` is (R103). -/
theorem execCtrInit_prp {h : Handle} (hh : s.halt = false) (hp : bindablePrp s.cfg h = none) :
    execCtrInit h s = .next (s.raiseFault .prp) := by
  rw [execCtrInit, whenRunning_running hh, whenBindable_none (by exact hp), raiseFault_clear_dout]

/-- CUSTOM raises F_WINDOW for a window that does not fit, whatever `din` is (R104). -/
theorem execCtrCustom_window {o w : Nat} (hh : s.halt = false) (hv : s.ctrValid = true)
    (hp : lookupPrp s.cfg s.ctr.prp = some p) (hw : p.pb < o + w) :
    execCtrCustom o w s = .next (s.raiseFault .window) := by
  have hfit : ¬ windowFits p.pb o w = true := by
    rw [windowFits, decide_eq_true_eq]
    omega
  rw [execCtrCustom, whenRunning_running hh, whenValid_of_valid (by exact hv), withBoundPrp_some (by exact hp),
    if_neg hfit, raiseFault_clear_dout]

/-- CIPHER raises F_ACC when the reservoir claims a whole block or more (R66). -/
theorem execCtrCipher_acc (n : Nat) (hh : s.halt = false) (hv : s.ctrValid = true)
    (hp : lookupPrp s.cfg s.ctr.prp = some p) (hn : p.pb ≤ s.ctr.nkeymat.toNat) :
    execCtrCipher n s = .next (s.raiseFault .acc) := by
  rw [execCtrCipher, whenRunning_running hh, whenValid_of_valid (by exact hv), withBoundPrp_some (by exact hp),
    accXor_eq_none (by exact hn)]
  rfl

/-- CIPHER completes on a VALID context that meets its invariant, in closed form (R107). -/
theorem exec_ctrCipher (hh : s.halt = false) (hv : s.ctrValid = true) (hok : s.ctr.Ok s.cfg)
    (hp : lookupPrp s.cfg s.ctr.prp = some p) (x : Bytes) :
    ∃ out d, Ciphered p s.ctr x out d ∧
      exec (.ctrCipher x.length) { s with din := x } = .next (s.ctrReply p x.length out d) := by
  obtain ⟨-, -, hn, -⟩ := hok.bound hp
  obtain ⟨out, r, hx, -⟩ :=
    accXor_keystream_some (s := { s with din := x, dout := [] }) (km := s.ctr.keymat) x (Nat.not_le_of_lt hn)
  have hdone : Completes { s with din := x } _ (.ctrCipher x.length) := ⟨hv, rfl, p, out, r, hp, hx, rfl⟩
  obtain ⟨q, out', d, hq, hc, heq⟩ := hdone.ciphered hok
  obtain rfl : p = q := Option.some.inj (hp.symm.trans hq)
  exact ⟨out', d, hc, (exec_of_completes (by exact hh) hdone).trans (congrArg _ heq)⟩

end Commands

/-! ## One command at a time -/

/-- Settles O29: the check of the handle comes before anything is written. -/
theorem ctrInitLoadsTheNonce : Obligations.CtrInitLoadsTheNonce := by
  refine ⟨fun h p s hh hp hl => ?_, fun h s hh hp => execCtrInit_prp hh (bindablePrp_eq_none.2 hp),
    commandWord_eq_or 3 0⟩
  exact ⟨_, exec_ctrInit hh hp hl, rfl, rfl, rfl, toNat_ofNat_12 (bindablePrp_pb hp).2, rfl, rfl⟩

/-- The two window fields side by side, as numbers (R51). -/
theorem window_fields_setWidth (a b : BitVec 12) :
    (a ++ b : BitVec 24).setWidth 32 = a.setWidth 32 <<< 12 ||| b.setWidth 32 := by
  refine BitVec.eq_of_getLsbD_eq fun i hi => ?_
  rw [BitVec.getLsbD_or, BitVec.getLsbD_shiftLeft, BitVec.getLsbD_setWidth, BitVec.getLsbD_setWidth,
    BitVec.getLsbD_setWidth, window_fields_getLsbD]
  by_cases h : i < 12
  · simp [h, hi]
  · simp [h, hi, show i - 12 < 32 by omega, BitVec.getLsbD_of_ge b i (by omega)]

/-- Settles O30: the sum of offset and width is a number and does not wrap. -/
theorem ctrCustomSetsAWindowThatFits : Obligations.CtrCustomSetsAWindowThatFits := by
  refine ⟨fun o w p s hh hv hp ho hw => ⟨fun hfit hd => ?_, execCtrCustom_window hh hv hp⟩,
    fun o w s hh hv => exec_uninit hh rfl hv, fun o w => ?_⟩
  · exact ⟨_, exec_of_completes hh ⟨hv, hd, p, hp, hfit, rfl⟩, toNat_ofNat_12 ho, toNat_ofNat_12 hw, rfl, rfl, rfl, rfl⟩
  · rw [encode, commandWord_eq_or, window_fields_setWidth, ← BitVec.or_assoc]
    rfl

/-- Settles O31: no block is made or taken back, only the count of unconsumed bytes is cleared. -/
theorem ctrDiscardEmptiesTheReservoir : Obligations.CtrDiscardEmptiesTheReservoir :=
  ⟨fun _ hh hv hd => exec_of_completes hh ⟨hv, hd, rfl⟩, fun _ hh hv => exec_uninit hh rfl hv, rfl,
    fun _ _ hh ha => runCommand_illegal_running hh (decode_argNotZero ha (.inr ⟨rfl, rfl⟩))⟩

/-- Settles O33, from the closed form of `exec_ctrCipher`. -/
theorem ctrCipherXorsTheKeystream : Obligations.CtrCipherXorsTheKeystream := by
  refine ⟨?_, fun n s hh hv => exec_uninit hh rfl hv, fun n p s hh hv hp hn => execCtrCipher_acc n hh hv hp hn,
    fun n => commandWord_eq_or 3 1 _⟩
  rintro n p s hh hv hok hp rfl
  obtain ⟨out, d, hc, hexec⟩ := exec_ctrCipher hh hv hok hp s.din
  obtain rfl := hc.out
  exact ⟨d, hexec, hc.enough, hc.prp, hc.counterOffset, hc.counterWidth, hc.nonce, hc.nkeymat, hc.unconsumed, hc.same,
    hc.last⟩

/-! ## The counter block outside the window -/

/-- A command other than INIT that completes advances the counter block some number of times (R100, R109). -/
theorem Completes.nonce_eq {i : Instr} {s t : State} (h : Completes s t i) (hok : s.ctr.Ok s.cfg)
    (hi : ∀ hd, i ≠ .ctrInit hd) : ∃ j, t.ctr.nonce = counterAfter s.ctr j := by
  cases i with
  | ctrInit hd => exact absurd rfl (hi hd)
  | ctrCipher n => obtain ⟨p, out, d, -, hc, rfl⟩ := h.ciphered hok; exact ⟨_, hc.nonce⟩
  | ctrCustom o w => obtain ⟨-, -, p, -, -, rfl⟩ := h; exact ⟨0, rfl⟩
  | ctrDiscard => obtain ⟨-, -, rfl⟩ := h; exact ⟨0, rfl⟩
  | cbcInit _ | cbcEncrypt _ | cbcDecrypt _ => obtain ⟨c, b, q, rfl, -⟩ := h.cbc_frame rfl; exact ⟨0, rfl⟩
  | sha256Init | sha256Update _ | sha256Final | sha224Init | sha224Update _ | sha224Final =>
    obtain ⟨c, b, rfl⟩ := h.hash_frame rfl; exact ⟨0, rfl⟩

/-- Settles O36: whatever the command, the new counter block is the old one after some increments in the old window. -/
theorem bytesOutsideTheWindowNeverChange : Obligations.BytesOutsideTheWindowNeverChange := by
  intro i s t hv hok hi h
  have hinc : ∃ j, t.ctr.nonce = counterAfter s.ctr j := by
    obtain ⟨-, rfl⟩ | ⟨-, f, -, rfl⟩ | ⟨-, hc⟩ := exec_cases h
    · exact ⟨0, rfl⟩
    · exact ⟨0, rfl⟩
    · exact hc.nonce_eq hok hi
  obtain ⟨p, hp⟩ := hok.lookup
  obtain ⟨-, hnonce, -, hw, -⟩ := hok.bound hp
  rw [← hnonce] at hw
  obtain ⟨j, hj⟩ := hinc
  rw [hj]
  exact ⟨counterAfter_length hw j, fun k hk => counterAfter_getD_outside hw j hk⟩

/-! ## The keystream from INIT -/

/-- INIT and at most one CUSTOM, for the whole block or a window that fits. -/
theorem transcript_ctrInit_custom {s : State} {h : Handle} {p : Prp} {nonce : Bytes} {o w : Nat}
    {custom : List (Instr × Bytes)} (hh : s.halt = false) (hp : bindablePrp s.cfg h = some p) (hl : nonce.length = p.pb)
    (hcustom : (custom = [] ∧ o = 0 ∧ w = p.pb) ∨ (custom = [(.ctrCustom o w, [])] ∧ o + w ≤ p.pb)) :
    transcript ([(.ctrInit h, nonce)] ++ custom) s =
      some ([([], 0)] ++ custom.map (fun _ => ([], 0)), s.ctrBound h nonce o w) := by
  have hinit := transcript_one (exec_ctrInit hh hp hl)
  obtain ⟨rfl, rfl, rfl⟩ | ⟨rfl, hw⟩ := hcustom
  · exact hinit
  · have hexec : exec (.ctrCustom o w) { s.ctrBound h nonce 0 p.pb with din := [] } = .next (s.ctrBound h nonce o w) :=
      exec_of_completes hh ⟨rfl, rfl, p, (bindablePrp_eq_some.1 hp).1, hw, rfl⟩
    exact transcript_append hinit (transcript_one hexec)

/-- Bound to a PRP with one block of nonce and a window that fits, the context meets its invariant. -/
theorem State.ctrBound_ok {s : State} {h : Handle} {p : Prp} {nonce : Bytes} {o w : Nat}
    (hp : bindablePrp s.cfg h = some p) (hl : nonce.length = p.pb) (hw : o + w ≤ p.pb) :
    (s.ctrBound h nonce o w).ctr.Ok s.cfg := by
  obtain ⟨hpos, hpb⟩ := bindablePrp_pb hp
  refine ⟨p, hp, hl, hpos, ?_, fun h0 => absurd rfl h0⟩
  rw [State.ctrBound, toNat_ofNat_12 (by omega), toNat_ofNat_12 (by omega)]
  exact hw

/-- With an empty reservoir, input byte `i` is XORed with byte `i mod PB` of keystream block `i div PB` (R113). -/
theorem Ciphered.getD_of_empty {p : Prp} {c d : CtrCtx} {x out : Bytes} (C : Ciphered p c x out d) (h : c.nkeymat = 0)
    {i : Nat} (hi : i < x.length) :
    out.getD i 0 = x.getD i 0 ^^^ (keystreamBlockAt p c (i / p.pb)).getD (i % p.pb) 0 := by
  have hout := C.out
  have henough := C.enough
  rw [CtrCtx.unconsumed_of_empty h, List.nil_append] at hout henough
  have hlen := joinBlocks_keystream_length p c (blocksNeeded c p.pb x.length)
  rw [hout, xorBytes_getD _ _ _ hi (by rw [List.length_take]; omega), take_getD _ hi]
  congr 1
  exact joinBlocks_getD (fun j => prpAnswer_length p .enc _) (by omega)

/-- A remainder below `B` that completes `m` to whole blocks. -/
theorem eq_sub_mod_of_add_eq_mul {B r m k : Nat} (hr : r < B) (h : r + m = k * B) : r = (B - m % B) % B := by
  have hsum : (r + m % B) % B = 0 := by rw [Nat.add_mod_mod, h, Nat.mul_mod_left]
  have hm : m % B < B := Nat.mod_lt m (Nat.zero_lt_of_lt hr)
  calc r
    _ = (r + B) % B := by rw [Nat.add_mod_right, Nat.mod_eq_of_lt hr]
    _ = (r + m % B + (B - m % B)) % B := by rw [Nat.add_assoc, Nat.add_sub_of_le hm.le]
    _ = (B - m % B) % B := by rw [← Nat.mod_add_mod, hsum, Nat.zero_add]

/-- With an empty reservoir, `n` bytes take `ceil(n / PB)` blocks and leave the rest of the last one (R113). -/
theorem Ciphered.nkeymat_of_empty {p : Prp} {c d : CtrCtx} {x out : Bytes} (C : Ciphered p c x out d)
    (h : c.nkeymat = 0) : d.nkeymat.toNat = (p.pb - x.length % p.pb) % p.pb := by
  have hn : d.nkeymat.toNat + x.length = blocksNeeded c p.pb x.length * p.pb := by simpa [h] using C.nkeymat
  exact eq_sub_mod_of_add_eq_mul C.lt hn

/-- Settles O35: the stream starts with an empty reservoir, so its bytes are those of the blocks in order. -/
theorem keystreamFromInitHasAClosedForm : Obligations.KeystreamFromInitHasAClosedForm := by
  intro s h p nonce input o w custom hh hp hl hcustom counterBlock
  have hw : o + w ≤ p.pb := by obtain ⟨-, rfl, rfl⟩ | ⟨-, hw⟩ := hcustom <;> omega
  have hpb := (bindablePrp_pb hp).2
  have hcounter : ∀ j, counterAfter (s.ctrBound h nonce o w).ctr j = counterBlock j := fun j => by
    have ho : (s.ctrBound h nonce o w).ctr.counterOffset.toNat = o := toNat_ofNat_12 (by omega)
    have hwidth : (s.ctrBound h nonce o w).ctr.counterWidth.toNat = w := toNat_ofNat_12 (by omega)
    have hfit : (s.ctrBound h nonce o w).ctr.nonce.length = p.pb := hl
    rw [counterAfter_eq_withWindow (by omega), ho, hwidth]
    rfl
  obtain ⟨out, d, hc, hexec⟩ := exec_ctrCipher (s := s.ctrBound h nonce o w) hh rfl (State.ctrBound_ok hp hl hw)
    (bindablePrp_eq_some.1 hp).1 input
  refine ⟨out, _, transcript_append (transcript_ctrInit_custom hh hp hl hcustom) (transcript_one hexec),
    hc.out_length, fun i hi => ?_, hc.nonce.trans (hcounter _), hc.nkeymat_of_empty rfl, fun j => ?_⟩
  · rw [hc.getD_of_empty rfl hi, keystreamBlockAt, hcounter]
  · simp only [counterBlock, counterValue_period]

/-! ## Splitting a stream -/

/-- The requests of two CIPHERs in sequence are those of one over the joined input (R111). -/
theorem Ciphered.requests_append {p : Prp} {c d e : CtrCtx} {x y o1 o2 : Bytes} (C : Ciphered p c x o1 d)
    (D : Ciphered p d y o2 e) :
    ctrRequests c p (x ++ y).length = ctrRequests c p x.length ++ ctrRequests d p y.length := by
  simp only [ctrRequests, (C.append D).1, List.range_add, List.map_append, List.map_map, Function.comp_def, C.prp,
    counterAfter_add C.nonce C.counterOffset C.counterWidth]

theorem blocksNeeded_zero {pb : Nat} (h : 0 < pb) (c : CtrCtx) : blocksNeeded c pb 0 = 0 :=
  blocksFor_le h (Nat.zero_le _)

/-- Ciphering nothing (R107, corner case). -/
theorem Ciphered.nil {p : Prp} {cfg : Config} {c : CtrCtx} (hok : c.Ok cfg) (hp : lookupPrp cfg c.prp = some p) :
    Ciphered p c [] [] c := by
  obtain ⟨-, -, hn, -, hfull⟩ := hok.bound hp
  have h0 := blocksNeeded_zero (Nat.zero_lt_of_lt hn) c
  refine ⟨rfl, Nat.zero_le _, ?_, rfl, rfl, rfl, ?_, ?_, hn, hfull, fun _ => rfl, fun j hj => ?_⟩
  · simp [h0]
  · simp [h0]
  · simp [h0]
  · exact absurd (h0.symm.trans hj) nofun

/-- CIPHERs in sequence do what one CIPHER does on the joined chunks (R111). -/
theorem transcript_ctrCiphers {p : Prp} (chunks : List Bytes) {s : State} (hh : s.halt = false) (hv : s.ctrValid = true)
    (hok : s.ctr.Ok s.cfg) (hp : lookupPrp s.cfg s.ctr.prp = some p) :
    ∃ (replies : List Reply) (t : State),
      transcript (chunks.map fun c => (.ctrCipher c.length, c)) s = some (replies, t) ∧
      Ciphered p s.ctr chunks.flatten (outputBytes replies) t.ctr ∧
      t.prpTrace = s.prpTrace ++ ctrRequests s.ctr p chunks.flatten.length ∧ ∀ r ∈ replies, r.2 = 0 := by
  induction chunks generalizing s with
  | nil =>
    have h0 : ctrRequests s.ctr p 0 = [] := by
      rw [ctrRequests, blocksNeeded_zero (lookupPrp_spec hp).2.1]
      rfl
    exact ⟨[], s, rfl, Ciphered.nil hok hp, by simp [h0], nofun⟩
  | cons x chunks ih =>
    obtain ⟨out, d, hc, hexec⟩ := exec_ctrCipher hh hv hok hp x
    obtain ⟨replies, t, htr, hrest, htrace, hreplies⟩ :=
      ih (s := s.ctrReply p x.length out d) hh hv (hc.ok hok hp) (by rw [← hp]; exact congrArg _ hc.prp)
    refine ⟨(out, 0) :: replies, t, transcript_append (transcript_one hexec) htr, (hc.append hrest).2, ?_,
      List.forall_mem_cons.2 ⟨rfl, hreplies⟩⟩
    rw [htrace, List.flatten_cons, hc.requests_append hrest, ← List.append_assoc]
    rfl

/-- Settles O38: both runs cipher the same bytes from the same context, which determines what they deliver and leave. -/
theorem ctrStreamsMayBeSplit : Obligations.CtrStreamsMayBeSplit := by
  intro s chunks hh hv hok
  obtain ⟨p, hp⟩ := hok.lookup
  obtain ⟨replies, t, htr, hsplit, htrace, hreplies⟩ := transcript_ctrCiphers chunks hh hv hok hp
  obtain ⟨out, d, hone, hexec⟩ := exec_ctrCipher hh hv hok hp chunks.flatten
  obtain ⟨hout, hctx⟩ := hone.unique hsplit
  exact ⟨replies, t, _, htr, hexec, hout, hctx, htrace.symm, hreplies, rfl⟩

/-! ## Ciphering twice -/

/-- A command of a running CORE that answers `OK` has completed. -/
theorem completes_of_ok {i : Instr} {s t : State} (hh : s.halt = false) (h : exec i s = .next t) (hcc : t.cc = 0) :
    Completes s t i := by
  obtain ⟨hhalt, -⟩ | ⟨-, f, -, rfl⟩ | ⟨-, hc⟩ := exec_cases h
  · exact absurd (hhalt.symm.trans hh) nofun
  · exact absurd hcc f.code_ne_zero
  · exact hc

/-- A transcript of a command and more: the command's reply comes first. -/
theorem transcript_cons_eq_some {i : Instr} {x : Bytes} {rest : List (Instr × Bytes)} {s u : State} {q : List Reply}
    (h : transcript ((i, x) :: rest) s = some (q, u)) :
    ∃ t r, exec i { s with din := x } = .next t ∧ transcript rest t = some (r, u) ∧ q = (t.dout, t.cc) :: r := by
  cases he : exec i { s with din := x } with
  | next t =>
    rw [transcript_cons he, Option.map_eq_some_iff] at h
    obtain ⟨⟨r, u'⟩, hrest, heq⟩ := h
    obtain ⟨rfl, rfl⟩ := Prod.mk.inj heq
    exact ⟨t, r, rfl, hrest, rfl⟩
  | fault f => simp only [transcript, he] at h; cases h
  | refused f => simp only [transcript, he] at h; cases h

/-- Two running COREs at the same position of one CTR stream. -/
structure State.InStep (s s' : State) : Prop where
  halt : s.halt = false
  halt' : s'.halt = false
  cfg : s'.cfg = s.cfg
  valid : s.ctrValid = true
  valid' : s'.ctrValid = true
  ok : s.ctr.Ok s.cfg
  ok' : s'.ctr.Ok s'.cfg
  alike : s.ctr.Alike (blockSize s.cfg s.ctr.prp) s'.ctr

section InStep

variable {s s' t t' : State} {i : Instr} {x y : Bytes}

/-- Two COREs stay in step when they complete the same CTR command, on whatever bytes, and their contexts stay alike. -/
theorem State.InStep.of_completes (h : s.InStep s') (hu : unitOf i = .ctr) (hc : Completes { s with din := x } t i)
    (hc' : Completes { s' with din := y } t' i) (halike : t.ctr.Alike (blockSize t.cfg t.ctr.prp) t'.ctr) :
    t.InStep t' := by
  obtain ⟨hhalt, hcfg, -⟩ := completes_keeps hc
  obtain ⟨hhalt', hcfg', -⟩ := completes_keeps hc'
  have hvalid := (completes_valid hc).1
  have hvalid' := (completes_valid hc').1
  rw [hu] at hvalid hvalid'
  exact ⟨hhalt.trans h.halt, hhalt'.trans h.halt', hcfg'.trans (h.cfg.trans hcfg.symm), hvalid, hvalid',
    hc.ctr_ok hu fun _ => h.ok, hc'.ctr_ok hu fun _ => h.ok', halike⟩

/-- A CUSTOM or DISCARD that completes has the same effect on a CORE in step. -/
theorem State.InStep.exec_silent (h : s.InStep s') (hu : unitOf i = .ctr) (hdin : x = []) (hdout : t.dout = [])
    (hc : Completes { s with din := x } t i) (hc' : Completes { s' with din := [] } t' i) :
    exec i { s' with din := t.dout } = .next t' ∧ t'.dout = x ∧ t.InStep t' := by
  subst hdin
  obtain ⟨halike, hout, -⟩ := hc.ctr_alike hc' hu h.cfg.symm rfl (fun _ => h.ok) (fun _ => h.ok') fun _ => h.alike
  rw [hdout]
  exact ⟨exec_of_completes h.halt' hc', hout.symm.trans hdout, h.of_completes hu hc hc' halike⟩

/-- Given the output of a command that completed, a CORE in step delivers its input (R110). -/
theorem State.InStep.exec_back (h : s.InStep s') (hi : isCtrStreamCommand i = true)
    (hc : Completes { s with din := x } t i) :
    ∃ t', exec i { s' with din := t.dout } = .next t' ∧ t'.dout = x ∧ t'.cc = 0 ∧ t.InStep t' := by
  have hbound : ∀ {p}, lookupPrp s.cfg s.ctr.prp = some p → lookupPrp s'.cfg s'.ctr.prp = some p := fun hp => by
    rw [h.cfg, ← h.alike.prp, hp]
  cases i with
  | ctrCipher n =>
    obtain ⟨p, out, d, hp, C, rfl⟩ := Completes.ciphered hc h.ok
    have hlen : out.length = n := C.out_length.trans hc.2.1
    obtain ⟨back, d', D, hexec⟩ := exec_ctrCipher h.halt' h.valid' h.ok' (hbound hp) out
    rw [hlen] at hexec
    have halike := h.alike
    rw [blockSize_eq hp] at halike
    obtain ⟨hout, hback, hstream, hd⟩ := C.alike halike C.out_length D
    refine ⟨_, hexec, ?_, rfl, h.of_completes rfl hc (completes_of_ok (by exact h.halt') hexec rfl) ?_⟩
    · calc back
        _ = xorBytes (xorBytes x (s.ctr.stream p x.length)) (s.ctr.stream p x.length) := by rw [hback, hout]
        _ = x := xorBytes_self_cancel _ _ hstream.le
    · rw [← blockSize_eq hp, ← C.prp] at hd
      exact hd
  | ctrCustom o w =>
    obtain ⟨-, hd, p, hp, hw, rfl⟩ := id hc
    obtain ⟨hexec, hout, hstep⟩ := h.exec_silent rfl hd rfl hc ⟨h.valid', rfl, p, hbound hp, hw, rfl⟩
    exact ⟨_, hexec, hout, rfl, hstep⟩
  | ctrDiscard =>
    obtain ⟨-, hd, rfl⟩ := id hc
    obtain ⟨hexec, hout, hstep⟩ := h.exec_silent rfl hd rfl hc ⟨h.valid', rfl, rfl⟩
    exact ⟨_, hexec, hout, rfl, hstep⟩
  | sha256Init | sha256Update _ | sha256Final | sha224Init | sha224Update _ | sha224Final | cbcInit _ | cbcEncrypt _
  | cbcDecrypt _ | ctrInit _ => cases hi

/-- INIT with one nonce brings two running COREs of one configuration in step. -/
theorem State.InStep.ofInit {h : Handle} {p : Prp} {nonce : Bytes} (hh : s.halt = false) (hh' : s'.halt = false)
    (hcfg : s'.cfg = s.cfg) (hp : bindablePrp s.cfg h = some p) (hl : nonce.length = p.pb) :
    (s.ctrBound h nonce 0 p.pb).InStep (s'.ctrBound h nonce 0 p.pb) where
  halt := hh
  halt' := hh'
  cfg := hcfg
  valid := rfl
  valid' := rfl
  ok := State.ctrBound_ok hp hl (Nat.zero_add _).le
  ok' := State.ctrBound_ok (hcfg ▸ hp) hl (Nat.zero_add _).le
  alike := ⟨rfl, rfl, rfl, rfl, rfl, by rw [CtrCtx.unconsumed_of_empty rfl, CtrCtx.unconsumed_of_empty rfl]⟩

end InStep

/-- A script that completes can be undone on a CORE in step, command by command. -/
theorem State.InStep.transcript_back {script : List (Instr × Bytes)} {s s' t : State} {replies : List Reply}
    (h : s.InStep s') (hscript : ∀ c ∈ script, isCtrStreamCommand c.1 = true)
    (htr : transcript script s = some (replies, t)) (hok : ∀ r ∈ replies, r.2 = 0) :
    ∃ t', transcript (List.zipWith (fun c r => (c.1, r.1)) script replies) s' =
      some (script.map fun c => (c.2, 0), t') := by
  induction script generalizing s s' replies with
  | nil => cases htr; exact ⟨s', rfl⟩
  | cons c script ih =>
    obtain ⟨i, x⟩ := c
    obtain ⟨hi, hscript⟩ := List.forall_mem_cons.1 hscript
    obtain ⟨u, rest, hexec, hrest, rfl⟩ := transcript_cons_eq_some htr
    obtain ⟨hcc, hok⟩ := List.forall_mem_cons.1 hok
    obtain ⟨u', hexec', hout, hcc', hstep⟩ := h.exec_back hi (completes_of_ok (by exact h.halt) hexec hcc)
    obtain ⟨t', htr'⟩ := ih hstep hscript hrest hok
    have hback := transcript_append (transcript_one hexec') htr'
    rw [hout, hcc'] at hback
    exact ⟨t', hback⟩

/-- Settles O37: INIT brings the COREs in step, and from there the script is undone command by command. -/
theorem ctrCipherUndoesItself : Obligations.CtrCipherUndoesItself := by
  intro s s' h p nonce script replies t hh hh' hp hcfg hl hscript htr hok
  obtain ⟨u, rest, hinit, hrest, heq⟩ := transcript_cons_eq_some htr
  obtain ⟨-, rfl⟩ := List.cons.inj heq
  obtain rfl := Host.Outcome.next.inj ((exec_ctrInit hh hp hl).symm.trans hinit)
  obtain ⟨t', htr'⟩ := (State.InStep.ofInit hh hh' hcfg hp hl).transcript_back hscript hrest hok
  exact ⟨t', transcript_append (transcript_one (exec_ctrInit hh' (hcfg ▸ hp) hl)) htr'⟩

end Sys2Proof.Machine
end

section
/-! SUPPORT. The exception family (60_exceptions.md): what a step does on a halted CORE, what a raised fault leaves, and the
lifecycle of HALT and the VALID flags (R131). -/

namespace Sys2Proof.Machine

/-! ## Steps by the host's next action -/

theorem step_command {s : State} {w : Word} {input : Bytes} {rest : List HostAction}
    (hp : s.pending = .command w input :: rest) :
    step s = mapNext State.recordCommand (runCommand w { s with pending := rest, din := input }) := by
  rw [step, hp]

theorem step_reset {s : State} {rest : List HostAction} (hp : s.pending = .reset :: rest) :
    step s = .next { s with pending := rest }.takeReset := by
  rw [step, hp]

@[simp] theorem State.takeReset_valid (u : CoreUnit) (s : State) : s.takeReset.valid u = false := by
  cases u <;> rfl

/-! ## The halted CORE -/

/-- Apart from reset, no step of a halted CORE clears HALT or changes FCODE (R125, R129). -/
theorem step_keeps_halt_and_fcode {s t : State} (hh : s.halt = true) (h : step s = .next t)
    (hp : s.pending ≠ .reset :: s.pending.tail) : t.halt = true ∧ t.fcode = s.fcode := by
  obtain ⟨-, rfl⟩ | ⟨w, input, rest, u, -, hx, rfl⟩ | ⟨rest, hreset, -⟩ | ⟨r, rest, -, rfl⟩ | ⟨r, v, rest, -, rfl⟩ :=
    step_eq_next h
  · exact ⟨hh, rfl⟩
  · obtain rfl := Host.Outcome.next.inj ((runCommand_halted (by exact hh)).symm.trans hx)
    exact ⟨hh, rfl⟩
  · exact absurd (by rw [hreset, List.tail_cons]) hp
  · exact ⟨(State.readRegister_halt r _).trans hh, State.readRegister_fcode r _⟩
  · exact ⟨hh, rfl⟩

/-- Settles O7: a halted CORE refuses before it decodes, and only a reset takes it out of HALT. -/
theorem haltedCoreRefusesEveryCommand : Obligations.HaltedCoreRefusesEveryCommand := by
  intro s rest hh
  obtain ⟨hstatus, hcc, -⟩ := registerAccessHasNoSideEffect s rest
  refine ⟨fun w input hp => ?_, hstatus, hcc, fun hp => ⟨_, step_reset hp, rfl, rfl, rfl, rfl⟩, fun t h ht => ?_⟩
  · rw [step_command hp, runCommand_halted (by exact hh)]
    rfl
  · by_contra hp
    exact absurd ((step_keeps_halt_and_fcode hh h hp).1.symm.trans ht) nofun

/-! ## Raised faults -/

/-- A command word that takes a running CORE into HALT has raised a fault, the decoder's or the command's own. -/
theorem runCommand_raised {w : Word} {s t : State} (hh : s.halt = false) (h : runCommand w s = .next t)
    (ht : t.halt = true) : ∃ f, t = s.raiseFault f := by
  obtain ⟨hhalt, -⟩ | ⟨-, -, rfl⟩ | ⟨-, i, -, hx⟩ := runCommand_eq_next h
  · exact absurd (hhalt.symm.trans hh) nofun
  · exact ⟨.illegal, rfl⟩
  · obtain ⟨hhalt, -⟩ | ⟨-, f, -, rfl⟩ | ⟨-, hc⟩ := exec_cases hx
    · exact absurd (hhalt.symm.trans hh) nofun
    · exact ⟨f, rfl⟩
    · obtain ⟨hkeeps, -⟩ := completes_keeps hc
      exact absurd (ht.symm.trans (hkeeps.trans hh)) nofun

/-- Settles O8: the state a raised fault leaves, read through STATUS. -/
theorem raisedFaultWritesOnlyTheFaultRegisters : Obligations.RaisedFaultWritesOnlyTheFaultRegisters := by
  intro w s t hh h ht
  obtain ⟨f, rfl⟩ := runCommand_raised hh h ht
  obtain ⟨hhalt, hhash, hcbc, hctr, -, hfcode, -⟩ := statusWordHoldsTheFlags (s.raiseFault f)
  exact ⟨f, rfl, hhalt, hfcode, hhash, hcbc, hctr⟩

/-- Settles O9: each check answers before the ones after it are reached. -/
theorem checksAreMadeInOrder : Obligations.ChecksAreMadeInOrder := by
  refine ⟨fun s w => ⟨runCommand_halted, runCommand_illegal_running, fun i _ hi => runCommand_legal hi s⟩,
    fun i s => exec_uninit, fun h s hh hp => ⟨execCbcInit_prp hh hp, execCtrInit_prp hh hp⟩,
    fun o w p s => execCtrCustom_window, fun n s hh hv hn => ?_, fun n p s => execCtrCipher_acc n,
    fun s t hh h hp => (step_keeps_halt_and_fcode hh h hp).2⟩
  exact ⟨hashUpdate_acc n hh hv hn, hashUpdate_acc n hh hv hn, hashFinal_acc .sha256 hh hv hn,
    hashFinal_acc .sha224 hh hv hn⟩

/-! ## The lifecycle -/

/-- Settles O41, row by row from the outcomes of a command. -/
theorem lifecycleFollowsTheTransitionTable : Obligations.LifecycleFollowsTheTransitionTable := by
  refine ⟨fun s rest hp => ⟨_, step_reset hp, rfl, fun u => State.takeReset_valid u _⟩, fun i s t h => ?_⟩
  obtain ⟨hh, rfl⟩ | ⟨hh, f, -, rfl⟩ | ⟨hh, hc⟩ := exec_cases h
  · exact ⟨fun hrun => absurd (hh.symm.trans hrun) nofun, fun hrun => absurd (hh.symm.trans hrun) nofun, fun _ => rfl⟩
  · exact ⟨fun _ hcc => absurd hcc f.code_ne_zero, fun _ _ => ⟨rfl, fun u => State.raiseFault_valid f u s⟩,
      fun hhalt => absurd (hh.symm.trans hhalt) nofun⟩
  · obtain ⟨hkeeps, -, -, -, -, hcc, -⟩ := completes_keeps hc
    exact ⟨fun _ _ => ⟨hkeeps.trans hh, completes_valid hc⟩, fun _ hne => absurd hcc hne,
      fun hhalt => absurd (hh.symm.trans hhalt) nofun⟩

end Sys2Proof.Machine
end

section
/-! SUPPORT. The reset family (70_reset_and_hazards.md): what a pending command or reset leads to, and that a VALID flag,
once set, survives every step but a reset (R140). -/

namespace Sys2Proof.Machine

/-- Settles O6: a word that decodes is run by the decoded command. -/
theorem stepRunsTheDecodedCommand : Obligations.StepRunsTheDecodedCommand := by
  intro s w i input rest hp hi
  rw [step_command hp, runCommand_legal hi]

/-- After reset every field of STATUS reads 0 (R23, R15). -/
@[simp] theorem State.takeReset_status (s : State) : s.takeReset.status = 0 := by
  simp only [State.status, State.takeReset_fcode, State.takeReset_ctrValid, State.takeReset_cbcValid,
    State.takeReset_hashValid, State.takeReset_halt]
  rfl

/-! ## The VALID flags -/

@[simp] theorem State.recordCommand_valid (u : CoreUnit) (s : State) : s.recordCommand.valid u = s.valid u := by
  cases u <;> rfl

@[simp] theorem State.readRegister_valid (r : ReadReg) (u : CoreUnit) (s : State) :
    (s.readRegister r).valid u = s.valid u := by
  cases u
  · exact State.readRegister_hashValid r s
  · exact State.readRegister_cbcValid r s
  · exact State.readRegister_ctrValid r s

/-- A command that completes sets its own unit's VALID flag and leaves the others (R131). -/
theorem completes_keeps_valid {i : Instr} {s t : State} {u : CoreUnit} (h : Completes s t i) (hv : s.valid u = true) :
    t.valid u = true := by
  obtain ⟨hown, -, hothers⟩ := completes_valid h
  by_cases hu : u = unitOf i
  · rw [hu, hown]
  · rw [hothers u hu, hv]

/-- No command word clears a VALID flag: a refusal and a fault leave the flags as they are (R124, R125). -/
theorem runCommand_keeps_valid {w : Word} {s t : State} {u : CoreUnit} (h : runCommand w s = .next t)
    (hv : s.valid u = true) : t.valid u = true := by
  obtain ⟨-, rfl⟩ | ⟨-, -, rfl⟩ | ⟨-, i, -, hx⟩ := runCommand_eq_next h
  · exact (State.refuseHalted_valid u s).trans hv
  · exact (State.raiseFault_valid .illegal u s).trans hv
  · obtain ⟨-, rfl⟩ | ⟨-, f, -, rfl⟩ | ⟨-, hc⟩ := exec_cases hx
    · exact (State.refuseHalted_valid u s).trans hv
    · exact (State.raiseFault_valid f u s).trans hv
    · exact completes_keeps_valid hc hv

/-- Apart from reset, no step clears a VALID flag (R140). -/
theorem step_keeps_valid {s t : State} {u : CoreUnit} (h : step s = .next t)
    (hp : s.pending ≠ .reset :: s.pending.tail) (hv : s.valid u = true) : t.valid u = true := by
  have hserved : ∀ pending din, ({ s with pending := pending, din := din } : State).valid u = true := by
    cases u <;> exact fun _ _ => hv
  obtain ⟨-, rfl⟩ | ⟨w, input, rest, t', -, hx, rfl⟩ | ⟨rest, hreset, -⟩ | ⟨r, rest, -, rfl⟩ | ⟨r, v, rest, -, rfl⟩ :=
    step_eq_next h
  · exact hv
  · exact (State.recordCommand_valid u t').trans (runCommand_keeps_valid hx (hserved rest input))
  · exact absurd (by rw [hreset, List.tail_cons]) hp
  · exact (State.readRegister_valid r u _).trans (hserved rest s.din)
  · exact hserved rest s.din

/-- Settles O10: reset gives the registers their R23 values, and every other step keeps HALT and each VALID flag. -/
theorem onlyResetClearsHaltAndValidFlags : Obligations.OnlyResetClearsHaltAndValidFlags := by
  refine ⟨fun s rest hp => ⟨_, step_reset hp, rfl, rfl, rfl, rfl, rfl, rfl, State.takeReset_status _, rfl, rfl, rfl⟩,
    fun s t h hp => ?_⟩
  exact ⟨fun hh => (step_keeps_halt_and_fcode hh h hp).1, step_keeps_valid (u := .hash) h hp,
    step_keeps_valid (u := .cbc) h hp, step_keeps_valid (u := .ctr) h hp⟩

end Sys2Proof.Machine
end
